-- ==== Sys2Proof/Word.lean ====
section
/-! DEFINITION. The widths of the block's words (spec/00_scope.md R6), one name for each. Bit 0 is the least
significant bit of every word and every stored quantity is unsigned (R7). -/

namespace Sys2Proof

/-- A command word, `CMD_W` = 16 bits (R6, R60). -/
abbrev Word := BitVec 16

/-- A symbol, "one byte value (0–255)", `SYM_W` = 8 bits (R6). -/
abbrev Sym := BitVec 8

/-- A frequency count, TOTAL or a node weight, `CNT_W` = 32 bits (R6). -/
abbrev Count := BitVec 32

/-- A node index, `IDX_W` = 9 bits (R6). -/
abbrev Idx := BitVec 9

/-- A code length field, `LEN_W` = 9 bits (R6). -/
abbrev Len := BitVec 9

/-- A code bit vector, `CODE_W` = 256 bits (R6). -/
abbrev Digits := BitVec 256

/-- A stream position, `POS_W` = 64 bits (R6). -/
abbrev Pos := BitVec 64

/-- A read-back response word, `RSP_W` = 272 bits (R6). -/
abbrev Response := BitVec 272

/-- A listing record carried as one word, 273 bits (R76). -/
abbrev ListWord := BitVec 273

/-- One binary digit: `false` is digit '0', bit value 0, left; `true` is digit '1', bit value 1, right (R44). -/
abbrev Digit := Bool

end Sys2Proof
end

