-- ==== Sys2Proof/Config.lean ====
section
/-! DEFINITION. The parameters of spec/00_scope.md R6. All are constants of this hardware but `LATENCY`, which the
spec leaves open. -/

namespace Sys2Proof

/-- `N_SYM`: the largest possible alphabet (R6). -/
abbrev Config.nSym : Nat := 256

/-- `N_NODE`: the number of node slots, indices 0 to 510 (R6). -/
abbrev Config.nNode : Nat := 511

/-- The first index an internal node can have (R23, R105). -/
abbrev Config.firstInternal : Nat := 256

/-- `NIL`: the node index that means "no node" (R6). -/
abbrev Config.nil : Idx := 511

/-- `CNT_MAX` = 2^32 − 1: the largest input length a session can count (R6). -/
abbrev Config.cntMax : Count := 4294967295

/-- `MAX_DEPTH`: the largest code length that can occur (R6, R109). -/
abbrev Config.maxDepth : Nat := 255

/-- `LATENCY`: the time the `n`-th accepted command takes. OPEN (R6, R223, D30): it may depend on the command and on
the state, and no rule reads it, so no definition of the model does. -/
opaque Config.latency : Nat → Nat

end Sys2Proof
end

