-- ==== Sys2Proof/Syntax.lean ====
section
/-! DEFINITION. The fourteen commands of spec/30_encoding.md R67, one constructor for each row of the opcode map.
Every operand is an immediate field of the command word (R66). -/

namespace Sys2Proof

/-- A command of the block. -/
inductive Instr where
  /-- CLR: start a new session (R81). -/
  | clr
  /-- CNT sym: count one occurrence of a byte (R91). -/
  | cnt (sym : Sym)
  /-- BLD: build the tree from the frequency table (R101). -/
  | bld
  /-- GEN: derive the code table from the tree (R121). -/
  | gen
  /-- EBEG: start, or restart, the encoded stream (R136). -/
  | ebeg
  /-- ENC sym: encode one byte (R137). -/
  | enc (sym : Sym)
  /-- DBEG: start, or restart, a decode (R151). -/
  | dbeg
  /-- DEC bit: consume one bit of the encoded stream (R152). -/
  | dec (bit : Digit)
  /-- DEND: the encoded stream has ended (R153). -/
  | dend
  /-- RDR reg: read a register (R171). -/
  | rdr (reg : BitVec 4)
  /-- RDF sym: read a frequency (R172). -/
  | rdf (sym : Sym)
  /-- RDC sym: read a code (R173). -/
  | rdc (sym : Sym)
  /-- RDN idx: read a tree node (R174). -/
  | rdn (idx : Idx)
  /-- LST: emit the diagnostic listing (R125). -/
  | lst
  deriving DecidableEq, Repr

end Sys2Proof
end

