-- ==== Sys2Proof/WellFormed.lean ====
section
/-! DEFINITION. Which commands the block has. The operand types already fix every width; the one check left is that of
format R: `reg` must be 0 to 11 (spec/30_encoding.md R64). -/

namespace Sys2Proof

/-- The registers that RDR can name are numbered 0 to 11 (R21, R64). -/
def regExists (reg : BitVec 4) : Bool := decide (reg.toNat ≤ 11)

/-- A command that some command word encodes. -/
def Instr.wellFormed : Instr → Bool
  | .clr => true
  | .cnt _ => true
  | .bld => true
  | .gen => true
  | .ebeg => true
  | .enc _ => true
  | .dbeg => true
  | .dec _ => true
  | .dend => true
  | .rdr reg => regExists reg
  | .rdf _ => true
  | .rdc _ => true
  | .rdn _ => true
  | .lst => true

end Sys2Proof
end

