-- ==== Sys2Proof/Decode.lean ====
section
/-! DEFINITION. Decoding a command word (spec/30_encoding.md R70: a total function of the word alone), the encoder
beside it, the opcode map of R67 as data, and the pseudo-instructions of R72. -/

namespace Sys2Proof

/-- Why a word is none of the fourteen commands (R68). -/
inductive Illegal where
  /-- `OP` is 0x0 or 0xF. -/
  | reservedOpcode
  /-- A must-be-zero bit of the command's format is 1. -/
  | mustBeZero
  /-- RDR with `reg` 12 to 15. -/
  | reservedRegister
  deriving DecidableEq, Repr

/-! ### Fields of a word (R60 to R66) -/

/-- `OP = cmd[15:12]`. -/
def opField (w : Word) : BitVec 4 := w.extractLsb' 12 4

/-- `ARG = cmd[11:0]`. -/
def argField (w : Word) : BitVec 12 := w.extractLsb' 0 12

/-- `sym = cmd[7:0]`. -/
def symField (w : Word) : Sym := w.extractLsb' 0 8

/-- `bit = cmd[0]`. -/
def bitField (w : Word) : Digit := w.getLsbD 0

/-- `reg = cmd[3:0]`. -/
def regField (w : Word) : BitVec 4 := w.extractLsb' 0 4

/-- `idx = cmd[8:0]`. -/
def idxField (w : Word) : Idx := w.extractLsb' 0 9

/-! ### One decoder for each format -/

/-- Format N: `ARG[11:0]` must be 0 (R61). -/
def decodeN (i : Instr) (w : Word) : Except Illegal Instr :=
  if argField w = 0 then .ok i else .error .mustBeZero

/-- Format S: `ARG[11:8]` must be 0 (R62). -/
def decodeS (f : Sym → Instr) (w : Word) : Except Illegal Instr :=
  if w.extractLsb' 8 4 = 0 then .ok (f (symField w)) else .error .mustBeZero

/-- Format B: `ARG[11:1]` must be 0 (R63). -/
def decodeB (f : Digit → Instr) (w : Word) : Except Illegal Instr :=
  if w.extractLsb' 1 11 = 0 then .ok (f (bitField w)) else .error .mustBeZero

/-- Format R: `ARG[11:4]` must be 0 and `reg` must be 0 to 11 (R64). -/
def decodeR (f : BitVec 4 → Instr) (w : Word) : Except Illegal Instr :=
  if w.extractLsb' 4 8 = 0 then
    if regExists (regField w) then .ok (f (regField w)) else .error .reservedRegister
  else .error .mustBeZero

/-- Format X: `ARG[11:9]` must be 0 (R65). -/
def decodeX (f : Idx → Instr) (w : Word) : Except Illegal Instr :=
  if w.extractLsb' 9 3 = 0 then .ok (f (idxField w)) else .error .mustBeZero

/-- The command a word stands for, or why it is illegal, by the order of R70. -/
def decode (w : Word) : Except Illegal Instr :=
  match (opField w).toNat with
  | 0x1 => decodeN .clr w
  | 0x2 => decodeS .cnt w
  | 0x3 => decodeN .bld w
  | 0x4 => decodeN .gen w
  | 0x5 => decodeN .ebeg w
  | 0x6 => decodeS .enc w
  | 0x7 => decodeN .dbeg w
  | 0x8 => decodeB .dec w
  | 0x9 => decodeN .dend w
  | 0xA => decodeR .rdr w
  | 0xB => decodeS .rdf w
  | 0xC => decodeS .rdc w
  | 0xD => decodeX .rdn w
  | 0xE => decodeN .lst w
  | _ => .error .reservedOpcode

/-! ### The encoder -/

/-- The word of a format N command. -/
def wordN (op : BitVec 4) : Word := op ++ (0 : BitVec 12)

/-- The word of a format S command. -/
def wordS (op : BitVec 4) (sym : Sym) : Word := (op ++ (0 : BitVec 4)) ++ sym

/-- The word of a format B command. -/
def wordB (op : BitVec 4) (bit : Digit) : Word := (op ++ (0 : BitVec 11)) ++ BitVec.ofBool bit

/-- The word of a format R command. -/
def wordR (op : BitVec 4) (reg : BitVec 4) : Word := (op ++ (0 : BitVec 8)) ++ reg

/-- The word of a format X command. -/
def wordX (op : BitVec 4) (idx : Idx) : Word := (op ++ (0 : BitVec 3)) ++ idx

/-- The one word of a command (R67, R70). An ill-formed `rdr` gets the illegal word that carries its number. -/
def encode : Instr → Word
  | .clr => wordN 0x1
  | .cnt sym => wordS 0x2 sym
  | .bld => wordN 0x3
  | .gen => wordN 0x4
  | .ebeg => wordN 0x5
  | .enc sym => wordS 0x6 sym
  | .dbeg => wordN 0x7
  | .dec bit => wordB 0x8 bit
  | .dend => wordN 0x9
  | .rdr reg => wordR 0xA reg
  | .rdf sym => wordS 0xB sym
  | .rdc sym => wordS 0xC sym
  | .rdn idx => wordX 0xD idx
  | .lst => wordN 0xE

/-! ### The opcode map as data (R67) -/

/-- One row of the opcode map: a word `w` is the command when `(w &&& mask) = match`. -/
structure OpcodeRow where
  mnemonic : String
  pattern : Word
  mask : Word
  deriving DecidableEq, Repr

/-- The row of a command in the table of R67. -/
def opcodeRow : Instr → OpcodeRow
  | .clr => ⟨"CLR", 0x1000, 0xFFFF⟩
  | .cnt _ => ⟨"CNT", 0x2000, 0xFF00⟩
  | .bld => ⟨"BLD", 0x3000, 0xFFFF⟩
  | .gen => ⟨"GEN", 0x4000, 0xFFFF⟩
  | .ebeg => ⟨"EBEG", 0x5000, 0xFFFF⟩
  | .enc _ => ⟨"ENC", 0x6000, 0xFF00⟩
  | .dbeg => ⟨"DBEG", 0x7000, 0xFFFF⟩
  | .dec _ => ⟨"DEC", 0x8000, 0xFFFE⟩
  | .dend => ⟨"DEND", 0x9000, 0xFFFF⟩
  | .rdr _ => ⟨"RDR", 0xA000, 0xFFF0⟩
  | .rdf _ => ⟨"RDF", 0xB000, 0xFF00⟩
  | .rdc _ => ⟨"RDC", 0xC000, 0xFF00⟩
  | .rdn _ => ⟨"RDN", 0xD000, 0xFE00⟩
  | .lst => ⟨"LST", 0xE000, 0xFFFF⟩

/-- The fourteen rows, in the table's order. -/
def opcodeTable : List OpcodeRow :=
  [.clr, .cnt 0, .bld, .gen, .ebeg, .enc 0, .dbeg, .dec false, .dend, .rdr 0, .rdf 0, .rdc 0, .rdn 0, .lst].map
    opcodeRow

/-- `w` is a word of the row: its mask and match hold, and for RDR also `w[3:0] ≤ 11` (R67). -/
def OpcodeRow.admits (r : OpcodeRow) (w : Word) : Bool :=
  decide (w &&& r.mask = r.pattern) && (decide (r.mnemonic ≠ "RDR") || regExists (regField w))

/-! ### The host's numbering of table words -/

/-- The command word of a table row whose `nbits` low bits are `w`; the bits above are 0. A command is one 16-bit
word, so the word's bits are the table's bits. -/
def tableWord (nbits w : Nat) : Word := BitVec.ofNat 16 (w % 2 ^ nbits)

/-- The command the decoder reads from an opcode-table word; none where it is illegal, or longer than a command is. -/
def decodeTableWord (nbits w : Nat) : Option Instr :=
  if nbits ≤ 16 then
    match decode (tableWord nbits w) with
    | .ok i => some i
    | .error _ => none
  else none

/-! ### Pseudo-instructions (R72): plain repetitions -/

/-- `CNTS`: one CNT for each byte, in order. -/
def expandCnts (bytes : List Sym) : List Instr := bytes.map .cnt

/-- `ENCS`: one ENC for each byte, in order. -/
def expandEncs (bytes : List Sym) : List Instr := bytes.map .enc

/-- `DECS`: one DEC for each digit, in order. -/
def expandDecs (digits : List Digit) : List Instr := digits.map .dec

end Sys2Proof
end

