-- ==== Sys2Proof/Machine/State.lean ====
section
/-! DEFINITION. The complete state of one block (spec/10_state.md R10), as plain data, and its value after reset (R28).
Two fields are the model's own: `input`, what the host presents next, and `ports`, what has left the block. -/

namespace Sys2Proof.Machine

/-- PHASE (R11): how far the session has got. The 2-bit value 3 never occurs (R11, I5). -/
inductive Phase where
  /-- The frequency table is being accumulated. -/
  | count
  /-- The tree exists, or the alphabet was empty. -/
  | built
  /-- The code table exists. -/
  | coded
  deriving DecidableEq, Repr

/-- ERR (R13, R186): the first error since CLR or reset. The 4-bit values 6 to 15 never occur (R13, I5). -/
inductive ErrCode where
  /-- 0: no error. -/
  | none
  /-- 1, E_ILLEGAL. -/
  | illegal
  /-- 2, E_SEQUENCE. -/
  | sequence
  /-- 3, E_OVERFLOW. -/
  | overflow
  /-- 4, E_MISSING_CODE. -/
  | missingCode
  /-- 5, E_MALFORMED. -/
  | malformed
  deriving DecidableEq, Repr

/-- One entry of NODE, a record of 60 bits (R23). -/
structure Node where
  valid : Bool
  leaf : Bool
  sym : Sym
  weight : Count
  left : Idx
  right : Idx
  deriving DecidableEq, Repr

/-- The all-zero record of NODE (R23). -/
def Node.zero : Node := ⟨false, false, 0, 0, 0, 0⟩

/-- One entry of CODE, a record of 266 bits (R24). -/
structure Code where
  valid : Bool
  len : Len
  bits : Digits
  deriving DecidableEq, Repr

/-- The all-zero record of CODE (R24). -/
def Code.zero : Code := ⟨false, 0, 0⟩

/-- One listing record, the triple (SYM, LEN, BITS) (R76). -/
structure ListRecord where
  sym : Sym
  len : Len
  bits : Digits
  deriving DecidableEq, Repr

/-- What the host presents: a word on the `cmd` port, or an assertion of `rst` (R216, R220). -/
inductive HostInput where
  | cmd (w : Word)
  | rst
  deriving DecidableEq, Repr

/-- One output event on one of the four output ports (R27, R216). -/
inductive PortEvent where
  | rsp (w : Response)
  | enc (bit : Digit)
  | dec (sym : Sym)
  | lst (r : ListRecord)
  deriving DecidableEq, Repr

/-- The complete state of one block (R10). A table is the list of its entries that are not all-zero, each with its
index, indices rising; an index that is not listed reads as the all-zero entry, the reset value (R28). -/
structure State where
  /-- PHASE (R11). -/
  phase : Phase
  /-- EMPTY (R12). -/
  empty : Bool
  /-- SINGLE (R12). -/
  single : Bool
  /-- DDONE (R12). -/
  ddone : Bool
  /-- ERR (R13). -/
  err : ErrCode
  /-- ERR_SYM (R14). -/
  errSym : Sym
  /-- ERR_POS (R14). -/
  errPos : Pos
  /-- ERR_CMD (R14). -/
  errCmd : Word
  /-- TOTAL (R15). -/
  total : Count
  /-- NSYM (R15). -/
  nsym : BitVec 9
  /-- ROOT (R16). -/
  root : Idx
  /-- NINT (R16). -/
  nint : BitVec 9
  /-- EPOS (R17). -/
  epos : Pos
  /-- DPOS (R17). -/
  dpos : Pos
  /-- DCUR (R18). -/
  dcur : Idx
  /-- FREQ[0..255] (R22). -/
  freq : List (Nat × Count)
  /-- NODE[0..510] (R23). -/
  node : List (Nat × Node)
  /-- CODE[0..255] (R24). -/
  code : List (Nat × Code)
  /-- EOUT, the log of `enc` (R27). -/
  eout : List Digit
  /-- DOUT, the log of `dec` (R27). -/
  dout : List Sym
  /-- LOUT, the log of `lst` (R27). -/
  lout : List ListRecord
  /-- RSP, the most recent response word (R27). -/
  rsp : Option Response
  /-- The model's own: what the host presents next, the first element first (DESIGN CHOICE, log entry 1). -/
  input : List HostInput
  /-- The model's own: every output event so far, oldest first (DESIGN CHOICE, log entry 3). -/
  ports : List PortEvent
  deriving DecidableEq, Repr

/-- Every piece of state at the value the table of R28 gives it; nothing presented, nothing emitted. -/
def State.reset : State where
  phase := .count
  empty := false
  single := false
  ddone := false
  err := .none
  errSym := 0
  errPos := 0
  errCmd := 0
  total := 0
  nsym := 0
  root := Config.nil
  nint := 0
  epos := 0
  dpos := 0
  dcur := Config.nil
  freq := []
  node := []
  code := []
  eout := []
  dout := []
  lout := []
  rsp := none
  input := []
  ports := []

/-- Why the machine stops. The block itself never does (R5, R224): every fault is raised only at states that the
invariants R29 to R32 rule out, where the spec gives the command no meaning. -/
inductive Fault where
  /-- DEC, at ROOT ≠ NIL and DCUR = NIL: it would read NODE[511], which is not an entry (R23, R41). Safe: the model
  stops where the spec says nothing; R32 rules the state out (log entry 6). -/
  | nodeNil
  /-- GEN, when the walk would take a path of more than 255 digits, or never end. Safe: R109 says no path is longer
  (log entry 7). -/
  | walkTooDeep
  /-- BLD, when NSYM is not the number of symbols with FREQ ≥ 1, which R103 to R105 take it to be. Safe: R29 rules the
  state out (log entry 8). -/
  | alphabetCount
  deriving DecidableEq, Repr

/-- Why an instruction has no meaning in the model. -/
inductive Refusal where
  /-- An arm of `exec` without a meaning yet. Safe: the model stops. No arm raises it now. -/
  | notModelled (mnemonic : String)
  deriving DecidableEq, Repr

/-- The outcome of one command. -/
abbrev Result := Host.Outcome State Fault Refusal

end Sys2Proof.Machine
end

