-- ==== Sys2Proof/Machine/Flags.lean ====
section
/-! DEFINITION. The flags and status values the block computes: register encodings of PHASE and ERR, FAULT and the
`err` line, STATUS, and the legality table. There are no arithmetic condition codes (spec/10_state.md R12). -/

namespace Sys2Proof.Machine

/-- PHASE as its 2-bit register value (R11). -/
def Phase.bits : Phase → BitVec 2
  | .count => 0
  | .built => 1
  | .coded => 2

/-- ERR as its 4-bit register value (R13, R186). -/
def ErrCode.bits : ErrCode → BitVec 4
  | .none => 0
  | .illegal => 1
  | .sequence => 2
  | .overflow => 3
  | .missingCode => 4
  | .malformed => 5

/-- Faulted: ERR ≠ 0 (R191). It is STATUS bit 5, FAULT (R21). -/
def State.faulted (s : State) : Bool := decide (s.err ≠ .none)

/-- The `err` line, a level that is 1 exactly while ERR ≠ 0 (R200). -/
def State.errLine (s : State) : Bool := decide (s.err.bits ≠ 0)

/-- STATUS, composed on read: [1:0] PHASE, [2] EMPTY, [3] SINGLE, [4] DDONE, [5] FAULT (R21). -/
def State.status (s : State) : BitVec 6 :=
  ((((BitVec.ofBool s.faulted ++ BitVec.ofBool s.ddone) ++ BitVec.ofBool s.single) ++ BitVec.ofBool s.empty)
    ++ s.phase.bits)

/-- `sat64(v) = min(v, 2^64 − 1)` (R8). -/
def sat64 (v : Nat) : Pos := BitVec.ofNat 64 (min v (2 ^ 64 - 1))

/-- Which phase admits a command (R82); the further condition on DDONE is `ddoneAdmits`. -/
def phaseAdmits : Instr → Phase → Bool
  | .clr, _ => true
  | .cnt _, p => decide (p = .count)
  | .bld, p => decide (p = .count)
  | .gen, p => decide (p = .built)
  | .ebeg, p => decide (p = .coded)
  | .enc _, p => decide (p = .coded)
  | .dbeg, p => decide (p ≠ .count)
  | .dec _, p => decide (p ≠ .count)
  | .dend, p => decide (p ≠ .count)
  | .rdr _, _ => true
  | .rdf _, _ => true
  | .rdc _, _ => true
  | .rdn _, _ => true
  | .lst, p => decide (p = .coded)

/-- The column "further condition" of R82: DEC and DEND are out of sequence when DDONE = 1. -/
def ddoneAdmits : Instr → Bool → Bool
  | .clr, _ => true
  | .cnt _, _ => true
  | .bld, _ => true
  | .gen, _ => true
  | .ebeg, _ => true
  | .enc _, _ => true
  | .dbeg, _ => true
  | .dec _, d => !d
  | .dend, d => !d
  | .rdr _, _ => true
  | .rdf _, _ => true
  | .rdc _, _ => true
  | .rdn _, _ => true
  | .lst, _ => true

/-- The legality table of R82: "ok" is true, "SEQ" is false. -/
def legal (i : Instr) (s : State) : Bool := phaseAdmits i s.phase && ddoneAdmits i s.ddone

end Sys2Proof.Machine
end

