-- ==== Sys2Proof/Machine/Ops.lean ====
section
/-! DEFINITION. The named operations over the block's state: table access, output streams, the error latch (the
block's exception entry, spec/60_exceptions.md R190), CLR and reset (its only return, R198), the order of checks
(R196), and taking what the host presents. -/

namespace Sys2Proof.Machine

/-! ### Tables (R40, R46): whole entries by index -/

/-- The entry at `k`: the first one listed, the all-zero entry `z` when none is. -/
def Table.read {α : Type} (z : α) : List (Nat × α) → Nat → α
  | [], _ => z
  | (j, v) :: t, k => if j = k then v else Table.read z t k

/-- List the entry `v` at `k`, before the first larger index. -/
def Table.put {α : Type} : List (Nat × α) → Nat → α → List (Nat × α)
  | [], k, v => [(k, v)]
  | (j, u) :: t, k, v => if k < j then (k, v) :: (j, u) :: t else (j, u) :: Table.put t k v

/-- No entry at `k` any more. -/
def Table.drop {α : Type} (t : List (Nat × α)) (k : Nat) : List (Nat × α) := t.filter (fun e => decide (e.1 ≠ k))

/-- Replace the entry at `k` by `v`. The all-zero entry is never listed. -/
def Table.write {α : Type} [DecidableEq α] (z : α) (t : List (Nat × α)) (k : Nat) (v : α) : List (Nat × α) :=
  if v = z then Table.drop t k else Table.put (Table.drop t k) k v

/-- The canonical form of a table of `size` entries: indices strictly rising and below `size`, no all-zero entry. -/
def Table.wf {α : Type} [DecidableEq α] (z : α) (size : Nat) (t : List (Nat × α)) : Bool :=
  decide (t.Pairwise (fun a b => a.1 < b.1)) && t.all (fun e => decide (e.1 < size) && decide (e.2 ≠ z))

/-- The three tables are in canonical form, so equal tables are equal data. -/
def Memory.wf (s : State) : Bool :=
  Table.wf 0#32 Config.nSym s.freq && Table.wf Node.zero Config.nNode s.node && Table.wf Code.zero Config.nSym s.code

/-- `FREQ[k]` (R22). -/
def State.freqAt (s : State) (k : Nat) : Count := Table.read 0#32 s.freq k

/-- `NODE[k]` (R23). -/
def State.nodeAt (s : State) (k : Nat) : Node := Table.read Node.zero s.node k

/-- `CODE[k]` (R24). -/
def State.codeAt (s : State) (k : Nat) : Code := Table.read Code.zero s.code k

/-! ### Output streams (R27): one event on a port and in its log -/

/-- `emit enc(bit)`. -/
def State.emitEnc (s : State) (bit : Digit) : State :=
  { s with eout := s.eout ++ [bit], ports := s.ports ++ [.enc bit] }

/-- `emit dec(sym)`. -/
def State.emitDec (s : State) (sym : Sym) : State :=
  { s with dout := s.dout ++ [sym], ports := s.ports ++ [.dec sym] }

/-- `emit lst(r)`. -/
def State.emitLst (s : State) (r : ListRecord) : State :=
  { s with lout := s.lout ++ [r], ports := s.ports ++ [.lst r] }

/-- `emit rsp(w)`. -/
def State.emitRsp (s : State) (w : Response) : State :=
  { s with rsp := some w, ports := s.ports ++ [.rsp w] }

/-- Emit digits on `enc` one after the other, the first first (R52). -/
def State.emitEncs (s : State) (bits : List Digit) : State := bits.foldl State.emitEnc s

/-- Emit records on `lst` one after the other. -/
def State.emitLsts (s : State) (rs : List ListRecord) : State := rs.foldl State.emitLst s

/-! ### The error latch, and the way out of it -/

/-- `raise E(sym, pos)` in a command with word `cmd`: the error latch, and nothing else (R190). -/
def State.raise (s : State) (e : ErrCode) (sym : Sym) (pos : Pos) (cmd : Word) : State :=
  { s with err := e, errSym := sym, errPos := pos, errCmd := cmd }

/-- Every piece of the block's state at its reset value (R28, R81). What the host still presents and what has already
left the ports are outside the block and stay (log entries 1 and 3). -/
def State.clear (s : State) : State := { State.reset with input := s.input, ports := s.ports }

/-- The reset pin, which has exactly the effect of CLR (R215). -/
def State.resetPin (s : State) : State := s.clear

/-! ### The order of checks for one word (R196) -/

/-- An illegal word: refused while faulted (R192), E_ILLEGAL otherwise (R187). -/
def illegalWord (w : Word) (s : State) : Result :=
  if s.faulted then .next s else .next (s.raise .illegal 0 0 w)

/-- A command that a faulted block refuses (R192) and the legality table governs (R82, R188); `run` is its own rule.
Refused means: no state changes (R192), so it is a next state. -/
def gate (i : Instr) (s : State) (run : Result) : Result :=
  if s.faulted then .next s
  else if legal i s then run
  else .next (s.raise .sequence 0 0 (encode i))

/-! ### What the host presents -/

/-- Take the next thing the host presents, if there is one. -/
def State.takeInput (s : State) : Option (HostInput × State) :=
  match s.input with
  | [] => none
  | x :: rest => some (x, { s with input := rest })

/-- Let the host present a word before anything it already presents. -/
def State.present (s : State) (w : Word) : State := { s with input := .cmd w :: s.input }

end Sys2Proof.Machine
end

