-- ==== Sys2Proof/Machine/Operands.lean ====
section
/-! DEFINITION. What an operand selects: a node index, a child, the digits of a code, a read-back register
(spec/10_state.md R21), and the words in which a read-back or a listing answers (spec/30_encoding.md R73 to R76). -/

namespace Sys2Proof.Machine

/-! ### Direct indices (R41) -/

/-- The node a 9-bit index selects; index 511, NIL, is not an entry (R23, R41). -/
def State.nodeOf (s : State) (i : Idx) : Option Node :=
  if i = Config.nil then none else some (s.nodeAt i.toNat)

/-- The child a digit selects: 0 → left, 1 → right (R44, R152). -/
def Node.child (n : Node) (bit : Digit) : Idx := if bit then n.right else n.left

/-! ### Codes as digit sequences (R24, R123) -/

/-- `code(s) = [BITS[0], ..., BITS[LEN−1]]` (R24). -/
def Code.digits (c : Code) : List Digit := (List.range c.len.toNat).map (fun i => c.bits.getLsbD i)

/-- `pack(path)`: bit `i` is `path[i]`, every other bit 0 (R123). -/
def pack (path : List Digit) : Digits := (BitVec.ofBoolListLE path).setWidth 256

/-- The CODE entry of a path: `{VALID = 1, LEN = |path|, BITS = pack(path)}` (R121). -/
def codeOfPath (path : List Digit) : Code := ⟨true, BitVec.ofNat 9 path.length, pack path⟩

/-! ### The read-back registers (R21) -/

/-- `x[reg]`, zero-extended to 64 bits; none for the reserved numbers 12 to 15. -/
def State.register (s : State) (reg : BitVec 4) : Option (BitVec 64) :=
  match reg.toNat with
  | 0 => some (s.status.setWidth 64)
  | 1 => some (s.err.bits.setWidth 64)
  | 2 => some (s.errSym.setWidth 64)
  | 3 => some s.errPos
  | 4 => some (s.errCmd.setWidth 64)
  | 5 => some (s.total.setWidth 64)
  | 6 => some (s.nsym.setWidth 64)
  | 7 => some (s.root.setWidth 64)
  | 8 => some (s.nint.setWidth 64)
  | 9 => some s.epos
  | 10 => some s.dpos
  | 11 => some (s.dcur.setWidth 64)
  | _ => none

/-! ### Response words and the listing word -/

/-- Scalar response: the value in [63:0], [271:64] zero (R73). -/
def scalarResponse (v : BitVec 64) : Response := v.setWidth 272

/-- Node response: [0] VALID, [1] LEAF, [9:2] SYM, [18:10] LEFT, [27:19] RIGHT, [31:28] zero, [63:32] WEIGHT,
[271:64] zero (R74). -/
def nodeResponse (n : Node) : Response :=
  (0 : BitVec 208) ++ (n.weight ++ ((0 : BitVec 4) ++ (n.right ++ (n.left ++ (n.sym ++
    (BitVec.ofBool n.leaf ++ BitVec.ofBool n.valid))))))

/-- Code response: [0] VALID, [9:1] LEN, [15:10] zero, [271:16] BITS (R75). -/
def codeResponse (c : Code) : Response :=
  c.bits ++ ((0 : BitVec 6) ++ (c.len ++ BitVec.ofBool c.valid))

/-- A listing record as one word: [7:0] SYM, [16:8] LEN, [272:17] BITS (R76). -/
def ListRecord.word (r : ListRecord) : ListWord := r.bits ++ (r.len ++ r.sym)

end Sys2Proof.Machine
end

