-- ==== Sys2Proof/Machine/CodeTable.lean ====
section
/-! DEFINITION. Unit huffman_code_table_generator (spec/43_code_table_generator.md): GEN and LST. -/

namespace Sys2Proof.Machine

/-- `walk(i, path)` of R121, adding to the code table; `depth` bounds the edges still allowed, and none means that the
walk would go deeper (R109, log entry 7). -/
def walk (nodes : List (Nat × Node)) : Nat → Idx → List Digit → List (Nat × Code) → Option (List (Nat × Code))
  | 0, i, path, codes =>
    if i = Config.nil then some codes
    else
      let n := Table.read Node.zero nodes i.toNat
      if n.leaf then some (Table.write Code.zero codes n.sym.toNat (codeOfPath path)) else none
  | depth + 1, i, path, codes =>
    if i = Config.nil then some codes
    else
      let n := Table.read Node.zero nodes i.toNat
      if n.leaf then some (Table.write Code.zero codes n.sym.toNat (codeOfPath path))
      else
        match walk nodes depth n.left (path ++ [false]) codes with
        | none => none
        | some codes' => walk nodes depth n.right (path ++ [true]) codes'

/-- The encoder made ready: the last act of GEN (R121) and the whole of EBEG (R136). -/
def State.startEncoder (s : State) : State := { s with epos := 0, eout := [] }

/-- The CODE table GEN derives: nothing where there is no tree, else what the walk from ROOT leaves (R121). -/
def deriveCodes (s : State) : Option (List (Nat × Code)) := walk s.node Config.maxDepth s.root [] []

/-- GEN: derive the code table and make the encoder ready; no error but E_SEQUENCE (R121). -/
def execGen (s : State) : Result :=
  gate .gen s
    (match deriveCodes s with
     | none => .fault .walkTooDeep
     | some codes => .next { s with code := codes, phase := .coded }.startEncoder)

/-- The listing: one record for each symbol that has a code, symbols ascending (R125). -/
def listing (s : State) : List ListRecord :=
  (List.range Config.nSym).filterMap (fun k =>
    let c := s.codeAt k
    if c.valid then some ⟨BitVec.ofNat 8 k, c.len, c.bits⟩ else none)

/-- LST: replace LOUT by the listing, one `lst` event for each record (R125). -/
def execLst (s : State) : Result := gate .lst s (.next ({ s with lout := [] }.emitLsts (listing s)))

end Sys2Proof.Machine
end

