-- ==== Sys2Proof/Machine/TreeBuilder.lean ====
section
/-! DEFINITION. Unit huffman_tree_builder (spec/42_tree_builder.md): BLD. -/

namespace Sys2Proof.Machine

/-- The alphabet of a frequency table: the symbols with `FREQ[s] ≥ 1`, ascending (R102). -/
def symbols (freq : List (Nat × Count)) : List Nat :=
  (List.range Config.nSym).filter (fun k => decide (Table.read 0#32 freq k ≠ 0))

/-- The leaf of symbol `k` with its frequency (R102). -/
def leafNode (k : Nat) (weight : Count) : Node :=
  ⟨true, true, BitVec.ofNat 8 k, weight, Config.nil, Config.nil⟩

/-- The internal node over two children; the first is the left one (R105, R107). -/
def internalNode (left right : Idx) (weight : Count) : Node := ⟨true, false, 0, weight, left, right⟩

/-- The table that holds the leaf of every symbol and nothing else (R101, R102). -/
def leaves (freq : List (Nat × Count)) : List (Nat × Node) :=
  (symbols freq).foldl (fun t k => Table.write Node.zero t k (leafNode k (Table.read 0#32 freq k))) []

/-- The weight of an entry. -/
def weightAt (nodes : List (Nat × Node)) (i : Nat) : Count := (Table.read Node.zero nodes i).weight

/-- `(NODE[i].WEIGHT, i)` comes before `(NODE[j].WEIGHT, j)` in lexicographic order (R106). -/
def lighter (nodes : List (Nat × Node)) (i j : Nat) : Bool :=
  decide (weightAt nodes i < weightAt nodes j) ||
    (decide (weightAt nodes i = weightAt nodes j) && decide (i < j))

/-- The element of `i :: rest` that comes first. -/
def lightest (nodes : List (Nat × Node)) (i : Nat) (rest : List Nat) : Nat :=
  rest.foldl (fun m j => if lighter nodes j m then j else m) i

/-- `extract_min(A)`: the element that comes first, and the set without it; none from the empty set (R106). -/
def extractMin (nodes : List (Nat × Node)) : List Nat → Option (Nat × List Nat)
  | [] => none
  | i :: rest =>
    let m := lightest nodes i rest
    some (m, (i :: rest).erase m)

/-- One pass of the merge loop on the active set `A`, whose new node gets index `k`; none when `|A| < 2` (R105). -/
def mergeStep (nodes : List (Nat × Node)) (k : Nat) (A : List Nat) : Option (List (Nat × Node) × List Nat) :=
  match extractMin nodes A with
  | none => none
  | some (x, A1) =>
    match extractMin nodes A1 with
    | none => none
    | some (y, A2) =>
      some (Table.write Node.zero nodes k
          (internalNode (BitVec.ofNat 9 x) (BitVec.ofNat 9 y) (weightAt nodes x + weightAt nodes y)),
        k :: A2)

/-- The merge loop, `passes` passes at most (R105). -/
def mergeLoop : Nat → List (Nat × Node) → Nat → List Nat → List (Nat × Node)
  | 0, nodes, _, _ => nodes
  | passes + 1, nodes, k, A =>
    match mergeStep nodes k A with
    | none => nodes
    | some (nodes', A') => mergeLoop passes nodes' (k + 1) A'

/-- The table with the synthetic root of a one-symbol alphabet: LEFT the leaf, RIGHT NIL (R104). -/
def syntheticRoot (freq : List (Nat × Count)) (k : Nat) : List (Nat × Node) :=
  Table.write Node.zero (leaves freq) Config.firstInternal
    (internalNode (BitVec.ofNat 9 k) Config.nil (Table.read 0#32 freq k))

/-- The whole NODE table that BLD leaves; it depends on FREQ alone (R101 to R107, R111). -/
def buildNodes (freq : List (Nat × Count)) : List (Nat × Node) :=
  match symbols freq with
  | [] => leaves freq
  | [k] => syntheticRoot freq k
  | k :: l :: rest => mergeLoop (rest.length + 1) (leaves freq) Config.firstInternal (k :: l :: rest)

/-- ROOT after BLD on an alphabet of `n` symbols (R103, R104, R105). -/
def rootOf (n : Nat) : Idx :=
  if n = 0 then Config.nil else if n = 1 then 256 else BitVec.ofNat 9 (254 + n)

/-- NINT after BLD on an alphabet of `n` symbols (R103, R104, R105). -/
def internalCount (n : Nat) : BitVec 9 := if n = 1 then 1 else BitVec.ofNat 9 (n - 1)

/-- The decoder made ready: the last act of BLD (R112) and the whole of DBEG (R151). -/
def State.startDecoder (s : State) : State := { s with dcur := s.root, dpos := 0, dout := [], ddone := false }

/-- The state after BLD has built the tree (R101). EMPTY and SINGLE are only set, never cleared. -/
def State.buildTree (s : State) : State :=
  { s with
    node := buildNodes s.freq
    root := rootOf s.nsym.toNat
    nint := internalCount s.nsym.toNat
    empty := s.empty || decide (s.nsym = 0)
    single := s.single || decide (s.nsym = 1)
    phase := .built }

/-- BLD: build the tree and make the decoder ready; no error but E_SEQUENCE (R101). Where NSYM is not the number of
symbols, which R29 rules out, R103 to R105 say nothing and the model faults (log entry 8). -/
def execBld (s : State) : Result :=
  gate .bld s
    (if s.nsym.toNat = (symbols s.freq).length then .next s.buildTree.startDecoder else .fault .alphabetCount)

end Sys2Proof.Machine
end

