-- ==== Sys2Proof/Machine/Decoder.lean ====
section
/-! DEFINITION. Unit huffman_decoder (spec/45_decoder.md): DBEG, DEC and DEND. -/

namespace Sys2Proof.Machine

/-- DBEG: start, or restart, a decode, whatever DDONE is (R151). -/
def execDbeg (s : State) : Result := gate .dbeg s (.next s.startDecoder)

/-- A malformed stream at `i`, with the bit position DPOS as context (R154). -/
def State.malformed (s : State) (i : Instr) : State := s.raise .malformed 0 s.dpos (encode i)

/-- The step of the walk to the node `n` at index `i`: emit a leaf's symbol and restart at the root, else move (R152). -/
def State.walkTo (s : State) (i : Idx) (n : Node) : State :=
  if n.leaf then { (s.emitDec n.sym) with dpos := sat64 (s.dpos.toNat + 1), dcur := s.root }
  else { s with dpos := sat64 (s.dpos.toNat + 1), dcur := i }

/-- DEC bit: consume one bit. E_MALFORMED where there is no tree (case (a)) or no such child (case (b)) (R152, R154).
Where DCUR is NIL though there is a tree, which R32 rules out, `NODE[DCUR]` is no entry and the model faults (log
entry 6). -/
def execDec (bit : Digit) (s : State) : Result :=
  gate (.dec bit) s
    (if s.root = Config.nil then .next (s.malformed (.dec bit))
     else
       match s.nodeOf s.dcur with
       | none => .fault .nodeNil
       | some n =>
         match s.nodeOf (n.child bit) with
         | none => .next (s.malformed (.dec bit))
         | some m => .next (s.walkTo (n.child bit) m))

/-- DEND: the stream has ended. E_MALFORMED where the walk is not at a leaf boundary (case (c)), else DDONE (R153). -/
def execDend (s : State) : Result :=
  gate .dend s (if s.dcur = s.root then .next { s with ddone := true } else .next (s.malformed .dend))

end Sys2Proof.Machine
end

