-- ==== Sys2Proof/Machine/Encoder.lean ====
section
/-! DEFINITION. Unit huffman_encoder (spec/44_encoder.md): EBEG and ENC. -/

namespace Sys2Proof.Machine

/-- EBEG: start, or restart, the encoded stream (R136). -/
def execEbeg (s : State) : Result := gate .ebeg s (.next s.startEncoder)

/-- ENC sym: E_MISSING_CODE(sym, EPOS) where the symbol has no code, else emit its digits, digit 0 first, and count
the byte with saturation (R137, R138). -/
def execEnc (sym : Sym) (s : State) : Result :=
  gate (.enc sym) s
    (let c := s.codeAt sym.toNat
     if c.valid then .next { s.emitEncs c.digits with epos := sat64 (s.epos.toNat + 1) }
     else .next (s.raise .missingCode sym s.epos (encode (.enc sym))))

end Sys2Proof.Machine
end

