-- ==== Sys2Proof/Machine/FrequencyCounter.lean ====
section
/-! DEFINITION. Unit frequency_counter (spec/41_frequency_counter.md): CNT. -/

namespace Sys2Proof.Machine

/-- One occurrence of `sym` counted (R91). The additions do not wrap where R29 holds (R92; log entry 9). -/
def State.countSym (s : State) (sym : Sym) : State :=
  { s with
    nsym := if s.freqAt sym.toNat = 0 then s.nsym + 1 else s.nsym
    freq := Table.write 0#32 s.freq sym.toNat (s.freqAt sym.toNat + 1)
    total := s.total + 1 }

/-- CNT sym: E_OVERFLOW when TOTAL is 2^32 − 1, else count the byte (R91). -/
def execCnt (sym : Sym) (s : State) : Result :=
  gate (.cnt sym) s
    (if s.total = Config.cntMax then .next (s.raise .overflow 0 0 (encode (.cnt sym)))
     else .next (s.countSym sym))

end Sys2Proof.Machine
end

