-- ==== Sys2Proof/Machine/ReadBack.lean ====
section
/-! DEFINITION. The read-back commands (spec/46_readback.md): RDR, RDF, RDC and RDN. Legal in every phase and while
faulted (R175), they change nothing but RSP and emit one `rsp` event (R170). -/

namespace Sys2Proof.Machine

/-- RDR reg: read a register. Numbers 12 to 15 are no registers: such a word is illegal (R171, R68; log entry 11). -/
def execRdr (reg : BitVec 4) (s : State) : Result :=
  match s.register reg with
  | some v => .next (s.emitRsp (scalarResponse v))
  | none => illegalWord (encode (.rdr reg)) s

/-- RDF sym: read a frequency; a symbol not in the alphabet reads 0 (R172). -/
def execRdf (sym : Sym) (s : State) : Result :=
  .next (s.emitRsp (scalarResponse ((s.freqAt sym.toNat).setWidth 64)))

/-- RDC sym: read a code; a symbol without a code reads all zero (R173). -/
def execRdc (sym : Sym) (s : State) : Result := .next (s.emitRsp (codeResponse (s.codeAt sym.toNat)))

/-- RDN idx: read a tree node; index 511, which is no entry, reads all zero (R174). -/
def execRdn (idx : Idx) (s : State) : Result :=
  match s.nodeOf idx with
  | some n => .next (s.emitRsp (nodeResponse n))
  | none => .next (s.emitRsp 0)

end Sys2Proof.Machine
end

