-- ==== Sys2Proof/Machine/Session.lean ====
section
/-! DEFINITION. Session control (spec/40_session.md): CLR. -/

namespace Sys2Proof.Machine

/-- CLR: every piece of state to its reset value; legal always, faulted or not; raises nothing (R81). -/
def execClr (s : State) : Result := .next s.clear

end Sys2Proof.Machine
end

