-- ==== Sys2Proof/Machine/Dispatch.lean ====
section
/-! DEFINITION. The one dispatch from a command to its meaning. -/

namespace Sys2Proof.Machine

def exec (i : Instr) (s : State) : Host.Outcome State Fault Refusal :=
  match i with
  | .clr => Sys2Proof.Machine.execClr s
  | .cnt sym => Sys2Proof.Machine.execCnt sym s
  | .bld => Sys2Proof.Machine.execBld s
  | .gen => Sys2Proof.Machine.execGen s
  | .ebeg => Sys2Proof.Machine.execEbeg s
  | .enc sym => Sys2Proof.Machine.execEnc sym s
  | .dbeg => Sys2Proof.Machine.execDbeg s
  | .dec bit => Sys2Proof.Machine.execDec bit s
  | .dend => Sys2Proof.Machine.execDend s
  | .rdr reg => Sys2Proof.Machine.execRdr reg s
  | .rdf sym => Sys2Proof.Machine.execRdf sym s
  | .rdc sym => Sys2Proof.Machine.execRdc sym s
  | .rdn idx => Sys2Proof.Machine.execRdn idx s
  | .lst => Sys2Proof.Machine.execLst s

end Sys2Proof.Machine
end

