-- ==== Sys2Proof/Machine/Step.lean ====
section
/-! DEFINITION. One step: what the host presents next, taken whole (spec/00_scope.md R5, spec/20_memory.md R49). -/

namespace Sys2Proof.Machine

/-- One step. A word is decoded and executed (R70, R196); `rst` resets (R215); with nothing presented the block is
idle and holds its state (R207, log entry 2). -/
def step (s : State) : Host.Outcome State Fault Refusal :=
  match s.takeInput with
  | none => .next s
  | some (.rst, s') => .next s'.resetPin
  | some (.cmd w, s') =>
    match decode w with
    | .ok i => exec i s'
    | .error _ => illegalWord w s'

/-- `s` with the host presenting the opcode-table word next (log entry 1). -/
def State.withFetchWord (s : State) (nbits w : Nat) : State := s.present (tableWord nbits w)

end Sys2Proof.Machine
end

