-- ==== Sys2Proof/Safety.lean ====
section
/-! DEFINITION. The terms in which claims about runs are made: sequences of commands, results (spec/70_reset_and_hazards.md
R224), paths in the tree, and the invariants of spec/10_state.md R29 to R32. -/

namespace Sys2Proof.Machine

/-! ### Runs and results -/

/-- A sequence of commands in the host's order, stopping where one does not answer a next state (R49). -/
def execAll : List Instr → State → Result
  | [], s => .next s
  | i :: rest, s =>
    match exec i s with
    | .next t => execAll rest t
    | .fault r => .fault r
    | .refused r => .refused r

/-- The frequency table as a result: when ERR = 0, in any phase (R224). -/
def State.freqResult (s : State) : Option (List (Nat × Count)) := if s.err = .none then some s.freq else none

/-- The tree as a result: when ERR = 0 and PHASE is BUILT or CODED (R224). -/
def State.treeResult (s : State) : Option (List (Nat × Node) × Idx) :=
  if s.err = .none ∧ s.phase ≠ .count then some (s.node, s.root) else none

/-- The code table as a result: when ERR = 0 and PHASE = CODED (R224). -/
def State.codeResult (s : State) : Option (List (Nat × Code)) :=
  if s.err = .none ∧ s.phase = .coded then some s.code else none

/-- The EncodedStream as a result: when ERR = 0 and PHASE = CODED (R224). -/
def State.encodedResult (s : State) : Option (List Digit) :=
  if s.err = .none ∧ s.phase = .coded then some s.eout else none

/-- The recovered bytes as a result: when ERR = 0 and DDONE = 1 (R224). -/
def State.decodedResult (s : State) : Option (List Sym) :=
  if s.err = .none ∧ s.ddone = true then some s.dout else none

/-- The digits of a symbol's code, `code(s)` (R24). -/
def State.codeOf (s : State) (k : Nat) : List Digit := (s.codeAt k).digits

/-- The digits of a byte sequence: the concatenation of its codes (R135). -/
def State.encodeBytes (s : State) (bytes : List Sym) : List Digit := bytes.flatMap (fun b => s.codeOf b.toNat)

/-! ### Encodings -/

/-- The illegal words, as R68 lists them, by `OP = w / 4096` and `ARG = w % 4096`. -/
def IllegalEncoding (w : Word) : Prop :=
  let op := w.toNat / 4096
  let arg := w.toNat % 4096
  (op = 0 ∨ op = 15) ∨
    ((op = 1 ∨ op = 3 ∨ op = 4 ∨ op = 5 ∨ op = 7 ∨ op = 9 ∨ op = 14) ∧ arg ≠ 0) ∨
    ((op = 2 ∨ op = 6 ∨ op = 11 ∨ op = 12) ∧ arg / 256 ≠ 0) ∨
    (op = 8 ∧ arg / 2 ≠ 0) ∨
    (op = 10 ∧ (arg / 16 ≠ 0 ∨ 12 ≤ arg % 16)) ∨
    (op = 13 ∧ arg / 512 ≠ 0)

/-- CLR and the read-backs: the commands that a faulted block still executes (R192). -/
def runsWhileFaulted : Instr → Bool
  | .clr => true
  | .cnt _ => false
  | .bld => false
  | .gen => false
  | .ebeg => false
  | .enc _ => false
  | .dbeg => false
  | .dec _ => false
  | .dend => false
  | .rdr _ => true
  | .rdf _ => true
  | .rdc _ => true
  | .rdn _ => true
  | .lst => false

/-- The command is a read-back: RDR, RDF, RDC or RDN (R170). -/
def isReadBack (i : Instr) : Bool := runsWhileFaulted i && decide (i ≠ .clr)

/-! ### Sums over a frequency table -/

/-- `Σ_s FREQ[s]` (R29). -/
def freqSum (freq : List (Nat × Count)) : Nat :=
  ((List.range Config.nSym).map (fun k => (Table.read 0#32 freq k).toNat)).sum

/-- `Σ_s FREQ[s] × length(s)`, the weighted path length for the given code lengths (R110). -/
def weightedLength (freq : List (Nat × Count)) (length : Nat → Nat) : Nat :=
  ((List.range Config.nSym).map (fun k => (Table.read 0#32 freq k).toNat * length k)).sum

/-- `Σ_s 2^(255 − length(s))` over the symbols that have a code: 2^255 times the Kraft sum of R127. -/
def State.kraftScaled (s : State) : Nat :=
  ((List.range Config.nSym).map (fun k =>
    if (s.codeAt k).valid then 2 ^ (Config.maxDepth - (s.codeAt k).len.toNat) else 0)).sum

/-- A prefix-free assignment of non-empty digit sequences to the symbols of an alphabet (R110, R124). -/
def PrefixFreeCode (alphabet : List Nat) (code : Nat → List Digit) : Prop :=
  (∀ a ∈ alphabet, code a ≠ []) ∧ ∀ a ∈ alphabet, ∀ b ∈ alphabet, a ≠ b → ¬ code a <+: code b

/-! ### The tree -/

/-- `k` is a valid internal node (R23). -/
def isInternal (nodes : List (Nat × Node)) (k : Nat) : Prop :=
  (Table.read Node.zero nodes k).valid = true ∧ (Table.read Node.zero nodes k).leaf = false

/-- `k` is a child of the internal node `p`. -/
def isChild (nodes : List (Nat × Node)) (p k : Nat) : Prop :=
  isInternal nodes p ∧
    ((Table.read Node.zero nodes p).left.toNat = k ∨ (Table.read Node.zero nodes p).right.toNat = k)

/-- The weight a child adds to its parent: NIL, the unused sibling, has weight 0 (R104). -/
def childWeight (nodes : List (Nat × Node)) (i : Idx) : Nat :=
  if i = Config.nil then 0 else (weightAt nodes i.toNat).toNat

/-- The node reached from `i` by a path of digits, each taken at a valid internal node (R24). -/
def follow (nodes : List (Nat × Node)) : Idx → List Digit → Option Idx
  | i, [] => some i
  | i, b :: path =>
    let n := Table.read Node.zero nodes i.toNat
    if i ≠ Config.nil ∧ n.valid = true ∧ n.leaf = false then follow nodes (n.child b) path else none

/-- `i` is in the active set of the merge loop when the node of index `k` is made: a valid node below `k` that is no
child of an internal node made before (R105). -/
def activeAt (nodes : List (Nat × Node)) (k i : Nat) : Prop :=
  i < k ∧ (Table.read Node.zero nodes i).valid = true ∧
    ∀ p, Config.firstInternal ≤ p → p < k → ¬ isChild nodes p i

/-- `x` is what `extract_min` takes from the set `A`: in it, and before every other element in the order of R106. -/
def isFirst (nodes : List (Nat × Node)) (A : Nat → Prop) (x : Nat) : Prop :=
  A x ∧ ∀ i, A i → i ≠ x → lighter nodes x i = true

/-! ### The invariants -/

/-- Frequency invariant (R29). -/
structure FreqInv (s : State) : Prop where
  total_eq : s.total.toNat = freqSum s.freq
  nsym_eq : s.nsym.toNat = (symbols s.freq).length

/-- Tree invariant, for PHASE BUILT or CODED (R30, with the form of the entries of R23). -/
structure TreeInv (s : State) : Prop where
  noSymbol : s.nsym.toNat = 0 →
    s.root = Config.nil ∧ s.nint = 0 ∧ s.empty = true ∧ s.single = false ∧ ∀ k, (s.nodeAt k).valid = false
  oneSymbol : ∀ k, symbols s.freq = [k] →
    s.root = 256 ∧ s.nint = 1 ∧ s.single = true ∧ s.empty = false ∧
      s.nodeAt 256 = internalNode (BitVec.ofNat 9 k) Config.nil (s.freqAt k) ∧
      ∀ j, (s.nodeAt j).valid = true ↔ j = k ∨ j = 256
  manySymbols : 2 ≤ s.nsym.toNat →
    s.root.toNat = 254 + s.nsym.toNat ∧ s.nint.toNat = s.nsym.toNat - 1 ∧ s.empty = false ∧ s.single = false ∧
      (∀ j, (s.nodeAt j).valid = true ↔ (j < 256 ∧ s.freqAt j ≠ 0) ∨ (256 ≤ j ∧ j ≤ 254 + s.nsym.toNat)) ∧
      ∀ j, 256 ≤ j → j ≤ 254 + s.nsym.toNat →
        (s.nodeAt j).left.toNat < j ∧ (s.nodeAt j).right.toNat < j ∧
          (s.nodeAt j).left ≠ (s.nodeAt j).right ∧
          (s.nodeAt (s.nodeAt j).left.toNat).valid = true ∧ (s.nodeAt (s.nodeAt j).right.toNat).valid = true
  leaf : ∀ k, k < 256 → s.freqAt k ≠ 0 → s.nodeAt k = leafNode k (s.freqAt k)
  internal : ∀ j, 256 ≤ j → (s.nodeAt j).valid = true →
    (s.nodeAt j).leaf = false ∧ (s.nodeAt j).sym = 0 ∧
      (s.nodeAt j).weight.toNat = childWeight s.node (s.nodeAt j).left + childWeight s.node (s.nodeAt j).right
  invalid : ∀ j, (s.nodeAt j).valid = false → s.nodeAt j = Node.zero
  oneParent : ∀ j, (s.nodeAt j).valid = true → j ≠ s.root.toNat → ∃! p, isChild s.node p j
  rootNoChild : s.root ≠ Config.nil → ∀ p, ¬ isChild s.node p s.root.toNat
  rootWeight : s.root ≠ Config.nil → (s.nodeAt s.root.toNat).weight = s.total

/-- Code-table invariant, for PHASE CODED: the codes are the paths to the leaves (R31, with the form of the entries of
R24). That the codes are prefix-free follows from it. -/
structure CodeInv (s : State) : Prop where
  valid_iff : ∀ k, (s.codeAt k).valid = true ↔ k < 256 ∧ s.freqAt k ≠ 0
  path : ∀ k, (s.codeAt k).valid = true → follow s.node s.root (s.codeOf k) = some (BitVec.ofNat 9 k)
  length : ∀ k, (s.codeAt k).valid = true → 1 ≤ (s.codeAt k).len.toNat ∧ (s.codeAt k).len.toNat ≤ 255
  unused : ∀ k i, (s.codeAt k).len.toNat ≤ i → (s.codeAt k).bits.getLsbD i = false
  invalid : ∀ k, (s.codeAt k).valid = false → s.codeAt k = Code.zero

/-- Decoder-cursor invariant, for PHASE BUILT or CODED: at ROOT, or at a valid internal node below it (R32). -/
def CursorInv (s : State) : Prop :=
  s.dcur = s.root ∨
    ∃ path, path ≠ [] ∧ follow s.node s.root path = some s.dcur ∧ isInternal s.node s.dcur.toNat

/-- What holds in every state reachable from reset: R29 to R32, R14's zero context, R12's DDONE, and the canonical form
of the tables. -/
structure Inv (s : State) : Prop where
  tables : Memory.wf s = true
  freq : FreqInv s
  noError : s.err = .none → s.errSym = 0 ∧ s.errPos = 0 ∧ s.errCmd = 0
  fresh : s.phase = .count →
    s.node = [] ∧ s.root = Config.nil ∧ s.nint = 0 ∧ s.dcur = Config.nil ∧
      s.empty = false ∧ s.single = false ∧ s.ddone = false
  tree : s.phase ≠ .count → TreeInv s
  noCodes : s.phase ≠ .coded → s.code = []
  codes : s.phase = .coded → CodeInv s
  cursor : s.phase ≠ .count → CursorInv s
  done : s.ddone = true → s.dcur = s.root

end Sys2Proof.Machine
end

