-- ==== Sys2Proof/Certificates/Slice0/Obligations.lean ====
section
/-! DEFINITION. The statements for the provers, file by file of spec/. A next state is written as an update of the state
before, so that it also says what is unchanged. -/

section

open Sys2Proof Sys2Proof.Machine

/-! ### Encoding (spec/30_encoding.md) -/

/-- One word of each command, written out from the encodings of R67 and the examples of R71. -/
def Obligations.DecodingOfWrittenOutWords : Prop :=
  decode 0x1000 = .ok .clr ∧ decode 0x2061 = .ok (.cnt 0x61) ∧ decode 0x3000 = .ok .bld ∧
  decode 0x4000 = .ok .gen ∧ decode 0x5000 = .ok .ebeg ∧ decode 0x6063 = .ok (.enc 0x63) ∧
  decode 0x7000 = .ok .dbeg ∧ decode 0x8001 = .ok (.dec true) ∧ decode 0x9000 = .ok .dend ∧
  decode 0xA007 = .ok (.rdr 7) ∧ decode 0xB07A = .ok (.rdf 0x7A) ∧ decode 0xC061 = .ok (.rdc 0x61) ∧
  decode 0xD101 = .ok (.rdn 257) ∧ decode 0xE000 = .ok .lst ∧
  decode 0x0000 = .error .reservedOpcode ∧ decode 0xFFFF = .error .reservedOpcode ∧
  decode 0x1001 = .error .mustBeZero ∧ decode 0xA00C = .error .reservedRegister

/-- Every (command, operand) pair has a word that decodes to it (R70). -/
def Obligations.DecodeOfEncodeIsTheCommand : Prop :=
  ∀ i : Instr, i.wellFormed = true → decode (encode i) = .ok i

/-- A legal word is the one word of the command it decodes to (R70). -/
def Obligations.EncodeOfDecodeIsTheWord : Prop :=
  ∀ (w : Word) (i : Instr), decode w = .ok i → i.wellFormed = true ∧ encode i = w

/-- The opcode map (R67): the fourteen rows, and a word is a row's command exactly when its mask and match hold, for RDR
also `w[3:0] ≤ 11`. -/
def Obligations.OpcodeMapDecidesTheCommand : Prop :=
  opcodeTable =
    [⟨"CLR", 0x1000, 0xFFFF⟩, ⟨"CNT", 0x2000, 0xFF00⟩, ⟨"BLD", 0x3000, 0xFFFF⟩, ⟨"GEN", 0x4000, 0xFFFF⟩,
     ⟨"EBEG", 0x5000, 0xFFFF⟩, ⟨"ENC", 0x6000, 0xFF00⟩, ⟨"DBEG", 0x7000, 0xFFFF⟩, ⟨"DEC", 0x8000, 0xFFFE⟩,
     ⟨"DEND", 0x9000, 0xFFFF⟩, ⟨"RDR", 0xA000, 0xFFF0⟩, ⟨"RDF", 0xB000, 0xFF00⟩, ⟨"RDC", 0xC000, 0xFF00⟩,
     ⟨"RDN", 0xD000, 0xFE00⟩, ⟨"LST", 0xE000, 0xFFFF⟩] ∧
  (∀ (w : Word) (i : Instr), decode w = .ok i → opcodeRow i ∈ opcodeTable ∧ (opcodeRow i).admits w = true) ∧
  ∀ (w : Word), ∀ r ∈ opcodeTable, r.admits w = true → ∃ i, decode w = .ok i ∧ opcodeRow i = r

/-- The illegal encodings are exactly those of R68; one raises E_ILLEGAL when the block is not faulted and is refused
when it is. -/
def Obligations.IllegalWordsAreExactlyThese : Prop :=
  ∀ w : Word, ((∃ r, decode w = .error r) ↔ IllegalEncoding w) ∧
    (IllegalEncoding w → ∀ s : State,
      (s.err = .none → step (s.present w) =
        .next { s with err := .illegal, errSym := 0, errPos := 0, errCmd := w }) ∧
      (s.err ≠ .none → step (s.present w) = .next s))

/-! ### The step (spec/20_memory.md R49, spec/70_reset_and_hazards.md R215, R218) -/

/-- A step takes the next word the host presents, whole, and runs the command it decodes to; the words after it wait. -/
def Obligations.StepRunsTheDecodedCommand : Prop :=
  ∀ (s : State) (w : Word) (rest : List HostInput), s.input = .cmd w :: rest →
    (∀ i, decode w = .ok i → step s = exec i { s with input := rest }) ∧
    (∀ r, decode w = .error r → step s = illegalWord w { s with input := rest })

/-- `rst` puts every piece of the block's state at its reset value; with nothing presented the block holds its state. The
second clause is the model's own reading of R207 (log entry 2). -/
def Obligations.StepOnResetAndOnNothing : Prop :=
  (∀ (s : State) (rest : List HostInput), s.input = .rst :: rest →
    step s = .next { State.reset with input := rest, ports := s.ports }) ∧
  ∀ s : State, s.input = [] → step s = .next s

/-- The value of every piece of state after reset and after CLR (R28). -/
def Obligations.ResetValueOfEveryState : Prop :=
  ∀ t : State, (t = State.reset ∨ ∃ s, exec .clr s = .next t) →
    t.phase = .count ∧ t.empty = false ∧ t.single = false ∧ t.ddone = false ∧
    t.err = .none ∧ t.errSym = 0 ∧ t.errPos = 0 ∧ t.errCmd = 0 ∧
    t.total = 0 ∧ t.nsym = 0 ∧ t.nint = 0 ∧ t.root = 511 ∧ t.dcur = 511 ∧ t.epos = 0 ∧ t.dpos = 0 ∧
    (∀ k, t.freqAt k = 0) ∧ (∀ k, t.nodeAt k = ⟨false, false, 0, 0, 0, 0⟩) ∧ (∀ k, t.codeAt k = ⟨false, 0, 0⟩) ∧
    t.eout = [] ∧ t.dout = [] ∧ t.lout = [] ∧ t.rsp = none

/-! ### Session control and the order of checks (spec/40_session.md, spec/60_exceptions.md) -/

/-- CLR (R81): every piece of state to its reset value, in every phase, faulted or not, with no error and no event. -/
def Obligations.ClrStartsANewSession : Prop :=
  encode .clr = 0x1000 ∧
  ∀ s : State, exec .clr s = .next
    { phase := .count, empty := false, single := false, ddone := false, err := .none, errSym := 0, errPos := 0,
      errCmd := 0, total := 0, nsym := 0, root := 511, nint := 0, epos := 0, dpos := 0, dcur := 511, freq := [],
      node := [], code := [], eout := [], dout := [], lout := [], rsp := none, input := s.input, ports := s.ports }

/-- Refusal (R192): a faulted block refuses every word but a legal CLR, RDR, RDF, RDC or RDN, that is, nothing changes. -/
def Obligations.FaultedBlockRefuses : Prop :=
  ∀ (s : State) (w : Word), s.err ≠ .none → (∀ i, decode w = .ok i → runsWhileFaulted i = false) →
    step (s.present w) = .next s

/-- E_SEQUENCE (R188): a command that the table of R82 calls SEQ does nothing but latch the error. -/
def Obligations.OutOfSequenceCommandsOnlyLatch : Prop :=
  ∀ s : State, s.err = .none →
    let seq := fun i : Instr =>
      exec i s = .next { s with err := .sequence, errSym := 0, errPos := 0, errCmd := encode i }
    (s.phase ≠ .count → (∀ sym, seq (.cnt sym)) ∧ seq .bld) ∧
    (s.phase ≠ .built → seq .gen) ∧
    (s.phase ≠ .coded → seq .ebeg ∧ (∀ sym, seq (.enc sym)) ∧ seq .lst) ∧
    (s.phase = .count → seq .dbeg) ∧
    (s.phase = .count ∨ s.ddone = true → (∀ bit, seq (.dec bit)) ∧ seq .dend)

/-- PHASE changes only by CLR, by BLD from COUNT to BUILT and by GEN from BUILT to CODED (R11, R82). -/
def Obligations.PhaseChangesOnlyByThese : Prop :=
  ∀ (i : Instr) (s t : State), exec i s = .next t →
    t.phase = s.phase ∨ (i = .clr ∧ t.phase = .count) ∨ (i = .bld ∧ s.phase = .count ∧ t.phase = .built) ∨
      (i = .gen ∧ s.phase = .built ∧ t.phase = .coded)

/-- The error latch (R190): a command that raises an error writes ERR, ERR_SYM, ERR_POS and ERR_CMD, the last with its
own word, and nothing else, and the `err` line goes high. -/
def Obligations.ErrorLatchChangesNothingElse : Prop :=
  ∀ (i : Instr) (s t : State), exec i s = .next t → s.err = .none → t.err ≠ .none →
    t = { s with err := t.err, errSym := t.errSym, errPos := t.errPos, errCmd := encode i } ∧
      s.errLine = false ∧ t.errLine = true

/-- Which command raises which error, on what condition and with what context (R186). -/
def Obligations.ErrorCausesAndContext : Prop :=
  ∀ (i : Instr) (s t : State), exec i s = .next t → s.err = .none →
    t.err = .none ∨
    (t.err = .illegal ∧ i.wellFormed = false ∧ t.errSym = 0 ∧ t.errPos = 0) ∨
    (t.err = .sequence ∧ legal i s = false ∧ t.errSym = 0 ∧ t.errPos = 0) ∨
    (t.err = .overflow ∧ (∃ sym, i = .cnt sym) ∧ s.total = 4294967295 ∧ t.errSym = 0 ∧ t.errPos = 0) ∨
    (t.err = .missingCode ∧ ∃ sym, i = .enc sym ∧ (s.codeAt sym.toNat).valid = false ∧ t.errSym = sym ∧
      t.errPos = s.epos) ∨
    (t.err = .malformed ∧
      ((∃ bit, i = .dec bit ∧ (s.root = 511 ∨ (s.nodeAt s.dcur.toNat).child bit = 511)) ∨
        (i = .dend ∧ s.dcur ≠ s.root)) ∧
      t.errSym = 0 ∧ t.errPos = s.dpos)

/-- A faulted block keeps the first error and its context under every command but CLR (R198, R199). -/
def Obligations.FirstErrorStaysUntilClr : Prop :=
  ∀ (i : Instr) (s t : State), exec i s = .next t → s.err ≠ .none → i ≠ .clr →
    t.err = s.err ∧ t.errSym = s.errSym ∧ t.errPos = s.errPos ∧ t.errCmd = s.errCmd

/-! ### Unit frequency_counter (spec/41_frequency_counter.md) -/

/-- CNT (R91). -/
def Obligations.CntCountsOneByte : Prop :=
  ∀ sym : Sym, encode (.cnt sym) = 0x2000 ||| sym.setWidth 16 ∧
  ∀ s : State, s.err = .none →
    (s.phase ≠ .count → exec (.cnt sym) s =
      .next { s with err := .sequence, errSym := 0, errPos := 0, errCmd := encode (.cnt sym) }) ∧
    (s.phase = .count → s.total = 4294967295 → exec (.cnt sym) s =
      .next { s with err := .overflow, errSym := 0, errPos := 0, errCmd := encode (.cnt sym) }) ∧
    (s.phase = .count → s.total ≠ 4294967295 → ∃ t, exec (.cnt sym) s = .next t ∧
      t = { s with
        nsym := if s.freqAt sym.toNat = 0 then s.nsym + 1 else s.nsym
        freq := t.freq
        total := s.total + 1 } ∧
      ∀ k, t.freqAt k = if k = sym.toNat then s.freqAt k + 1 else s.freqAt k)

/-- The counts never wrap (R92), where the frequency invariant R29 holds. -/
def Obligations.CountsNeverWrap : Prop :=
  ∀ (s : State) (sym : Sym), FreqInv s → s.err = .none → s.phase = .count → s.total.toNat < 2 ^ 32 - 1 →
    ∃ t, exec (.cnt sym) s = .next t ∧
      (s.freqAt sym.toNat).toNat ≤ s.total.toNat ∧
      (t.freqAt sym.toNat).toNat = (s.freqAt sym.toNat).toNat + 1 ∧
      t.total.toNat = s.total.toNat + 1 ∧
      t.nsym.toNat = s.nsym.toNat + (if s.freqAt sym.toNat = 0 then 1 else 0) ∧ t.nsym.toNat ≤ 256

/-- The count pass (R90): after CNT for each byte of a sequence, FREQ holds how often each byte occurs, TOTAL the length
and NSYM the number of distinct bytes; the order of the bytes does not matter. -/
def Obligations.CountPassCountsTheBytes : Prop :=
  ∀ (s : State) (bytes : List Sym), bytes.length ≤ 2 ^ 32 - 1 →
    ∃ t, execAll (.clr :: bytes.map .cnt) s = .next t ∧ t.err = .none ∧ t.phase = .count ∧
      (∀ b : Sym, (t.freqAt b.toNat).toNat = bytes.count b) ∧
      t.total.toNat = bytes.length ∧ t.nsym.toNat = bytes.dedup.length ∧
      ∀ bytes' : List Sym, bytes'.Perm bytes → execAll (.clr :: bytes'.map .cnt) s = .next t

/-- Every step keeps the frequency invariant (R29). -/
def Obligations.EveryStepKeepsTheFrequencyInvariant : Prop :=
  ∀ s t : State, FreqInv s → step s = .next t → FreqInv t

/-! ### Unit huffman_tree_builder (spec/42_tree_builder.md) -/

/-- BLD (R101, R112): the tree's registers and flags by the three cases, and the decoder made ready; nothing else but
NODE changes. -/
def Obligations.BldBuildsTheTreeAndStartsTheDecoder : Prop :=
  encode .bld = 0x3000 ∧
  ∀ s : State, s.err = .none →
    (s.phase ≠ .count → exec .bld s =
      .next { s with err := .sequence, errSym := 0, errPos := 0, errCmd := encode .bld }) ∧
    (s.phase = .count → FreqInv s → ∃ t, exec .bld s = .next t ∧
      t = { s with
        phase := .built, node := t.node, root := t.root, nint := t.nint, empty := t.empty, single := t.single,
        dcur := t.root, dpos := 0, dout := [], ddone := false } ∧
      (s.nsym = 0 → t.root = 511 ∧ t.nint = 0 ∧ t.empty = true ∧ t.single = s.single) ∧
      (s.nsym = 1 → t.root = 256 ∧ t.nint = 1 ∧ t.empty = s.empty ∧ t.single = true) ∧
      (2 ≤ s.nsym.toNat → t.root.toNat = 254 + s.nsym.toNat ∧ t.nint.toNat = s.nsym.toNat - 1 ∧
        t.empty = s.empty ∧ t.single = s.single))

/-- The leaves (R102). -/
def Obligations.BldMakesALeafForEverySymbol : Prop :=
  ∀ s t : State, s.err = .none → s.phase = .count → exec .bld s = .next t → ∀ k, k < 256 →
    t.nodeAt k =
      if s.freqAt k = 0 then ⟨false, false, 0, 0, 0, 0⟩
      else ⟨true, true, BitVec.ofNat 8 k, s.freqAt k, 511, 511⟩

/-- The two degenerate alphabets (R103, R104): no tree, and the synthetic root. -/
def Obligations.BldHandlesDegenerateAlphabets : Prop :=
  ∀ s : State, s.err = .none → s.phase = .count → FreqInv s →
    (s.nsym = 0 → ∃ t, exec .bld s = .next t ∧ t.phase = .built ∧ t.err = .none ∧ t.root = 511 ∧ t.nint = 0 ∧
      t.empty = true ∧ ∀ j, (t.nodeAt j).valid = false) ∧
    (∀ k, k < 256 → s.freqAt k ≠ 0 → s.nsym = 1 → ∃ t, exec .bld s = .next t ∧ t.phase = .built ∧ t.err = .none ∧
      t.root = 256 ∧ t.nint = 1 ∧ t.single = true ∧
      t.nodeAt 256 = ⟨true, false, 0, s.freqAt k, BitVec.ofNat 9 k, 511⟩ ∧
      ∀ j, (t.nodeAt j).valid = true ↔ j = k ∨ j = 256)

/-- The merge loop (R105, R106, R107, R108): every internal node is made, in order of creation, over the two first
elements of the active set of its time in the order (WEIGHT, index), the first one left, with the exact sum of their
weights, until the root alone is active; it is the last node made. -/
def Obligations.BldMergesTheTwoLightestNodes : Prop :=
  ∀ s t : State, FreqInv s → s.err = .none → s.phase = .count → 2 ≤ s.nsym.toNat → exec .bld s = .next t →
    (∀ k, 256 ≤ k → k ≤ 254 + s.nsym.toNat →
      let x := (t.nodeAt k).left.toNat
      let y := (t.nodeAt k).right.toNat
      isFirst t.node (activeAt t.node k) x ∧ isFirst t.node (fun i => activeAt t.node k i ∧ i ≠ x) y ∧
        (t.nodeAt k).valid = true ∧ (t.nodeAt k).leaf = false ∧ (t.nodeAt k).sym = 0 ∧
        (t.nodeAt k).weight.toNat = (t.nodeAt x).weight.toNat + (t.nodeAt y).weight.toNat) ∧
    (∀ k, (t.nodeAt k).valid = true ↔
      (k < 256 ∧ s.freqAt k ≠ 0) ∨ (256 ≤ k ∧ k ≤ 254 + s.nsym.toNat)) ∧
    t.root.toNat = 254 + s.nsym.toNat ∧ ∀ i, activeAt t.node (255 + s.nsym.toNat) i ↔ i = t.root.toNat

/-- Determinism (R111): two sessions whose FREQ hold the same counts get the same tree and code table and, for the same
ENC commands, the same encoded stream. -/
def Obligations.TreeDependsOnlyOnFrequencies : Prop :=
  ∀ (s s' t t' : State) (bytes : List Sym), FreqInv s → FreqInv s' → (∀ k, k < 256 → s.freqAt k = s'.freqAt k) →
    s.err = .none → s'.err = .none → s.phase = .count → s'.phase = .count →
    execAll (.bld :: .gen :: bytes.map .enc) s = .next t → execAll (.bld :: .gen :: bytes.map .enc) s' = .next t' →
      t.node = t'.node ∧ t.root = t'.root ∧ t.nint = t'.nint ∧ t.code = t'.code ∧ t.eout = t'.eout

/-- BLD gives a tree as R30 describes it, from a state as R29 and a new session leave it. -/
def Obligations.BldEstablishesTheTreeInvariant : Prop :=
  ∀ s t : State, FreqInv s → s.err = .none → s.phase = .count → s.empty = false → s.single = false →
    exec .bld s = .next t → TreeInv t

/-! ### Unit huffman_code_table_generator (spec/43_code_table_generator.md) -/

/-- GEN (R120, R121): the code of every symbol of the alphabet is the one path from the root to its leaf, no other symbol
has a code, and the encoder is made ready; nothing else changes. -/
def Obligations.GenGivesEveryLeafItsPath : Prop :=
  encode .gen = 0x4000 ∧
  ∀ s : State, s.err = .none →
    (s.phase ≠ .built → exec .gen s =
      .next { s with err := .sequence, errSym := 0, errPos := 0, errCmd := encode .gen }) ∧
    (s.phase = .built → Inv s → ∃ t, exec .gen s = .next t ∧
      t = { s with code := t.code, phase := .coded, epos := 0, eout := [] } ∧
      ∀ k, if k < 256 ∧ s.freqAt k ≠ 0 then
          ∃ path, 1 ≤ path.length ∧ path.length ≤ 255 ∧
            (∀ p, follow s.node s.root p = some (BitVec.ofNat 9 k) ↔ p = path) ∧
            t.codeAt k = ⟨true, BitVec.ofNat 9 path.length, pack path⟩
        else t.codeAt k = ⟨false, 0, 0⟩)

/-- Packing a path (R123): its first digit is the least significant bit, and LEN and BITS together tell the path. -/
def Obligations.PackedPathIsLeastSignificantFirst : Prop :=
  ∀ path : List Digit, path.length ≤ 255 →
    (pack path).toNat = (path.zipIdx.map (fun d => if d.1 then 2 ^ d.2 else 0)).sum ∧
    (codeOfPath path).len.toNat = path.length ∧
    (∀ i, (pack path).getLsbD i = path.getD i false) ∧
    ∀ path' : List Digit, path'.length ≤ 255 → codeOfPath path' = codeOfPath path → path' = path

/-- The code is prefix-free (R124). -/
def Obligations.CodesArePrefixFree : Prop :=
  ∀ (s : State) (a b : Nat), Inv s → s.phase = .coded → (s.codeAt a).valid = true → (s.codeAt b).valid = true →
    a ≠ b → ¬ s.codeOf a <+: s.codeOf b

/-- The Kraft sum (R127), scaled by 2^255: 1 for two or more symbols, 1/2 for one, 0 for none. -/
def Obligations.KraftSumOfTheCode : Prop :=
  ∀ s : State, Inv s → s.phase = .coded →
    (2 ≤ s.nsym.toNat → s.kraftScaled = 2 ^ 255) ∧ (s.nsym = 1 → s.kraftScaled = 2 ^ 254) ∧
    (s.nsym = 0 → s.kraftScaled = 0)

/-- The weighted path length is the sum of the weights of the internal nodes (R110), for two or more symbols. -/
def Obligations.WeightedLengthIsTheInternalWeight : Prop :=
  ∀ s : State, Inv s → s.phase = .coded → 2 ≤ s.nsym.toNat →
    weightedLength s.freq (fun k => (s.codeAt k).len.toNat) =
      ((List.range s.nint.toNat).map (fun j => (s.nodeAt (256 + j)).weight.toNat)).sum

/-- Weight-optimality (R110): no prefix-free code with non-empty code words has a smaller weighted length, which is the
sum of the internal weights for two or more symbols and the one count for one. -/
def Obligations.CodeHasMinimalWeightedLength : Prop :=
  ∀ s t : State, FreqInv s → s.err = .none → s.phase = .count → execAll [.bld, .gen] s = .next t →
    let length := weightedLength s.freq (fun k => (t.codeAt k).len.toNat)
    (∀ code : Nat → List Digit, PrefixFreeCode (symbols s.freq) code →
      length ≤ weightedLength s.freq (fun k => (code k).length)) ∧
    (2 ≤ s.nsym.toNat →
      length = ((List.range t.nint.toNat).map (fun j => (t.nodeAt (256 + j)).weight.toNat)).sum) ∧
    (∀ k, symbols s.freq = [k] → length = (s.freqAt k).toNat)

/-- LST (R125): LOUT becomes the records of the symbols that have a code, symbols ascending, one `lst` event for each. -/
def Obligations.LstListsTheCodesInOrder : Prop :=
  encode .lst = 0xE000 ∧
  ∀ s : State, s.err = .none →
    (s.phase ≠ .coded → exec .lst s =
      .next { s with err := .sequence, errSym := 0, errPos := 0, errCmd := encode .lst }) ∧
    (s.phase = .coded → ∃ records : List ListRecord,
      exec .lst s = .next { s with lout := records, ports := s.ports ++ records.map .lst } ∧
      records.Pairwise (fun a b => a.sym.toNat < b.sym.toNat) ∧
      (∀ r : ListRecord, r ∈ records ↔ s.codeAt r.sym.toNat = ⟨true, r.len, r.bits⟩) ∧
      (Inv s → records.length = s.nsym.toNat))

/-! ### Unit huffman_encoder (spec/44_encoder.md) -/

/-- EBEG (R136). -/
def Obligations.EbegRestartsTheEncodedStream : Prop :=
  encode .ebeg = 0x5000 ∧
  ∀ s : State, s.err = .none →
    (s.phase = .coded → exec .ebeg s = .next { s with epos := 0, eout := [] }) ∧
    (s.phase ≠ .coded → exec .ebeg s =
      .next { s with err := .sequence, errSym := 0, errPos := 0, errCmd := encode .ebeg })

/-- ENC (R137, R138). -/
def Obligations.EncEmitsTheCodeOfTheByte : Prop :=
  ∀ sym : Sym, encode (.enc sym) = 0x6000 ||| sym.setWidth 16 ∧
  ∀ s : State, s.err = .none →
    (s.phase ≠ .coded → exec (.enc sym) s =
      .next { s with err := .sequence, errSym := 0, errPos := 0, errCmd := encode (.enc sym) }) ∧
    (s.phase = .coded → (s.codeAt sym.toNat).valid = false → exec (.enc sym) s =
      .next { s with err := .missingCode, errSym := sym, errPos := s.epos, errCmd := encode (.enc sym) }) ∧
    (s.phase = .coded → (s.codeAt sym.toNat).valid = true → ∃ bits : List Digit, exec (.enc sym) s =
      .next { s with
        eout := s.eout ++ bits
        ports := s.ports ++ bits.map .enc
        epos := BitVec.ofNat 64 (min (s.epos.toNat + 1) (2 ^ 64 - 1)) } ∧
      bits.length = (s.codeAt sym.toNat).len.toNat ∧
      (Inv s → 1 ≤ bits.length ∧ bits.length ≤ 255) ∧
      ∀ (j : Nat) (hj : j < bits.length), bits[j] = (s.codeAt sym.toNat).bits.getLsbD j)

/-- The encode pass (R135): EOUT is the concatenation of the codes in input order and EPOS the saturated length, nothing
else of the block changes, and a byte without a code is reported as an error at its position. -/
def Obligations.EncodePassConcatenatesTheCodes : Prop :=
  ∀ (s : State) (bytes : List Sym), s.err = .none → s.phase = .coded →
    (∀ b ∈ bytes, (s.codeAt b.toNat).valid = true) →
      let t := { s with
        eout := s.encodeBytes bytes
        epos := BitVec.ofNat 64 (min bytes.length (2 ^ 64 - 1))
        ports := s.ports ++ (s.encodeBytes bytes).map .enc }
      execAll (.ebeg :: bytes.map .enc) s = .next t ∧
      ∀ sym : Sym, (s.codeAt sym.toNat).valid = false →
        execAll (.ebeg :: bytes.map .enc ++ [.enc sym]) s =
          .next { t with err := .missingCode, errSym := sym, errPos := t.epos, errCmd := encode (.enc sym) }

/-- Empty input (R139, R157): empty streams throughout and no error; every ENC then raises E_MISSING_CODE. -/
def Obligations.EmptyInputGivesEmptyStreams : Prop :=
  ∀ s : State, ∃ t u, execAll [.clr, .bld, .gen] s = .next t ∧ t.encodedResult = some [] ∧ t.empty = true ∧
    (∀ k, t.codeAt k = ⟨false, 0, 0⟩) ∧
    execAll [.dbeg, .dend] t = .next u ∧ u.decodedResult = some [] ∧ u.ddone = true ∧
    ∀ sym : Sym, exec (.enc sym) t =
      .next { t with err := .missingCode, errSym := sym, errPos := 0, errCmd := encode (.enc sym) }

/-- One-symbol input (R158), for every symbol and every length: the code is "0", the stream is as many zeros as bytes,
and decoding recovers the input. -/
def Obligations.OneSymbolInputGetsTheCodeZero : Prop :=
  ∀ (s : State) (x : Sym) (n : Nat), 1 ≤ n → n ≤ 2 ^ 32 - 1 →
    ∃ t u, execAll (.clr :: List.replicate n (.cnt x) ++ [.bld, .gen] ++ List.replicate n (.enc x)) s = .next t ∧
      t.codeOf x.toNat = [false] ∧ t.single = true ∧ t.encodedResult = some (List.replicate n false) ∧
      execAll (.dbeg :: List.replicate n (.dec false) ++ [.dend]) t = .next u ∧
      u.decodedResult = some (List.replicate n x)

/-! ### Unit huffman_decoder (spec/45_decoder.md) -/

/-- DBEG (R151). -/
def Obligations.DbegRestartsTheDecoder : Prop :=
  encode .dbeg = 0x7000 ∧
  ∀ s : State, s.err = .none →
    (s.phase ≠ .count → exec .dbeg s = .next { s with dcur := s.root, dpos := 0, dout := [], ddone := false }) ∧
    (s.phase = .count → exec .dbeg s =
      .next { s with err := .sequence, errSym := 0, errPos := 0, errCmd := encode .dbeg })

/-- DEC (R152, with R154 cases (a) and (b)), where DCUR is a node whenever there is a tree, as R32 says. -/
def Obligations.DecConsumesOneBit : Prop :=
  ∀ bit : Digit, encode (.dec bit) = 0x8000 ||| (BitVec.ofBool bit).setWidth 16 ∧
  ∀ s : State, s.err = .none →
    let n := if bit then (s.nodeAt s.dcur.toNat).right else (s.nodeAt s.dcur.toNat).left
    let malformed := { s with err := .malformed, errSym := 0, errPos := s.dpos, errCmd := encode (.dec bit) }
    let pos := BitVec.ofNat 64 (min (s.dpos.toNat + 1) (2 ^ 64 - 1))
    (s.phase = .count ∨ s.ddone = true → exec (.dec bit) s =
      .next { s with err := .sequence, errSym := 0, errPos := 0, errCmd := encode (.dec bit) }) ∧
    (s.phase ≠ .count → s.ddone = false →
      (s.root = 511 → exec (.dec bit) s = .next malformed) ∧
      (s.root ≠ 511 → s.dcur ≠ 511 →
        (n = 511 → exec (.dec bit) s = .next malformed) ∧
        (n ≠ 511 → (s.nodeAt n.toNat).leaf = true → exec (.dec bit) s = .next { s with
          dpos := pos
          dout := s.dout ++ [(s.nodeAt n.toNat).sym]
          ports := s.ports ++ [.dec (s.nodeAt n.toNat).sym]
          dcur := s.root }) ∧
        (n ≠ 511 → (s.nodeAt n.toNat).leaf = false → exec (.dec bit) s =
          .next { s with dpos := pos, dcur := n })))

/-- DEND (R153, with R154 case (c)). -/
def Obligations.DendChecksTheLeafBoundary : Prop :=
  encode .dend = 0x9000 ∧
  ∀ s : State, s.err = .none →
    (s.phase = .count ∨ s.ddone = true → exec .dend s =
      .next { s with err := .sequence, errSym := 0, errPos := 0, errCmd := encode .dend }) ∧
    (s.phase ≠ .count → s.ddone = false →
      (s.dcur = s.root → exec .dend s = .next { s with ddone := true }) ∧
      (s.dcur ≠ s.root → exec .dend s =
        .next { s with err := .malformed, errSym := 0, errPos := s.dpos, errCmd := encode .dend }))

/-- Nothing is appended to the recovered output, in DOUT or on the `dec` port, but leaf symbols, by DEC (R155). -/
def Obligations.OnlyDecAppendsALeafSymbol : Prop :=
  ∀ (i : Instr) (s t : State), exec i s = .next t →
    ((∀ bit, i ≠ .dec bit) → (t.dout = s.dout ∨ t.dout = []) ∧
      ∀ sym : Sym, t.ports.count (.dec sym) = s.ports.count (.dec sym)) ∧
    ∀ bit, i = .dec bit → (t.dout = s.dout ∧ t.ports = s.ports) ∨
      ∃ j, (s.nodeAt j).leaf = true ∧ t.dout = s.dout ++ [(s.nodeAt j).sym] ∧
        t.ports = s.ports ++ [.dec (s.nodeAt j).sym]

/-- Once DDONE = 1 the decoded stream is closed (R159): DEC and DEND raise E_SEQUENCE, and every command but DBEG and CLR
keeps DDONE and DOUT. -/
def Obligations.ClosedStreamStaysUntilDbegOrClr : Prop :=
  ∀ s : State, s.ddone = true → s.phase ≠ .count →
    (s.err = .none → ∀ i : Instr, (i = .dend ∨ ∃ bit, i = .dec bit) →
      exec i s = .next { s with err := .sequence, errSym := 0, errPos := 0, errCmd := encode i }) ∧
    (∀ (i : Instr) (t : State), exec i s = .next t → i ≠ .dbeg → i ≠ .clr → t.ddone = true ∧ t.dout = s.dout) ∧
    ∀ t : State, ((exec .dbeg s = .next t ∧ s.err = .none) ∨ exec .clr s = .next t ∨
      ((∃ rest, s.input = .rst :: rest) ∧ step s = .next t)) → t.ddone = false

/-- Round trip over one code table (R156): whatever bytes have codes, decoding their encoding gives them back. -/
def Obligations.DecodingRecoversWhatWasEncoded : Prop :=
  ∀ (s : State) (bytes : List Sym), Inv s → s.err = .none → s.phase = .coded →
    (∀ b ∈ bytes, (s.codeAt b.toNat).valid = true) →
      ∃ t u, execAll (.ebeg :: bytes.map .enc) s = .next t ∧
        execAll (.dbeg :: t.eout.map .dec ++ [.dend]) t = .next u ∧
        u.err = .none ∧ u.ddone = true ∧ u.dout = bytes

/-- Round trip of the whole pipeline (R156): from CLR in any state, with the bytes counted and the tree and the codes made,
every byte sequence over the counted bytes, the counted sequence among them, is encoded and decoded back to itself, without
an error. -/
def Obligations.PipelineRoundTrip : Prop :=
  ∀ (s : State) (counted bytes : List Sym), counted.length ≤ 2 ^ 32 - 1 → (∀ b ∈ bytes, b ∈ counted) →
    ∃ t u, execAll (.clr :: counted.map .cnt ++ [.bld, .gen] ++ bytes.map .enc) s = .next t ∧
      t.err = .none ∧ t.epos.toNat = min bytes.length (2 ^ 64 - 1) ∧
      execAll (.dbeg :: t.eout.map .dec ++ [.dend]) t = .next u ∧
      u.err = .none ∧ u.ddone = true ∧ u.dout = bytes

/-- A stream that ends inside a code word is malformed (R154 case (c)): after whole codes and a proper, non-empty part of
another, DEND raises E_MALFORMED at the position of the missing bit. -/
def Obligations.TruncatedStreamIsMalformed : Prop :=
  ∀ (s : State) (bytes : List Sym) (k : Nat) (part rest : List Digit), Inv s → s.err = .none → s.phase = .coded →
    (∀ b ∈ bytes, (s.codeAt b.toNat).valid = true) → (s.codeAt k).valid = true →
    s.codeOf k = part ++ rest → part ≠ [] → rest ≠ [] →
      let stream := s.encodeBytes bytes ++ part
      ∃ t, execAll (.dbeg :: stream.map .dec ++ [.dend]) s = .next t ∧
        t.err = .malformed ∧ t.errSym = 0 ∧ t.errPos = BitVec.ofNat 64 (min stream.length (2 ^ 64 - 1)) ∧
        t.errCmd = 0x9000 ∧ t.ddone = false ∧ t.decodedResult = none

/-! ### Read-back (spec/46_readback.md) and listing records -/

/-- RDR (R171, with the map of R21 and the response of R73): every register, in every phase and while faulted, changing
nothing but RSP; a reserved number is an illegal word. -/
def Obligations.RdrReadsEveryRegister : Prop :=
  (∀ reg : BitVec 4, encode (.rdr reg) = 0xA000 ||| reg.setWidth 16) ∧
  ∀ s : State,
    let answers := fun (reg : BitVec 4) (v : Nat) => exec (.rdr reg) s =
      .next { s with rsp := some (BitVec.ofNat 272 v), ports := s.ports ++ [.rsp (BitVec.ofNat 272 v)] }
    answers 0 ((match s.phase with | .count => 0 | .built => 1 | .coded => 2) +
      (if s.empty then 4 else 0) + (if s.single then 8 else 0) + (if s.ddone then 16 else 0) +
      (if s.err = .none then 0 else 32)) ∧
    answers 1 (match s.err with
      | .none => 0 | .illegal => 1 | .sequence => 2 | .overflow => 3 | .missingCode => 4 | .malformed => 5) ∧
    answers 2 s.errSym.toNat ∧ answers 3 s.errPos.toNat ∧ answers 4 s.errCmd.toNat ∧
    answers 5 s.total.toNat ∧ answers 6 s.nsym.toNat ∧ answers 7 s.root.toNat ∧ answers 8 s.nint.toNat ∧
    answers 9 s.epos.toNat ∧ answers 10 s.dpos.toNat ∧ answers 11 s.dcur.toNat ∧
    ∀ reg : BitVec 4, 12 ≤ reg.toNat →
      (s.err = .none → exec (.rdr reg) s =
        .next { s with err := .illegal, errSym := 0, errPos := 0, errCmd := encode (.rdr reg) }) ∧
      (s.err ≠ .none → exec (.rdr reg) s = .next s)

/-- RDF (R172). -/
def Obligations.RdfReadsAFrequency : Prop :=
  ∀ (s : State) (sym : Sym), encode (.rdf sym) = 0xB000 ||| sym.setWidth 16 ∧
    exec (.rdf sym) s = .next { s with
      rsp := some (BitVec.ofNat 272 (s.freqAt sym.toNat).toNat)
      ports := s.ports ++ [.rsp (BitVec.ofNat 272 (s.freqAt sym.toNat).toNat)] }

/-- RDC (R173, R75): one response with VALID at bit 0, LEN at [9:1], zero at [15:10] and BITS from bit 16. -/
def Obligations.RdcReadsACode : Prop :=
  ∀ (s : State) (sym : Sym), encode (.rdc sym) = 0xC000 ||| sym.setWidth 16 ∧
    ∃ w : Response, exec (.rdc sym) s = .next { s with rsp := some w, ports := s.ports ++ [.rsp w] } ∧
      w.getLsbD 0 = (s.codeAt sym.toNat).valid ∧ w.extractLsb' 1 9 = (s.codeAt sym.toNat).len ∧
      w.extractLsb' 10 6 = 0 ∧ ∀ i, i < 256 → w.getLsbD (16 + i) = (s.codeAt sym.toNat).bits.getLsbD i

/-- RDN (R174, R74): one response with the fields of the entry; index 511, which is no entry, answers 0. -/
def Obligations.RdnReadsANode : Prop :=
  ∀ (s : State) (idx : Idx), encode (.rdn idx) = 0xD000 ||| idx.setWidth 16 ∧
    ∃ w : Response, exec (.rdn idx) s = .next { s with rsp := some w, ports := s.ports ++ [.rsp w] } ∧
      (idx = 511 → w = 0) ∧
      (idx ≠ 511 →
        let n := s.nodeAt idx.toNat
        w.getLsbD 0 = n.valid ∧ w.getLsbD 1 = n.leaf ∧ w.extractLsb' 2 8 = n.sym ∧ w.extractLsb' 10 9 = n.left ∧
        w.extractLsb' 19 9 = n.right ∧ w.extractLsb' 28 4 = 0 ∧ w.extractLsb' 32 32 = n.weight ∧
        w.extractLsb' 64 208 = 0)

/-- Reads have no side effects (R47, R170): a read-back changes nothing but RSP, emits one `rsp` event, and reading again
answers the same. -/
def Obligations.ReadBackChangesOnlyTheResponse : Prop :=
  ∀ (i : Instr) (s : State), isReadBack i = true → i.wellFormed = true →
    ∃ w : Response, exec i s = .next { s with rsp := some w, ports := s.ports ++ [.rsp w] } ∧
      ∀ (j : Instr) (t : State), isReadBack j = true → j.wellFormed = true → exec j s = .next t →
        exec i t = .next { t with rsp := some w, ports := t.ports ++ [.rsp w] }

/-- A listing record as one word (R76): SYM at [7:0], LEN at [16:8], BITS from bit 17. -/
def Obligations.ListingWordLayout : Prop :=
  ∀ r : ListRecord, r.word.extractLsb' 0 8 = r.sym ∧ r.word.extractLsb' 8 9 = r.len ∧
    ∀ i, i < 256 → r.word.getLsbD (17 + i) = r.bits.getLsbD i

/-! ### The whole machine -/

/-- Immutability by phase (R54): but for CLR, FREQ, TOTAL and NSYM change only in COUNT; NODE, ROOT, NINT, EMPTY and
SINGLE only by BLD; CODE only by GEN. -/
def Obligations.TablesChangeOnlyInTheirPhase : Prop :=
  ∀ (i : Instr) (s t : State), exec i s = .next t → i ≠ .clr →
    (s.phase ≠ .count → t.freq = s.freq ∧ t.total = s.total ∧ t.nsym = s.nsym) ∧
    (¬ (i = .bld ∧ s.phase = .count) →
      t.node = s.node ∧ t.root = s.root ∧ t.nint = s.nint ∧ t.empty = s.empty ∧ t.single = s.single) ∧
    (¬ (i = .gen ∧ s.phase = .built) → t.code = s.code)

/-- Each register and log is written only by the commands its rule names (R12, R15, R17, R18, R27). -/
def Obligations.RegistersChangeOnlyByTheirCommands : Prop :=
  ∀ (i : Instr) (s t : State), exec i s = .next t → i ≠ .clr →
    (t.total ≠ s.total ∨ t.nsym ≠ s.nsym ∨ t.freq ≠ s.freq → ∃ sym, i = .cnt sym) ∧
    (t.epos ≠ s.epos ∨ t.eout ≠ s.eout → i = .gen ∨ i = .ebeg ∨ ∃ sym, i = .enc sym) ∧
    (t.dpos ≠ s.dpos ∨ t.dcur ≠ s.dcur ∨ t.dout ≠ s.dout → i = .bld ∨ i = .dbeg ∨ ∃ bit, i = .dec bit) ∧
    (t.ddone ≠ s.ddone → i = .bld ∨ i = .dbeg ∨ i = .dend) ∧
    (t.lout ≠ s.lout → i = .lst) ∧
    (t.rsp ≠ s.rsp → isReadBack i = true) ∧ t.input = s.input

/-- Output events (R52): what has left the ports stays, and one command emits on at most one stream: ENC on `enc` the
digits of a code in order, DEC at most one event on `dec`, LST on `lst`, a read-back one event on `rsp`. -/
def Obligations.OneCommandEmitsOnOneStream : Prop :=
  ∀ (i : Instr) (s t : State), exec i s = .next t →
    t.ports = s.ports ∨
    (∃ sym, i = .enc sym ∧ t.ports = s.ports ++ (s.codeOf sym.toNat).map .enc ∧
      t.eout = s.eout ++ s.codeOf sym.toNat) ∨
    ((∃ bit, i = .dec bit) ∧ ∃ sym : Sym, t.ports = s.ports ++ [.dec sym] ∧ t.dout = s.dout ++ [sym]) ∨
    (i = .lst ∧ t.ports = s.ports ++ t.lout.map .lst) ∨
    (isReadBack i = true ∧ ∃ w : Response, t.ports = s.ports ++ [.rsp w] ∧ t.rsp = some w)

/-- Every step keeps the tables in canonical form (the model's own form of the tables, log entry 5). -/
def Obligations.EveryStepKeepsTheTablesCanonical : Prop :=
  ∀ s t : State, Memory.wf s = true → step s = .next t → Memory.wf t = true

/-- The invariants of R29 to R32 hold in the reset state. -/
def Obligations.ResetMeetsTheInvariants : Prop := Inv State.reset

/-- Every step keeps the invariants of R29 to R32. -/
def Obligations.EveryStepKeepsTheInvariants : Prop :=
  ∀ s t : State, Inv s → step s = .next t → Inv t

/-- A step is total (R5): where the invariants hold, the block takes a step, whatever the host presents; none of the
model's own faults can happen. -/
def Obligations.EveryStepIsTaken : Prop :=
  ∀ s : State, Inv s → ∃ t, step s = .next t

/-- Where the model stops (log entries 6, 7, 8): the model's own choice, at states that R29 to R32 rule out. -/
def Obligations.ModelFaultsOutsideTheInvariants : Prop :=
  ∀ s : State, s.err = .none →
    (s.phase = .count → s.nsym.toNat ≠ (symbols s.freq).length → exec .bld s = .fault .alphabetCount) ∧
    (s.phase = .built → deriveCodes s = none → exec .gen s = .fault .walkTooDeep) ∧
    (s.phase ≠ .count → s.ddone = false → s.root ≠ 511 → s.dcur = 511 →
      ∀ bit, exec (.dec bit) s = .fault .nodeNil)

end
end

