-- ==== Sys2Proof/Laws/Table.lean ====
section
/-! SUPPORT. The laws of the table operations: what a read answers after a write, that every operation keeps the
canonical form, and that tables in canonical form with the same entries are the same list. -/

namespace Sys2Proof.Machine

variable {α : Type}

@[simp] theorem Table.read_nil (z : α) (k : Nat) : Table.read z [] k = z := rfl

theorem Table.read_cons (z : α) (e : Nat × α) (t : List (Nat × α)) (k : Nat) :
    Table.read z (e :: t) k = if e.1 = k then e.2 else Table.read z t k := rfl

/-- An index that no entry lists reads as the all-zero entry. -/
theorem Table.read_of_not_mem (z : α) (t : List (Nat × α)) (k : Nat) (h : ∀ e ∈ t, e.1 ≠ k) :
    Table.read z t k = z := by
  induction t with
  | nil => rfl
  | cons e t ih =>
    rw [Table.read_cons, if_neg (h e (by simp)), ih fun e' he' => h e' (by simp [he'])]

/-- A read answers an entry of the table or the all-zero entry. -/
theorem Table.read_mem_or (z : α) (t : List (Nat × α)) (k : Nat) :
    (k, Table.read z t k) ∈ t ∨ Table.read z t k = z := by
  induction t with
  | nil => simp
  | cons e t ih =>
    rw [Table.read_cons]
    by_cases h : e.1 = k
    · rw [if_pos h, ← h]; simp
    · rw [if_neg h]; rcases ih with ih | ih
      · exact .inl (List.mem_cons_of_mem _ ih)
      · exact .inr ih

theorem Table.read_drop (z : α) (t : List (Nat × α)) (k j : Nat) :
    Table.read z (Table.drop t k) j = if j = k then z else Table.read z t j := by
  induction t with
  | nil => simp [Table.drop]
  | cons e t ih =>
    unfold Table.drop at ih ⊢
    by_cases h : e.1 = k
    · rw [List.filter_cons_of_neg (by simp [h]), ih, Table.read_cons, h]
      by_cases hj : j = k
      · simp [hj]
      · simp [hj, Ne.symm hj]
    · rw [List.filter_cons_of_pos (by simp [h]), Table.read_cons, ih, Table.read_cons]
      by_cases hj : e.1 = j
      · have : j ≠ k := hj ▸ h
        simp [hj, this]
      · simp [hj]

theorem Table.not_mem_drop (t : List (Nat × α)) (k : Nat) : ∀ e ∈ Table.drop t k, e.1 ≠ k := by
  intro e he
  simpa using (List.mem_filter.1 he).2

theorem Table.read_put (z : α) (t : List (Nat × α)) (k : Nat) (v : α) (j : Nat) (h : ∀ e ∈ t, e.1 ≠ k) :
    Table.read z (Table.put t k v) j = if j = k then v else Table.read z t j := by
  induction t with
  | nil =>
    simp only [Table.put, Table.read_cons, Table.read_nil]
    by_cases hj : j = k
    · simp [hj]
    · simp [hj, Ne.symm hj]
  | cons e t ih =>
    obtain ⟨i, u⟩ := e
    have hi : i ≠ k := h (i, u) (by simp)
    simp only [Table.put]
    split
    · simp only [Table.read_cons]
      by_cases hj : j = k
      · simp [hj]
      · simp [hj, Ne.symm hj]
    · simp only [Table.read_cons, ih fun e' he' => h e' (by simp [he'])]
      by_cases hj : i = j
      · have : j ≠ k := hj ▸ hi
        simp [hj, this]
      · simp [hj]

/-- What a read answers after a write, for every table. -/
theorem Table.read_write [DecidableEq α] (z : α) (t : List (Nat × α)) (k : Nat) (v : α) (j : Nat) :
    Table.read z (Table.write z t k v) j = if j = k then v else Table.read z t j := by
  unfold Table.write
  split
  · next h => rw [Table.read_drop, h]
  · rw [Table.read_put z _ k v j (Table.not_mem_drop t k), Table.read_drop]
    by_cases hj : j = k <;> simp [hj]

@[simp] theorem Table.read_write_same [DecidableEq α] (z : α) (t : List (Nat × α)) (k : Nat) (v : α) :
    Table.read z (Table.write z t k v) k = v := by simp [Table.read_write]

theorem Table.read_write_other [DecidableEq α] (z : α) (t : List (Nat × α)) (k : Nat) (v : α) (j : Nat) (h : j ≠ k) :
    Table.read z (Table.write z t k v) j = Table.read z t j := by simp [Table.read_write, h]

/-! ### The canonical form -/

theorem Table.wf_iff [DecidableEq α] (z : α) (size : Nat) (t : List (Nat × α)) :
    Table.wf z size t = true ↔
      t.Pairwise (fun a b => a.1 < b.1) ∧ ∀ e ∈ t, e.1 < size ∧ e.2 ≠ z := by
  simp [Table.wf]

@[simp] theorem Table.wf_nil [DecidableEq α] (z : α) (size : Nat) : Table.wf z size [] = true := by
  simp [Table.wf]

theorem Table.mem_put (t : List (Nat × α)) (k : Nat) (v : α) (e : Nat × α) :
    e ∈ Table.put t k v ↔ e = (k, v) ∨ e ∈ t := by
  induction t with
  | nil => simp [Table.put]
  | cons d t ih =>
    obtain ⟨j, u⟩ := d
    simp only [Table.put]
    split
    · simp
    · simp only [List.mem_cons, ih]; tauto

theorem Table.put_sorted (t : List (Nat × α)) (k : Nat) (v : α) (h : t.Pairwise (fun a b => a.1 < b.1))
    (hk : ∀ e ∈ t, e.1 ≠ k) : (Table.put t k v).Pairwise (fun a b => a.1 < b.1) := by
  induction t with
  | nil => simp [Table.put]
  | cons d t ih =>
    obtain ⟨j, u⟩ := d
    rw [List.pairwise_cons] at h
    simp only [Table.put]
    split
    · next hlt =>
      rw [List.pairwise_cons, List.pairwise_cons]
      refine ⟨fun e he => ?_, h⟩
      rcases List.mem_cons.1 he with rfl | he
      · exact hlt
      · exact Nat.lt_trans hlt (h.1 e he)
    · next hlt =>
      have hj : j ≠ k := hk (j, u) (by simp)
      rw [List.pairwise_cons]
      refine ⟨fun e he => ?_, ih h.2 fun e he => hk e (by simp [he])⟩
      rcases (Table.mem_put t k v e).1 he with rfl | he
      · show j < k
        omega
      · exact h.1 e he

/-- A write keeps the canonical form. -/
theorem Table.wf_write [DecidableEq α] (z : α) (size : Nat) (t : List (Nat × α)) (k : Nat) (v : α)
    (h : Table.wf z size t = true) (hk : k < size) : Table.wf z size (Table.write z t k v) = true := by
  rw [Table.wf_iff] at h ⊢
  have hd : (Table.drop t k).Pairwise (fun a b => a.1 < b.1) ∧ ∀ e ∈ Table.drop t k, e.1 < size ∧ e.2 ≠ z :=
    ⟨h.1.filter _, fun e he => h.2 e (List.mem_filter.1 he).1⟩
  unfold Table.write
  split
  · exact hd
  · next hv =>
    refine ⟨Table.put_sorted _ k v hd.1 (Table.not_mem_drop t k), fun e he => ?_⟩
    rcases (Table.mem_put _ k v e).1 he with rfl | he
    · exact ⟨hk, hv⟩
    · exact hd.2 e he

/-- In a table in canonical form, an index past the end reads as the all-zero entry. -/
theorem Table.read_past_end [DecidableEq α] (z : α) (size : Nat) (t : List (Nat × α)) (k : Nat)
    (h : Table.wf z size t = true) (hk : size ≤ k) : Table.read z t k = z :=
  Table.read_of_not_mem z t k fun e he => by
    have := (((Table.wf_iff z size t).1 h).2 e he).1
    omega

/-- Tables in canonical form that read alike are the same list. -/
theorem Table.ext [DecidableEq α] (z : α) (size : Nat) (t u : List (Nat × α)) (ht : Table.wf z size t = true)
    (hu : Table.wf z size u = true) (h : ∀ k, Table.read z t k = Table.read z u k) : t = u := by
  rw [Table.wf_iff] at ht hu
  obtain ⟨hts, htz⟩ := ht
  obtain ⟨hus, huz⟩ := hu
  induction t generalizing u with
  | nil =>
    cases u with
    | nil => rfl
    | cons d u =>
      have := h d.1
      rw [Table.read_nil, Table.read_cons, if_pos rfl] at this
      exact absurd this.symm (huz d (by simp)).2
  | cons e t ih =>
    rw [List.pairwise_cons] at hts
    have past : ∀ (k : Nat) (l : List (Nat × α)), (∀ x ∈ l, k < x.1) → Table.read z l k = z := fun k l hl =>
      Table.read_of_not_mem z l k fun x hx => by have := hl x hx; omega
    cases u with
    | nil =>
      have := h e.1
      rw [Table.read_nil, Table.read_cons, if_pos rfl] at this
      exact absurd this (htz e (by simp)).2
    | cons d u =>
      rw [List.pairwise_cons] at hus
      have hkey : e.1 = d.1 := by
        rcases Nat.lt_trichotomy e.1 d.1 with hlt | heq | hgt
        · have := h e.1
          rw [Table.read_cons, if_pos rfl, Table.read_cons, if_neg (by omega),
            past e.1 u fun x hx => Nat.lt_trans hlt (hus.1 x hx)] at this
          exact absurd this (htz e (by simp)).2
        · exact heq
        · have := h d.1
          rw [Table.read_cons, if_neg (by omega), Table.read_cons, if_pos rfl,
            past d.1 t fun x hx => Nat.lt_trans hgt (hts.1 x hx)] at this
          exact absurd this.symm (huz d (by simp)).2
      have hval : e.2 = d.2 := by
        have := h e.1
        rwa [Table.read_cons, if_pos rfl, Table.read_cons, if_pos hkey.symm] at this
      have htail : ∀ k, Table.read z t k = Table.read z u k := fun k => by
        by_cases hk : e.1 = k
        · rw [past k t fun x hx => hk ▸ hts.1 x hx, past k u fun x hx => by rw [← hk, hkey]; exact hus.1 x hx]
        · have := h k
          rwa [Table.read_cons, if_neg hk, Table.read_cons, if_neg (hkey ▸ hk)] at this
      rw [ih u htail hts.2 (fun x hx => htz x (by simp [hx])) hus.2 (fun x hx => huz x (by simp [hx])),
        Prod.ext hkey hval]

/-! ### The three tables of a state -/

theorem Memory.wf_iff (s : State) :
    Memory.wf s = true ↔ Table.wf 0#32 Config.nSym s.freq = true ∧ Table.wf Node.zero Config.nNode s.node = true ∧
      Table.wf Code.zero Config.nSym s.code = true := by
  simp [Memory.wf, and_assoc]

/-- The tables of the reset state are in canonical form. -/
theorem Memory.wf_reset : Memory.wf State.reset = true := by decide

end Sys2Proof.Machine
end

