-- ==== Sys2Proof/Laws/CodeTable.lean ====
section
/-! SUPPORT. What the parts of GEN do: packing a path (spec/43_code_table_generator.md R123), and the walk (R121), which
writes at each symbol the path to its leaf. -/

namespace Sys2Proof.Machine

/-! ### Packing a path -/

theorem getLsbD_pack (path : List Digit) (i : Nat) (hi : i < 256) :
    (pack path).getLsbD i = path.getD i false := by
  unfold pack
  rw [BitVec.getLsbD_setWidth, BitVec.getLsbD_ofBoolListLE]
  simp [hi]

/-- Packing and reading back gives the path (R123). -/
theorem digits_codeOfPath (path : List Digit) (h : path.length ≤ 256) : (codeOfPath path).digits = path := by
  have hlen : (codeOfPath path).len.toNat = path.length := by
    simp only [codeOfPath, BitVec.toNat_ofNat]; omega
  refine List.ext_getElem ?_ fun i h1 h2 => ?_
  · simp [Code.digits, hlen]
  · simp only [Code.digits, List.getElem_map, List.getElem_range]
    show (pack path).getLsbD i = _
    rw [getLsbD_pack path i (by omega), List.getD_eq_getElem _ _ h2]

theorem length_digits (c : Code) : c.digits.length = c.len.toNat := by simp [Code.digits]

/-! ### The walk -/

/-- Walking `path` from `i` reaches a leaf of symbol `k`, through nodes that are no leaves. -/
def leafPath (nodes : List (Nat × Node)) : Idx → List Digit → Nat → Prop
  | i, [], k => i ≠ Config.nil ∧ (Table.read Node.zero nodes i.toNat).leaf = true ∧
      (Table.read Node.zero nodes i.toNat).sym.toNat = k
  | i, b :: path, k => i ≠ Config.nil ∧ (Table.read Node.zero nodes i.toNat).leaf = false ∧
      leafPath nodes ((Table.read Node.zero nodes i.toNat).child b) path k

/-- The three cases of the walk, at every depth. -/
theorem walk_eq (nodes : List (Nat × Node)) (depth : Nat) (i : Idx) (path : List Digit) (codes : List (Nat × Code)) :
    walk nodes depth i path codes =
      if i = Config.nil then some codes
      else if (Table.read Node.zero nodes i.toNat).leaf then
        some (Table.write Code.zero codes (Table.read Node.zero nodes i.toNat).sym.toNat (codeOfPath path))
      else match depth with
        | 0 => none
        | d + 1 =>
          (walk nodes d (Table.read Node.zero nodes i.toNat).left (path ++ [false]) codes).bind
            (walk nodes d (Table.read Node.zero nodes i.toNat).right (path ++ [true])) := by
  cases depth with
  | zero => rfl
  | succ d =>
    simp only [walk]
    split
    · rfl
    · split
      · rfl
      · cases walk nodes d (Table.read Node.zero nodes i.toNat).left (path ++ [false]) codes <;> rfl

/-- What a walk that ends has written: the entry of every symbol with a leaf below is the path to such a leaf, and no
other entry has changed (R120, R121). -/
theorem walk_spec (nodes : List (Nat × Node)) (depth : Nat) :
    ∀ (i : Idx) (path : List Digit) (codes codes' : List (Nat × Code)),
      walk nodes depth i path codes = some codes' → ∀ k,
        (∃ p, leafPath nodes i p k ∧ p.length ≤ depth ∧
          Table.read Code.zero codes' k = codeOfPath (path ++ p)) ∨
        ((∀ p, ¬ leafPath nodes i p k) ∧ Table.read Code.zero codes' k = Table.read Code.zero codes k) := by
  induction depth with
  | zero =>
    intro i path codes codes' h k
    rw [walk_eq] at h
    split at h
    · next hn =>
      cases h
      exact .inr ⟨fun p hp => by cases p <;> exact hp.1 hn, rfl⟩
    · next hn =>
      split at h
      · next hl =>
        cases h
        by_cases hk : k = (Table.read Node.zero nodes i.toNat).sym.toNat
        · exact .inl ⟨[], ⟨hn, hl, hk.symm⟩, by simp, by rw [hk, Table.read_write_same, List.append_nil]⟩
        · refine .inr ⟨fun p hp => ?_, Table.read_write_other _ _ _ _ _ hk⟩
          cases p with
          | nil => exact hk hp.2.2.symm
          | cons b p => have := hp.2.1; rw [hl] at this; cases this
      · cases h
  | succ d ih =>
    intro i path codes codes' h k
    rw [walk_eq] at h
    split at h
    · next hn =>
      cases h
      exact .inr ⟨fun p hp => by cases p <;> exact hp.1 hn, rfl⟩
    · next hn =>
      split at h
      · next hl =>
        cases h
        by_cases hk : k = (Table.read Node.zero nodes i.toNat).sym.toNat
        · exact .inl ⟨[], ⟨hn, hl, hk.symm⟩, by simp, by rw [hk, Table.read_write_same, List.append_nil]⟩
        · refine .inr ⟨fun p hp => ?_, Table.read_write_other _ _ _ _ _ hk⟩
          cases p with
          | nil => exact hk hp.2.2.symm
          | cons b p => have := hp.2.1; rw [hl] at this; cases this
      · next hl =>
        have hl : (Table.read Node.zero nodes i.toNat).leaf = false := Bool.eq_false_iff.2 hl
        obtain ⟨mid, hm, hm'⟩ := Option.bind_eq_some_iff.1 h
        have hleft := ih _ _ _ _ hm k
        have hright := ih _ _ _ _ hm' k
        rcases hright with ⟨p, hp, hlen, hr⟩ | ⟨hno, hr⟩
        · refine .inl ⟨true :: p, ⟨hn, hl, hp⟩, by simpa using hlen, ?_⟩
          rw [hr, List.append_assoc]; rfl
        · rcases hleft with ⟨p, hp, hlen, hr'⟩ | ⟨hno', hr'⟩
          · refine .inl ⟨false :: p, ⟨hn, hl, hp⟩, by simpa using hlen, ?_⟩
            rw [hr, hr', List.append_assoc]; rfl
          · refine .inr ⟨fun p hp => ?_, hr.trans hr'⟩
            cases p with
            | nil => have := hp.2.1; rw [hl] at this; cases this
            | cons b p =>
              cases b with
              | false => exact hno' p hp.2.2
              | true => exact hno p hp.2.2

/-- A walk keeps the code table in canonical form. -/
theorem wf_walk (nodes : List (Nat × Node)) (depth : Nat) :
    ∀ (i : Idx) (path : List Digit) (codes codes' : List (Nat × Code)),
      walk nodes depth i path codes = some codes' → Table.wf Code.zero Config.nSym codes = true →
        Table.wf Code.zero Config.nSym codes' = true := by
  have leafCase : ∀ (codes : List (Nat × Code)) (x : Sym) (path : List Digit),
      Table.wf Code.zero Config.nSym codes = true →
        Table.wf Code.zero Config.nSym (Table.write Code.zero codes x.toNat (codeOfPath path)) = true :=
    fun codes x path h => Table.wf_write _ _ _ _ _ h x.isLt
  induction depth with
  | zero =>
    intro i path codes codes' h hw
    rw [walk_eq] at h
    split at h
    · cases h; exact hw
    · split at h
      · cases h; exact leafCase _ _ _ hw
      · cases h
  | succ d ih =>
    intro i path codes codes' h hw
    rw [walk_eq] at h
    split at h
    · cases h; exact hw
    · split at h
      · cases h; exact leafCase _ _ _ hw
      · obtain ⟨mid, hm, hm'⟩ := Option.bind_eq_some_iff.1 h
        exact ih _ _ _ _ hm' (ih _ _ _ _ hm hw)

theorem wf_deriveCodes {s : State} {codes : List (Nat × Code)} (h : deriveCodes s = some codes) :
    Table.wf Code.zero Config.nSym codes = true :=
  wf_walk _ _ _ _ _ _ h (Table.wf_nil _ _)

/-- Where every internal node has smaller children, the walk ends: a path leaves internal nodes of falling indices, 510
at most and 256 at least (R109). -/
theorem walk_isSome (nodes : List (Nat × Node))
    (hchild : ∀ i : Idx, i ≠ Config.nil → (Table.read Node.zero nodes i.toNat).valid = true →
      (Table.read Node.zero nodes i.toNat).leaf = false → 256 ≤ i.toNat ∧ ∀ b,
        let c := (Table.read Node.zero nodes i.toNat).child b
        c = Config.nil ∨ (c.toNat < i.toNat ∧ (Table.read Node.zero nodes c.toNat).valid = true))
    (depth : Nat) : ∀ (i : Idx) (path : List Digit) (codes : List (Nat × Code)),
      i = Config.nil ∨ ((Table.read Node.zero nodes i.toNat).valid = true ∧ i.toNat ≤ 255 + depth) →
        ∃ codes', walk nodes depth i path codes = some codes' := by
  induction depth with
  | zero =>
    intro i path codes hi
    rw [walk_eq]
    split
    · exact ⟨_, rfl⟩
    · next hn =>
      obtain ⟨hv, hle⟩ := hi.resolve_left hn
      split
      · exact ⟨_, rfl⟩
      · next hl => have := (hchild i hn hv (Bool.eq_false_iff.2 hl)).1; omega
  | succ d ih =>
    intro i path codes hi
    rw [walk_eq]
    split
    · exact ⟨_, rfl⟩
    · next hn =>
      obtain ⟨hv, hle⟩ := hi.resolve_left hn
      split
      · exact ⟨_, rfl⟩
      · next hl =>
        have hc := (hchild i hn hv (Bool.eq_false_iff.2 hl)).2
        have side : ∀ b (path : List Digit) codes,
            ∃ codes', walk nodes d ((Table.read Node.zero nodes i.toNat).child b) path codes = some codes' := by
          intro b path codes
          refine ih _ path codes ((hc b).imp_right fun h => ⟨h.2, ?_⟩)
          have := h.1; omega
        obtain ⟨mid, hm⟩ := side false (path ++ [false]) codes
        obtain ⟨codes', hm'⟩ := side true (path ++ [true]) mid
        refine ⟨codes', Option.bind_eq_some_iff.2 ⟨mid, hm, hm'⟩⟩

end Sys2Proof.Machine
end

