-- ==== Sys2Proof/Laws/State.lean ====
section
/-! SUPPORT. For each named update of State, what it leaves in each field: true by rfl, and tagged for simp, so that no
later proof unfolds a record update. -/

namespace Sys2Proof.Machine

/-! ### State.emitEnc -/

@[simp] theorem State.emitEnc_phase (s : State) (bit : Digit) : (s.emitEnc bit).phase = s.phase := rfl
@[simp] theorem State.emitEnc_empty (s : State) (bit : Digit) : (s.emitEnc bit).empty = s.empty := rfl
@[simp] theorem State.emitEnc_single (s : State) (bit : Digit) : (s.emitEnc bit).single = s.single := rfl
@[simp] theorem State.emitEnc_ddone (s : State) (bit : Digit) : (s.emitEnc bit).ddone = s.ddone := rfl
@[simp] theorem State.emitEnc_err (s : State) (bit : Digit) : (s.emitEnc bit).err = s.err := rfl
@[simp] theorem State.emitEnc_errSym (s : State) (bit : Digit) : (s.emitEnc bit).errSym = s.errSym := rfl
@[simp] theorem State.emitEnc_errPos (s : State) (bit : Digit) : (s.emitEnc bit).errPos = s.errPos := rfl
@[simp] theorem State.emitEnc_errCmd (s : State) (bit : Digit) : (s.emitEnc bit).errCmd = s.errCmd := rfl
@[simp] theorem State.emitEnc_total (s : State) (bit : Digit) : (s.emitEnc bit).total = s.total := rfl
@[simp] theorem State.emitEnc_nsym (s : State) (bit : Digit) : (s.emitEnc bit).nsym = s.nsym := rfl
@[simp] theorem State.emitEnc_root (s : State) (bit : Digit) : (s.emitEnc bit).root = s.root := rfl
@[simp] theorem State.emitEnc_nint (s : State) (bit : Digit) : (s.emitEnc bit).nint = s.nint := rfl
@[simp] theorem State.emitEnc_epos (s : State) (bit : Digit) : (s.emitEnc bit).epos = s.epos := rfl
@[simp] theorem State.emitEnc_dpos (s : State) (bit : Digit) : (s.emitEnc bit).dpos = s.dpos := rfl
@[simp] theorem State.emitEnc_dcur (s : State) (bit : Digit) : (s.emitEnc bit).dcur = s.dcur := rfl
@[simp] theorem State.emitEnc_freq (s : State) (bit : Digit) : (s.emitEnc bit).freq = s.freq := rfl
@[simp] theorem State.emitEnc_node (s : State) (bit : Digit) : (s.emitEnc bit).node = s.node := rfl
@[simp] theorem State.emitEnc_code (s : State) (bit : Digit) : (s.emitEnc bit).code = s.code := rfl
@[simp] theorem State.emitEnc_eout (s : State) (bit : Digit) : (s.emitEnc bit).eout = s.eout ++ [bit] := rfl
@[simp] theorem State.emitEnc_dout (s : State) (bit : Digit) : (s.emitEnc bit).dout = s.dout := rfl
@[simp] theorem State.emitEnc_lout (s : State) (bit : Digit) : (s.emitEnc bit).lout = s.lout := rfl
@[simp] theorem State.emitEnc_rsp (s : State) (bit : Digit) : (s.emitEnc bit).rsp = s.rsp := rfl
@[simp] theorem State.emitEnc_input (s : State) (bit : Digit) : (s.emitEnc bit).input = s.input := rfl
@[simp] theorem State.emitEnc_ports (s : State) (bit : Digit) :
    (s.emitEnc bit).ports = s.ports ++ [.enc bit] := rfl

/-! ### State.emitDec -/

@[simp] theorem State.emitDec_phase (s : State) (sym : Sym) : (s.emitDec sym).phase = s.phase := rfl
@[simp] theorem State.emitDec_empty (s : State) (sym : Sym) : (s.emitDec sym).empty = s.empty := rfl
@[simp] theorem State.emitDec_single (s : State) (sym : Sym) : (s.emitDec sym).single = s.single := rfl
@[simp] theorem State.emitDec_ddone (s : State) (sym : Sym) : (s.emitDec sym).ddone = s.ddone := rfl
@[simp] theorem State.emitDec_err (s : State) (sym : Sym) : (s.emitDec sym).err = s.err := rfl
@[simp] theorem State.emitDec_errSym (s : State) (sym : Sym) : (s.emitDec sym).errSym = s.errSym := rfl
@[simp] theorem State.emitDec_errPos (s : State) (sym : Sym) : (s.emitDec sym).errPos = s.errPos := rfl
@[simp] theorem State.emitDec_errCmd (s : State) (sym : Sym) : (s.emitDec sym).errCmd = s.errCmd := rfl
@[simp] theorem State.emitDec_total (s : State) (sym : Sym) : (s.emitDec sym).total = s.total := rfl
@[simp] theorem State.emitDec_nsym (s : State) (sym : Sym) : (s.emitDec sym).nsym = s.nsym := rfl
@[simp] theorem State.emitDec_root (s : State) (sym : Sym) : (s.emitDec sym).root = s.root := rfl
@[simp] theorem State.emitDec_nint (s : State) (sym : Sym) : (s.emitDec sym).nint = s.nint := rfl
@[simp] theorem State.emitDec_epos (s : State) (sym : Sym) : (s.emitDec sym).epos = s.epos := rfl
@[simp] theorem State.emitDec_dpos (s : State) (sym : Sym) : (s.emitDec sym).dpos = s.dpos := rfl
@[simp] theorem State.emitDec_dcur (s : State) (sym : Sym) : (s.emitDec sym).dcur = s.dcur := rfl
@[simp] theorem State.emitDec_freq (s : State) (sym : Sym) : (s.emitDec sym).freq = s.freq := rfl
@[simp] theorem State.emitDec_node (s : State) (sym : Sym) : (s.emitDec sym).node = s.node := rfl
@[simp] theorem State.emitDec_code (s : State) (sym : Sym) : (s.emitDec sym).code = s.code := rfl
@[simp] theorem State.emitDec_eout (s : State) (sym : Sym) : (s.emitDec sym).eout = s.eout := rfl
@[simp] theorem State.emitDec_dout (s : State) (sym : Sym) : (s.emitDec sym).dout = s.dout ++ [sym] := rfl
@[simp] theorem State.emitDec_lout (s : State) (sym : Sym) : (s.emitDec sym).lout = s.lout := rfl
@[simp] theorem State.emitDec_rsp (s : State) (sym : Sym) : (s.emitDec sym).rsp = s.rsp := rfl
@[simp] theorem State.emitDec_input (s : State) (sym : Sym) : (s.emitDec sym).input = s.input := rfl
@[simp] theorem State.emitDec_ports (s : State) (sym : Sym) :
    (s.emitDec sym).ports = s.ports ++ [.dec sym] := rfl

/-! ### State.emitLst -/

@[simp] theorem State.emitLst_phase (s : State) (r : ListRecord) : (s.emitLst r).phase = s.phase := rfl
@[simp] theorem State.emitLst_empty (s : State) (r : ListRecord) : (s.emitLst r).empty = s.empty := rfl
@[simp] theorem State.emitLst_single (s : State) (r : ListRecord) : (s.emitLst r).single = s.single := rfl
@[simp] theorem State.emitLst_ddone (s : State) (r : ListRecord) : (s.emitLst r).ddone = s.ddone := rfl
@[simp] theorem State.emitLst_err (s : State) (r : ListRecord) : (s.emitLst r).err = s.err := rfl
@[simp] theorem State.emitLst_errSym (s : State) (r : ListRecord) : (s.emitLst r).errSym = s.errSym := rfl
@[simp] theorem State.emitLst_errPos (s : State) (r : ListRecord) : (s.emitLst r).errPos = s.errPos := rfl
@[simp] theorem State.emitLst_errCmd (s : State) (r : ListRecord) : (s.emitLst r).errCmd = s.errCmd := rfl
@[simp] theorem State.emitLst_total (s : State) (r : ListRecord) : (s.emitLst r).total = s.total := rfl
@[simp] theorem State.emitLst_nsym (s : State) (r : ListRecord) : (s.emitLst r).nsym = s.nsym := rfl
@[simp] theorem State.emitLst_root (s : State) (r : ListRecord) : (s.emitLst r).root = s.root := rfl
@[simp] theorem State.emitLst_nint (s : State) (r : ListRecord) : (s.emitLst r).nint = s.nint := rfl
@[simp] theorem State.emitLst_epos (s : State) (r : ListRecord) : (s.emitLst r).epos = s.epos := rfl
@[simp] theorem State.emitLst_dpos (s : State) (r : ListRecord) : (s.emitLst r).dpos = s.dpos := rfl
@[simp] theorem State.emitLst_dcur (s : State) (r : ListRecord) : (s.emitLst r).dcur = s.dcur := rfl
@[simp] theorem State.emitLst_freq (s : State) (r : ListRecord) : (s.emitLst r).freq = s.freq := rfl
@[simp] theorem State.emitLst_node (s : State) (r : ListRecord) : (s.emitLst r).node = s.node := rfl
@[simp] theorem State.emitLst_code (s : State) (r : ListRecord) : (s.emitLst r).code = s.code := rfl
@[simp] theorem State.emitLst_eout (s : State) (r : ListRecord) : (s.emitLst r).eout = s.eout := rfl
@[simp] theorem State.emitLst_dout (s : State) (r : ListRecord) : (s.emitLst r).dout = s.dout := rfl
@[simp] theorem State.emitLst_lout (s : State) (r : ListRecord) : (s.emitLst r).lout = s.lout ++ [r] := rfl
@[simp] theorem State.emitLst_rsp (s : State) (r : ListRecord) : (s.emitLst r).rsp = s.rsp := rfl
@[simp] theorem State.emitLst_input (s : State) (r : ListRecord) : (s.emitLst r).input = s.input := rfl
@[simp] theorem State.emitLst_ports (s : State) (r : ListRecord) :
    (s.emitLst r).ports = s.ports ++ [.lst r] := rfl

/-! ### State.emitRsp -/

@[simp] theorem State.emitRsp_phase (s : State) (w : Response) : (s.emitRsp w).phase = s.phase := rfl
@[simp] theorem State.emitRsp_empty (s : State) (w : Response) : (s.emitRsp w).empty = s.empty := rfl
@[simp] theorem State.emitRsp_single (s : State) (w : Response) : (s.emitRsp w).single = s.single := rfl
@[simp] theorem State.emitRsp_ddone (s : State) (w : Response) : (s.emitRsp w).ddone = s.ddone := rfl
@[simp] theorem State.emitRsp_err (s : State) (w : Response) : (s.emitRsp w).err = s.err := rfl
@[simp] theorem State.emitRsp_errSym (s : State) (w : Response) : (s.emitRsp w).errSym = s.errSym := rfl
@[simp] theorem State.emitRsp_errPos (s : State) (w : Response) : (s.emitRsp w).errPos = s.errPos := rfl
@[simp] theorem State.emitRsp_errCmd (s : State) (w : Response) : (s.emitRsp w).errCmd = s.errCmd := rfl
@[simp] theorem State.emitRsp_total (s : State) (w : Response) : (s.emitRsp w).total = s.total := rfl
@[simp] theorem State.emitRsp_nsym (s : State) (w : Response) : (s.emitRsp w).nsym = s.nsym := rfl
@[simp] theorem State.emitRsp_root (s : State) (w : Response) : (s.emitRsp w).root = s.root := rfl
@[simp] theorem State.emitRsp_nint (s : State) (w : Response) : (s.emitRsp w).nint = s.nint := rfl
@[simp] theorem State.emitRsp_epos (s : State) (w : Response) : (s.emitRsp w).epos = s.epos := rfl
@[simp] theorem State.emitRsp_dpos (s : State) (w : Response) : (s.emitRsp w).dpos = s.dpos := rfl
@[simp] theorem State.emitRsp_dcur (s : State) (w : Response) : (s.emitRsp w).dcur = s.dcur := rfl
@[simp] theorem State.emitRsp_freq (s : State) (w : Response) : (s.emitRsp w).freq = s.freq := rfl
@[simp] theorem State.emitRsp_node (s : State) (w : Response) : (s.emitRsp w).node = s.node := rfl
@[simp] theorem State.emitRsp_code (s : State) (w : Response) : (s.emitRsp w).code = s.code := rfl
@[simp] theorem State.emitRsp_eout (s : State) (w : Response) : (s.emitRsp w).eout = s.eout := rfl
@[simp] theorem State.emitRsp_dout (s : State) (w : Response) : (s.emitRsp w).dout = s.dout := rfl
@[simp] theorem State.emitRsp_lout (s : State) (w : Response) : (s.emitRsp w).lout = s.lout := rfl
@[simp] theorem State.emitRsp_rsp (s : State) (w : Response) : (s.emitRsp w).rsp = some w := rfl
@[simp] theorem State.emitRsp_input (s : State) (w : Response) : (s.emitRsp w).input = s.input := rfl
@[simp] theorem State.emitRsp_ports (s : State) (w : Response) : (s.emitRsp w).ports = s.ports ++ [.rsp w] := rfl

/-! ### State.raise -/

@[simp] theorem State.raise_phase (s : State) (e : ErrCode) (sym : Sym) (pos : Pos) (cmd : Word) :
    (s.raise e sym pos cmd).phase = s.phase := rfl
@[simp] theorem State.raise_empty (s : State) (e : ErrCode) (sym : Sym) (pos : Pos) (cmd : Word) :
    (s.raise e sym pos cmd).empty = s.empty := rfl
@[simp] theorem State.raise_single (s : State) (e : ErrCode) (sym : Sym) (pos : Pos) (cmd : Word) :
    (s.raise e sym pos cmd).single = s.single := rfl
@[simp] theorem State.raise_ddone (s : State) (e : ErrCode) (sym : Sym) (pos : Pos) (cmd : Word) :
    (s.raise e sym pos cmd).ddone = s.ddone := rfl
@[simp] theorem State.raise_err (s : State) (e : ErrCode) (sym : Sym) (pos : Pos) (cmd : Word) :
    (s.raise e sym pos cmd).err = e := rfl
@[simp] theorem State.raise_errSym (s : State) (e : ErrCode) (sym : Sym) (pos : Pos) (cmd : Word) :
    (s.raise e sym pos cmd).errSym = sym := rfl
@[simp] theorem State.raise_errPos (s : State) (e : ErrCode) (sym : Sym) (pos : Pos) (cmd : Word) :
    (s.raise e sym pos cmd).errPos = pos := rfl
@[simp] theorem State.raise_errCmd (s : State) (e : ErrCode) (sym : Sym) (pos : Pos) (cmd : Word) :
    (s.raise e sym pos cmd).errCmd = cmd := rfl
@[simp] theorem State.raise_total (s : State) (e : ErrCode) (sym : Sym) (pos : Pos) (cmd : Word) :
    (s.raise e sym pos cmd).total = s.total := rfl
@[simp] theorem State.raise_nsym (s : State) (e : ErrCode) (sym : Sym) (pos : Pos) (cmd : Word) :
    (s.raise e sym pos cmd).nsym = s.nsym := rfl
@[simp] theorem State.raise_root (s : State) (e : ErrCode) (sym : Sym) (pos : Pos) (cmd : Word) :
    (s.raise e sym pos cmd).root = s.root := rfl
@[simp] theorem State.raise_nint (s : State) (e : ErrCode) (sym : Sym) (pos : Pos) (cmd : Word) :
    (s.raise e sym pos cmd).nint = s.nint := rfl
@[simp] theorem State.raise_epos (s : State) (e : ErrCode) (sym : Sym) (pos : Pos) (cmd : Word) :
    (s.raise e sym pos cmd).epos = s.epos := rfl
@[simp] theorem State.raise_dpos (s : State) (e : ErrCode) (sym : Sym) (pos : Pos) (cmd : Word) :
    (s.raise e sym pos cmd).dpos = s.dpos := rfl
@[simp] theorem State.raise_dcur (s : State) (e : ErrCode) (sym : Sym) (pos : Pos) (cmd : Word) :
    (s.raise e sym pos cmd).dcur = s.dcur := rfl
@[simp] theorem State.raise_freq (s : State) (e : ErrCode) (sym : Sym) (pos : Pos) (cmd : Word) :
    (s.raise e sym pos cmd).freq = s.freq := rfl
@[simp] theorem State.raise_node (s : State) (e : ErrCode) (sym : Sym) (pos : Pos) (cmd : Word) :
    (s.raise e sym pos cmd).node = s.node := rfl
@[simp] theorem State.raise_code (s : State) (e : ErrCode) (sym : Sym) (pos : Pos) (cmd : Word) :
    (s.raise e sym pos cmd).code = s.code := rfl
@[simp] theorem State.raise_eout (s : State) (e : ErrCode) (sym : Sym) (pos : Pos) (cmd : Word) :
    (s.raise e sym pos cmd).eout = s.eout := rfl
@[simp] theorem State.raise_dout (s : State) (e : ErrCode) (sym : Sym) (pos : Pos) (cmd : Word) :
    (s.raise e sym pos cmd).dout = s.dout := rfl
@[simp] theorem State.raise_lout (s : State) (e : ErrCode) (sym : Sym) (pos : Pos) (cmd : Word) :
    (s.raise e sym pos cmd).lout = s.lout := rfl
@[simp] theorem State.raise_rsp (s : State) (e : ErrCode) (sym : Sym) (pos : Pos) (cmd : Word) :
    (s.raise e sym pos cmd).rsp = s.rsp := rfl
@[simp] theorem State.raise_input (s : State) (e : ErrCode) (sym : Sym) (pos : Pos) (cmd : Word) :
    (s.raise e sym pos cmd).input = s.input := rfl
@[simp] theorem State.raise_ports (s : State) (e : ErrCode) (sym : Sym) (pos : Pos) (cmd : Word) :
    (s.raise e sym pos cmd).ports = s.ports := rfl

/-! ### State.malformed -/

@[simp] theorem State.malformed_phase (s : State) (i : Instr) : (s.malformed i).phase = s.phase := rfl
@[simp] theorem State.malformed_empty (s : State) (i : Instr) : (s.malformed i).empty = s.empty := rfl
@[simp] theorem State.malformed_single (s : State) (i : Instr) : (s.malformed i).single = s.single := rfl
@[simp] theorem State.malformed_ddone (s : State) (i : Instr) : (s.malformed i).ddone = s.ddone := rfl
@[simp] theorem State.malformed_err (s : State) (i : Instr) : (s.malformed i).err = .malformed := rfl
@[simp] theorem State.malformed_errSym (s : State) (i : Instr) : (s.malformed i).errSym = 0 := rfl
@[simp] theorem State.malformed_errPos (s : State) (i : Instr) : (s.malformed i).errPos = s.dpos := rfl
@[simp] theorem State.malformed_errCmd (s : State) (i : Instr) : (s.malformed i).errCmd = encode i := rfl
@[simp] theorem State.malformed_total (s : State) (i : Instr) : (s.malformed i).total = s.total := rfl
@[simp] theorem State.malformed_nsym (s : State) (i : Instr) : (s.malformed i).nsym = s.nsym := rfl
@[simp] theorem State.malformed_root (s : State) (i : Instr) : (s.malformed i).root = s.root := rfl
@[simp] theorem State.malformed_nint (s : State) (i : Instr) : (s.malformed i).nint = s.nint := rfl
@[simp] theorem State.malformed_epos (s : State) (i : Instr) : (s.malformed i).epos = s.epos := rfl
@[simp] theorem State.malformed_dpos (s : State) (i : Instr) : (s.malformed i).dpos = s.dpos := rfl
@[simp] theorem State.malformed_dcur (s : State) (i : Instr) : (s.malformed i).dcur = s.dcur := rfl
@[simp] theorem State.malformed_freq (s : State) (i : Instr) : (s.malformed i).freq = s.freq := rfl
@[simp] theorem State.malformed_node (s : State) (i : Instr) : (s.malformed i).node = s.node := rfl
@[simp] theorem State.malformed_code (s : State) (i : Instr) : (s.malformed i).code = s.code := rfl
@[simp] theorem State.malformed_eout (s : State) (i : Instr) : (s.malformed i).eout = s.eout := rfl
@[simp] theorem State.malformed_dout (s : State) (i : Instr) : (s.malformed i).dout = s.dout := rfl
@[simp] theorem State.malformed_lout (s : State) (i : Instr) : (s.malformed i).lout = s.lout := rfl
@[simp] theorem State.malformed_rsp (s : State) (i : Instr) : (s.malformed i).rsp = s.rsp := rfl
@[simp] theorem State.malformed_input (s : State) (i : Instr) : (s.malformed i).input = s.input := rfl
@[simp] theorem State.malformed_ports (s : State) (i : Instr) : (s.malformed i).ports = s.ports := rfl

/-! ### State.clear -/

@[simp] theorem State.clear_phase (s : State) : s.clear.phase = .count := rfl
@[simp] theorem State.clear_empty (s : State) : s.clear.empty = false := rfl
@[simp] theorem State.clear_single (s : State) : s.clear.single = false := rfl
@[simp] theorem State.clear_ddone (s : State) : s.clear.ddone = false := rfl
@[simp] theorem State.clear_err (s : State) : s.clear.err = .none := rfl
@[simp] theorem State.clear_errSym (s : State) : s.clear.errSym = 0 := rfl
@[simp] theorem State.clear_errPos (s : State) : s.clear.errPos = 0 := rfl
@[simp] theorem State.clear_errCmd (s : State) : s.clear.errCmd = 0 := rfl
@[simp] theorem State.clear_total (s : State) : s.clear.total = 0 := rfl
@[simp] theorem State.clear_nsym (s : State) : s.clear.nsym = 0 := rfl
@[simp] theorem State.clear_root (s : State) : s.clear.root = Config.nil := rfl
@[simp] theorem State.clear_nint (s : State) : s.clear.nint = 0 := rfl
@[simp] theorem State.clear_epos (s : State) : s.clear.epos = 0 := rfl
@[simp] theorem State.clear_dpos (s : State) : s.clear.dpos = 0 := rfl
@[simp] theorem State.clear_dcur (s : State) : s.clear.dcur = Config.nil := rfl
@[simp] theorem State.clear_freq (s : State) : s.clear.freq = [] := rfl
@[simp] theorem State.clear_node (s : State) : s.clear.node = [] := rfl
@[simp] theorem State.clear_code (s : State) : s.clear.code = [] := rfl
@[simp] theorem State.clear_eout (s : State) : s.clear.eout = [] := rfl
@[simp] theorem State.clear_dout (s : State) : s.clear.dout = [] := rfl
@[simp] theorem State.clear_lout (s : State) : s.clear.lout = [] := rfl
@[simp] theorem State.clear_rsp (s : State) : s.clear.rsp = none := rfl
@[simp] theorem State.clear_input (s : State) : s.clear.input = s.input := rfl
@[simp] theorem State.clear_ports (s : State) : s.clear.ports = s.ports := rfl

/-! ### State.resetPin -/

@[simp] theorem State.resetPin_phase (s : State) : s.resetPin.phase = .count := rfl
@[simp] theorem State.resetPin_empty (s : State) : s.resetPin.empty = false := rfl
@[simp] theorem State.resetPin_single (s : State) : s.resetPin.single = false := rfl
@[simp] theorem State.resetPin_ddone (s : State) : s.resetPin.ddone = false := rfl
@[simp] theorem State.resetPin_err (s : State) : s.resetPin.err = .none := rfl
@[simp] theorem State.resetPin_errSym (s : State) : s.resetPin.errSym = 0 := rfl
@[simp] theorem State.resetPin_errPos (s : State) : s.resetPin.errPos = 0 := rfl
@[simp] theorem State.resetPin_errCmd (s : State) : s.resetPin.errCmd = 0 := rfl
@[simp] theorem State.resetPin_total (s : State) : s.resetPin.total = 0 := rfl
@[simp] theorem State.resetPin_nsym (s : State) : s.resetPin.nsym = 0 := rfl
@[simp] theorem State.resetPin_root (s : State) : s.resetPin.root = Config.nil := rfl
@[simp] theorem State.resetPin_nint (s : State) : s.resetPin.nint = 0 := rfl
@[simp] theorem State.resetPin_epos (s : State) : s.resetPin.epos = 0 := rfl
@[simp] theorem State.resetPin_dpos (s : State) : s.resetPin.dpos = 0 := rfl
@[simp] theorem State.resetPin_dcur (s : State) : s.resetPin.dcur = Config.nil := rfl
@[simp] theorem State.resetPin_freq (s : State) : s.resetPin.freq = [] := rfl
@[simp] theorem State.resetPin_node (s : State) : s.resetPin.node = [] := rfl
@[simp] theorem State.resetPin_code (s : State) : s.resetPin.code = [] := rfl
@[simp] theorem State.resetPin_eout (s : State) : s.resetPin.eout = [] := rfl
@[simp] theorem State.resetPin_dout (s : State) : s.resetPin.dout = [] := rfl
@[simp] theorem State.resetPin_lout (s : State) : s.resetPin.lout = [] := rfl
@[simp] theorem State.resetPin_rsp (s : State) : s.resetPin.rsp = none := rfl
@[simp] theorem State.resetPin_input (s : State) : s.resetPin.input = s.input := rfl
@[simp] theorem State.resetPin_ports (s : State) : s.resetPin.ports = s.ports := rfl

/-! ### State.present -/

@[simp] theorem State.present_phase (s : State) (w : Word) : (s.present w).phase = s.phase := rfl
@[simp] theorem State.present_empty (s : State) (w : Word) : (s.present w).empty = s.empty := rfl
@[simp] theorem State.present_single (s : State) (w : Word) : (s.present w).single = s.single := rfl
@[simp] theorem State.present_ddone (s : State) (w : Word) : (s.present w).ddone = s.ddone := rfl
@[simp] theorem State.present_err (s : State) (w : Word) : (s.present w).err = s.err := rfl
@[simp] theorem State.present_errSym (s : State) (w : Word) : (s.present w).errSym = s.errSym := rfl
@[simp] theorem State.present_errPos (s : State) (w : Word) : (s.present w).errPos = s.errPos := rfl
@[simp] theorem State.present_errCmd (s : State) (w : Word) : (s.present w).errCmd = s.errCmd := rfl
@[simp] theorem State.present_total (s : State) (w : Word) : (s.present w).total = s.total := rfl
@[simp] theorem State.present_nsym (s : State) (w : Word) : (s.present w).nsym = s.nsym := rfl
@[simp] theorem State.present_root (s : State) (w : Word) : (s.present w).root = s.root := rfl
@[simp] theorem State.present_nint (s : State) (w : Word) : (s.present w).nint = s.nint := rfl
@[simp] theorem State.present_epos (s : State) (w : Word) : (s.present w).epos = s.epos := rfl
@[simp] theorem State.present_dpos (s : State) (w : Word) : (s.present w).dpos = s.dpos := rfl
@[simp] theorem State.present_dcur (s : State) (w : Word) : (s.present w).dcur = s.dcur := rfl
@[simp] theorem State.present_freq (s : State) (w : Word) : (s.present w).freq = s.freq := rfl
@[simp] theorem State.present_node (s : State) (w : Word) : (s.present w).node = s.node := rfl
@[simp] theorem State.present_code (s : State) (w : Word) : (s.present w).code = s.code := rfl
@[simp] theorem State.present_eout (s : State) (w : Word) : (s.present w).eout = s.eout := rfl
@[simp] theorem State.present_dout (s : State) (w : Word) : (s.present w).dout = s.dout := rfl
@[simp] theorem State.present_lout (s : State) (w : Word) : (s.present w).lout = s.lout := rfl
@[simp] theorem State.present_rsp (s : State) (w : Word) : (s.present w).rsp = s.rsp := rfl
@[simp] theorem State.present_input (s : State) (w : Word) : (s.present w).input = .cmd w :: s.input := rfl
@[simp] theorem State.present_ports (s : State) (w : Word) : (s.present w).ports = s.ports := rfl

/-! ### State.countSym -/

@[simp] theorem State.countSym_phase (s : State) (sym : Sym) : (s.countSym sym).phase = s.phase := rfl
@[simp] theorem State.countSym_empty (s : State) (sym : Sym) : (s.countSym sym).empty = s.empty := rfl
@[simp] theorem State.countSym_single (s : State) (sym : Sym) : (s.countSym sym).single = s.single := rfl
@[simp] theorem State.countSym_ddone (s : State) (sym : Sym) : (s.countSym sym).ddone = s.ddone := rfl
@[simp] theorem State.countSym_err (s : State) (sym : Sym) : (s.countSym sym).err = s.err := rfl
@[simp] theorem State.countSym_errSym (s : State) (sym : Sym) : (s.countSym sym).errSym = s.errSym := rfl
@[simp] theorem State.countSym_errPos (s : State) (sym : Sym) : (s.countSym sym).errPos = s.errPos := rfl
@[simp] theorem State.countSym_errCmd (s : State) (sym : Sym) : (s.countSym sym).errCmd = s.errCmd := rfl
@[simp] theorem State.countSym_total (s : State) (sym : Sym) : (s.countSym sym).total = s.total + 1 := rfl
@[simp] theorem State.countSym_nsym (s : State) (sym : Sym) :
    (s.countSym sym).nsym = if s.freqAt sym.toNat = 0 then s.nsym + 1 else s.nsym := rfl
@[simp] theorem State.countSym_root (s : State) (sym : Sym) : (s.countSym sym).root = s.root := rfl
@[simp] theorem State.countSym_nint (s : State) (sym : Sym) : (s.countSym sym).nint = s.nint := rfl
@[simp] theorem State.countSym_epos (s : State) (sym : Sym) : (s.countSym sym).epos = s.epos := rfl
@[simp] theorem State.countSym_dpos (s : State) (sym : Sym) : (s.countSym sym).dpos = s.dpos := rfl
@[simp] theorem State.countSym_dcur (s : State) (sym : Sym) : (s.countSym sym).dcur = s.dcur := rfl
@[simp] theorem State.countSym_freq (s : State) (sym : Sym) :
    (s.countSym sym).freq = Table.write 0#32 s.freq sym.toNat (s.freqAt sym.toNat + 1) := rfl
@[simp] theorem State.countSym_node (s : State) (sym : Sym) : (s.countSym sym).node = s.node := rfl
@[simp] theorem State.countSym_code (s : State) (sym : Sym) : (s.countSym sym).code = s.code := rfl
@[simp] theorem State.countSym_eout (s : State) (sym : Sym) : (s.countSym sym).eout = s.eout := rfl
@[simp] theorem State.countSym_dout (s : State) (sym : Sym) : (s.countSym sym).dout = s.dout := rfl
@[simp] theorem State.countSym_lout (s : State) (sym : Sym) : (s.countSym sym).lout = s.lout := rfl
@[simp] theorem State.countSym_rsp (s : State) (sym : Sym) : (s.countSym sym).rsp = s.rsp := rfl
@[simp] theorem State.countSym_input (s : State) (sym : Sym) : (s.countSym sym).input = s.input := rfl
@[simp] theorem State.countSym_ports (s : State) (sym : Sym) : (s.countSym sym).ports = s.ports := rfl

/-! ### State.buildTree -/

@[simp] theorem State.buildTree_phase (s : State) : s.buildTree.phase = .built := rfl
@[simp] theorem State.buildTree_empty (s : State) : s.buildTree.empty = (s.empty || decide (s.nsym = 0)) := rfl
@[simp] theorem State.buildTree_single (s : State) : s.buildTree.single = (s.single || decide (s.nsym = 1)) := rfl
@[simp] theorem State.buildTree_ddone (s : State) : s.buildTree.ddone = s.ddone := rfl
@[simp] theorem State.buildTree_err (s : State) : s.buildTree.err = s.err := rfl
@[simp] theorem State.buildTree_errSym (s : State) : s.buildTree.errSym = s.errSym := rfl
@[simp] theorem State.buildTree_errPos (s : State) : s.buildTree.errPos = s.errPos := rfl
@[simp] theorem State.buildTree_errCmd (s : State) : s.buildTree.errCmd = s.errCmd := rfl
@[simp] theorem State.buildTree_total (s : State) : s.buildTree.total = s.total := rfl
@[simp] theorem State.buildTree_nsym (s : State) : s.buildTree.nsym = s.nsym := rfl
@[simp] theorem State.buildTree_root (s : State) : s.buildTree.root = rootOf s.nsym.toNat := rfl
@[simp] theorem State.buildTree_nint (s : State) : s.buildTree.nint = internalCount s.nsym.toNat := rfl
@[simp] theorem State.buildTree_epos (s : State) : s.buildTree.epos = s.epos := rfl
@[simp] theorem State.buildTree_dpos (s : State) : s.buildTree.dpos = s.dpos := rfl
@[simp] theorem State.buildTree_dcur (s : State) : s.buildTree.dcur = s.dcur := rfl
@[simp] theorem State.buildTree_freq (s : State) : s.buildTree.freq = s.freq := rfl
@[simp] theorem State.buildTree_node (s : State) : s.buildTree.node = buildNodes s.freq := rfl
@[simp] theorem State.buildTree_code (s : State) : s.buildTree.code = s.code := rfl
@[simp] theorem State.buildTree_eout (s : State) : s.buildTree.eout = s.eout := rfl
@[simp] theorem State.buildTree_dout (s : State) : s.buildTree.dout = s.dout := rfl
@[simp] theorem State.buildTree_lout (s : State) : s.buildTree.lout = s.lout := rfl
@[simp] theorem State.buildTree_rsp (s : State) : s.buildTree.rsp = s.rsp := rfl
@[simp] theorem State.buildTree_input (s : State) : s.buildTree.input = s.input := rfl
@[simp] theorem State.buildTree_ports (s : State) : s.buildTree.ports = s.ports := rfl

/-! ### State.startDecoder -/

@[simp] theorem State.startDecoder_phase (s : State) : s.startDecoder.phase = s.phase := rfl
@[simp] theorem State.startDecoder_empty (s : State) : s.startDecoder.empty = s.empty := rfl
@[simp] theorem State.startDecoder_single (s : State) : s.startDecoder.single = s.single := rfl
@[simp] theorem State.startDecoder_ddone (s : State) : s.startDecoder.ddone = false := rfl
@[simp] theorem State.startDecoder_err (s : State) : s.startDecoder.err = s.err := rfl
@[simp] theorem State.startDecoder_errSym (s : State) : s.startDecoder.errSym = s.errSym := rfl
@[simp] theorem State.startDecoder_errPos (s : State) : s.startDecoder.errPos = s.errPos := rfl
@[simp] theorem State.startDecoder_errCmd (s : State) : s.startDecoder.errCmd = s.errCmd := rfl
@[simp] theorem State.startDecoder_total (s : State) : s.startDecoder.total = s.total := rfl
@[simp] theorem State.startDecoder_nsym (s : State) : s.startDecoder.nsym = s.nsym := rfl
@[simp] theorem State.startDecoder_root (s : State) : s.startDecoder.root = s.root := rfl
@[simp] theorem State.startDecoder_nint (s : State) : s.startDecoder.nint = s.nint := rfl
@[simp] theorem State.startDecoder_epos (s : State) : s.startDecoder.epos = s.epos := rfl
@[simp] theorem State.startDecoder_dpos (s : State) : s.startDecoder.dpos = 0 := rfl
@[simp] theorem State.startDecoder_dcur (s : State) : s.startDecoder.dcur = s.root := rfl
@[simp] theorem State.startDecoder_freq (s : State) : s.startDecoder.freq = s.freq := rfl
@[simp] theorem State.startDecoder_node (s : State) : s.startDecoder.node = s.node := rfl
@[simp] theorem State.startDecoder_code (s : State) : s.startDecoder.code = s.code := rfl
@[simp] theorem State.startDecoder_eout (s : State) : s.startDecoder.eout = s.eout := rfl
@[simp] theorem State.startDecoder_dout (s : State) : s.startDecoder.dout = [] := rfl
@[simp] theorem State.startDecoder_lout (s : State) : s.startDecoder.lout = s.lout := rfl
@[simp] theorem State.startDecoder_rsp (s : State) : s.startDecoder.rsp = s.rsp := rfl
@[simp] theorem State.startDecoder_input (s : State) : s.startDecoder.input = s.input := rfl
@[simp] theorem State.startDecoder_ports (s : State) : s.startDecoder.ports = s.ports := rfl

/-! ### State.startEncoder -/

@[simp] theorem State.startEncoder_phase (s : State) : s.startEncoder.phase = s.phase := rfl
@[simp] theorem State.startEncoder_empty (s : State) : s.startEncoder.empty = s.empty := rfl
@[simp] theorem State.startEncoder_single (s : State) : s.startEncoder.single = s.single := rfl
@[simp] theorem State.startEncoder_ddone (s : State) : s.startEncoder.ddone = s.ddone := rfl
@[simp] theorem State.startEncoder_err (s : State) : s.startEncoder.err = s.err := rfl
@[simp] theorem State.startEncoder_errSym (s : State) : s.startEncoder.errSym = s.errSym := rfl
@[simp] theorem State.startEncoder_errPos (s : State) : s.startEncoder.errPos = s.errPos := rfl
@[simp] theorem State.startEncoder_errCmd (s : State) : s.startEncoder.errCmd = s.errCmd := rfl
@[simp] theorem State.startEncoder_total (s : State) : s.startEncoder.total = s.total := rfl
@[simp] theorem State.startEncoder_nsym (s : State) : s.startEncoder.nsym = s.nsym := rfl
@[simp] theorem State.startEncoder_root (s : State) : s.startEncoder.root = s.root := rfl
@[simp] theorem State.startEncoder_nint (s : State) : s.startEncoder.nint = s.nint := rfl
@[simp] theorem State.startEncoder_epos (s : State) : s.startEncoder.epos = 0 := rfl
@[simp] theorem State.startEncoder_dpos (s : State) : s.startEncoder.dpos = s.dpos := rfl
@[simp] theorem State.startEncoder_dcur (s : State) : s.startEncoder.dcur = s.dcur := rfl
@[simp] theorem State.startEncoder_freq (s : State) : s.startEncoder.freq = s.freq := rfl
@[simp] theorem State.startEncoder_node (s : State) : s.startEncoder.node = s.node := rfl
@[simp] theorem State.startEncoder_code (s : State) : s.startEncoder.code = s.code := rfl
@[simp] theorem State.startEncoder_eout (s : State) : s.startEncoder.eout = [] := rfl
@[simp] theorem State.startEncoder_dout (s : State) : s.startEncoder.dout = s.dout := rfl
@[simp] theorem State.startEncoder_lout (s : State) : s.startEncoder.lout = s.lout := rfl
@[simp] theorem State.startEncoder_rsp (s : State) : s.startEncoder.rsp = s.rsp := rfl
@[simp] theorem State.startEncoder_input (s : State) : s.startEncoder.input = s.input := rfl
@[simp] theorem State.startEncoder_ports (s : State) : s.startEncoder.ports = s.ports := rfl

end Sys2Proof.Machine
end

