-- ==== Sys2Proof/Laws/Ops.lean ====
section
/-! SUPPORT. For each shared operation of Machine/Ops.lean, one lemma that says once everything it can do. -/

namespace Sys2Proof.Machine

theorem State.faulted_eq_false (s : State) : s.faulted = false ↔ s.err = .none := by simp [State.faulted]

theorem State.faulted_eq_true (s : State) : s.faulted = true ↔ s.err ≠ .none := by simp [State.faulted]

/-! ### The order of checks -/

/-- A command turned away with none of its effect: refused by a faulted block (R192), or out of sequence (R188). -/
def TurnedAway (i : Instr) (s t : State) : Prop :=
  (s.err ≠ .none ∧ t = s) ∨ (s.err = .none ∧ legal i s = false ∧ t = s.raise .sequence 0 0 (encode i))

theorem gate_ready (i : Instr) (s : State) (run : Result) (he : s.err = .none) (hl : legal i s = true) :
    gate i s run = run := by
  simp [gate, (State.faulted_eq_false s).2 he, hl]

theorem gate_refused (i : Instr) (s : State) (run : Result) (he : s.err ≠ .none) : gate i s run = .next s := by
  simp [gate, (State.faulted_eq_true s).2 he]

theorem gate_sequence (i : Instr) (s : State) (run : Result) (he : s.err = .none) (hl : legal i s = false) :
    gate i s run = .next (s.raise .sequence 0 0 (encode i)) := by
  simp [gate, (State.faulted_eq_false s).2 he, hl]

/-- Everything `gate` can do. -/
theorem gate_cases {i : Instr} {s t : State} {run : Result} (h : gate i s run = .next t) :
    TurnedAway i s t ∨ (s.err = .none ∧ legal i s = true ∧ run = .next t) := by
  by_cases he : s.err = .none
  · by_cases hl : legal i s = true
    · exact .inr ⟨he, hl, by rwa [gate_ready i s run he hl] at h⟩
    · have hl := Bool.eq_false_iff.2 hl
      rw [gate_sequence i s run he hl] at h
      cases h
      exact .inl (.inr ⟨he, hl, rfl⟩)
  · rw [gate_refused i s run he] at h
    cases h
    exact .inl (.inl ⟨he, rfl⟩)

/-- Everything an illegal word can do. -/
theorem illegalWord_cases {w : Word} {s t : State} (h : illegalWord w s = .next t) :
    (s.err ≠ .none ∧ t = s) ∨ (s.err = .none ∧ t = s.raise .illegal 0 0 w) := by
  by_cases he : s.err = .none
  · simp only [illegalWord, (State.faulted_eq_false s).2 he] at h
    cases h
    exact .inr ⟨he, rfl⟩
  · simp only [illegalWord, (State.faulted_eq_true s).2 he] at h
    cases h
    exact .inl ⟨he, rfl⟩

/-! ### Output streams -/

/-- Digits emitted one after the other, as one update. -/
theorem State.emitEncs_eq (s : State) (bits : List Digit) :
    s.emitEncs bits = { s with eout := s.eout ++ bits, ports := s.ports ++ bits.map .enc } := by
  induction bits generalizing s with
  | nil => simp [State.emitEncs]
  | cons b bits ih =>
    have : s.emitEncs (b :: bits) = (s.emitEnc b).emitEncs bits := rfl
    rw [this, ih]
    simp [State.emitEnc]

/-- Records emitted one after the other, as one update. -/
theorem State.emitLsts_eq (s : State) (rs : List ListRecord) :
    s.emitLsts rs = { s with lout := s.lout ++ rs, ports := s.ports ++ rs.map .lst } := by
  induction rs generalizing s with
  | nil => simp [State.emitLsts]
  | cons r rs ih =>
    have : s.emitLsts (r :: rs) = (s.emitLst r).emitLsts rs := rfl
    rw [this, ih]
    simp [State.emitLst]

/-! ### What the host presents -/

@[simp] theorem State.takeInput_present (s : State) (w : Word) :
    (s.present w).takeInput = some (.cmd w, s) := rfl

/-- Everything a step can do. -/
theorem step_cases {s t : State} (h : step s = .next t) :
    (s.input = [] ∧ t = s) ∨
    ∃ s' : State, s.input ≠ [] ∧ s' = { s with input := s.input.tail } ∧
      (t = s'.resetPin ∨ (∃ i, exec i s' = .next t) ∨ ∃ w, illegalWord w s' = .next t) := by
  unfold step State.takeInput at h
  cases hin : s.input with
  | nil => rw [hin] at h; cases h; exact .inl ⟨rfl, rfl⟩
  | cons x rest =>
    rw [hin] at h
    refine .inr ⟨{ s with input := rest }, by simp, rfl, ?_⟩
    cases x with
    | rst => cases h; exact .inl rfl
    | cmd w =>
      dsimp only at h
      cases hd : decode w with
      | ok i => rw [hd] at h; exact .inr (.inl ⟨i, h⟩)
      | error r => rw [hd] at h; exact .inr (.inr ⟨w, h⟩)

end Sys2Proof.Machine
end

