-- ==== Sys2Proof/Laws/Exec.lean ====
section
/-! SUPPORT. For each command, everything its meaning can do when it answers a next state. -/

namespace Sys2Proof.Machine

variable {s t : State}

theorem execCnt_cases {sym : Sym} (h : execCnt sym s = .next t) :
    TurnedAway (.cnt sym) s t ∨ (s.err = .none ∧ s.phase = .count ∧
      ((s.total = Config.cntMax ∧ t = s.raise .overflow 0 0 (encode (.cnt sym))) ∨
        (s.total ≠ Config.cntMax ∧ t = s.countSym sym))) := by
  rcases gate_cases h with h | ⟨he, hl, h⟩
  · exact .inl h
  · refine .inr ⟨he, by simpa [legal, phaseAdmits, ddoneAdmits] using hl, ?_⟩
    split at h
    · next hm => cases h; exact .inl ⟨hm, rfl⟩
    · next hm => cases h; exact .inr ⟨hm, rfl⟩

theorem execBld_cases (h : execBld s = .next t) :
    TurnedAway .bld s t ∨ (s.err = .none ∧ s.phase = .count ∧ s.nsym.toNat = (symbols s.freq).length ∧
      t = s.buildTree.startDecoder) := by
  rcases gate_cases h with h | ⟨he, hl, h⟩
  · exact .inl h
  · refine .inr ⟨he, by simpa [legal, phaseAdmits, ddoneAdmits] using hl, ?_⟩
    split at h
    · next hn => cases h; exact ⟨hn, rfl⟩
    · cases h

theorem execGen_cases (h : execGen s = .next t) :
    TurnedAway .gen s t ∨ (s.err = .none ∧ s.phase = .built ∧ ∃ codes, deriveCodes s = some codes ∧
      t = { s with code := codes, phase := .coded }.startEncoder) := by
  rcases gate_cases h with h | ⟨he, hl, h⟩
  · exact .inl h
  · refine .inr ⟨he, by simpa [legal, phaseAdmits, ddoneAdmits] using hl, ?_⟩
    split at h
    · cases h
    · next codes hc => cases h; exact ⟨codes, hc, rfl⟩

theorem execEbeg_cases (h : execEbeg s = .next t) :
    TurnedAway .ebeg s t ∨ (s.err = .none ∧ s.phase = .coded ∧ t = s.startEncoder) := by
  rcases gate_cases h with h | ⟨he, hl, h⟩
  · exact .inl h
  · cases h
    exact .inr ⟨he, by simpa [legal, phaseAdmits, ddoneAdmits] using hl, rfl⟩

theorem execEnc_cases {sym : Sym} (h : execEnc sym s = .next t) :
    TurnedAway (.enc sym) s t ∨ (s.err = .none ∧ s.phase = .coded ∧
      (((s.codeAt sym.toNat).valid = true ∧
          t = { s.emitEncs (s.codeAt sym.toNat).digits with epos := sat64 (s.epos.toNat + 1) }) ∨
        ((s.codeAt sym.toNat).valid = false ∧ t = s.raise .missingCode sym s.epos (encode (.enc sym))))) := by
  rcases gate_cases h with h | ⟨he, hl, h⟩
  · exact .inl h
  · refine .inr ⟨he, by simpa [legal, phaseAdmits, ddoneAdmits] using hl, ?_⟩
    dsimp only at h
    split at h
    · next hv => cases h; exact .inl ⟨hv, rfl⟩
    · next hv => cases h; exact .inr ⟨Bool.eq_false_iff.2 hv, rfl⟩

theorem execDbeg_cases (h : execDbeg s = .next t) :
    TurnedAway .dbeg s t ∨ (s.err = .none ∧ s.phase ≠ .count ∧ t = s.startDecoder) := by
  rcases gate_cases h with h | ⟨he, hl, h⟩
  · exact .inl h
  · cases h
    exact .inr ⟨he, by simpa [legal, phaseAdmits, ddoneAdmits] using hl, rfl⟩

/-- DEC is turned away, finds the stream malformed, or walks to a child that is an entry of NODE. -/
theorem execDec_cases {bit : Digit} (h : execDec bit s = .next t) :
    TurnedAway (.dec bit) s t ∨ (s.err = .none ∧ s.phase ≠ .count ∧ s.ddone = false ∧
      ((t = s.malformed (.dec bit) ∧
          (s.root = Config.nil ∨ (s.nodeAt s.dcur.toNat).child bit = Config.nil)) ∨
        (s.root ≠ Config.nil ∧ s.dcur ≠ Config.nil ∧ ((s.nodeAt s.dcur.toNat).child bit) ≠ Config.nil ∧
          t = s.walkTo ((s.nodeAt s.dcur.toNat).child bit)
            (s.nodeAt ((s.nodeAt s.dcur.toNat).child bit).toNat)))) := by
  rcases gate_cases h with h | ⟨he, hl, h⟩
  · exact .inl h
  · have hl : s.phase ≠ .count ∧ s.ddone = false := by simpa [legal, phaseAdmits, ddoneAdmits] using hl
    refine .inr ⟨he, hl.1, hl.2, ?_⟩
    split at h
    · next hr => cases h; exact .inl ⟨rfl, .inl hr⟩
    · next hr =>
      by_cases hc : s.dcur = Config.nil
      · simp [State.nodeOf, hc] at h
      · simp only [State.nodeOf, if_neg hc] at h
        by_cases hn : (s.nodeAt s.dcur.toNat).child bit = Config.nil
        · simp only [if_pos hn] at h; cases h; exact .inl ⟨rfl, .inr hn⟩
        · simp only [if_neg hn] at h; cases h; exact .inr ⟨hr, hc, hn, rfl⟩

theorem execDend_cases (h : execDend s = .next t) :
    TurnedAway .dend s t ∨ (s.err = .none ∧ s.phase ≠ .count ∧ s.ddone = false ∧
      ((s.dcur = s.root ∧ t = { s with ddone := true }) ∨ (s.dcur ≠ s.root ∧ t = s.malformed .dend))) := by
  rcases gate_cases h with h | ⟨he, hl, h⟩
  · exact .inl h
  · have hl : s.phase ≠ .count ∧ s.ddone = false := by simpa [legal, phaseAdmits, ddoneAdmits] using hl
    refine .inr ⟨he, hl.1, hl.2, ?_⟩
    split at h
    · next hc => cases h; exact .inl ⟨hc, rfl⟩
    · next hc => cases h; exact .inr ⟨hc, rfl⟩

theorem execLst_cases (h : execLst s = .next t) :
    TurnedAway .lst s t ∨ (s.err = .none ∧ s.phase = .coded ∧
      t = { s with lout := listing s, ports := s.ports ++ (listing s).map .lst }) := by
  rcases gate_cases h with h | ⟨he, hl, h⟩
  · exact .inl h
  · rw [State.emitLsts_eq] at h
    cases h
    exact .inr ⟨he, by simpa [legal, phaseAdmits, ddoneAdmits] using hl, by simp⟩

/-- The registers are numbered 0 to 11 (R21). -/
theorem State.register_eq_none (s : State) (reg : BitVec 4) : s.register reg = none ↔ regExists reg = false := by
  have h : reg.toNat = 0 ∨ reg.toNat = 1 ∨ reg.toNat = 2 ∨ reg.toNat = 3 ∨ reg.toNat = 4 ∨ reg.toNat = 5 ∨
      reg.toNat = 6 ∨ reg.toNat = 7 ∨ reg.toNat = 8 ∨ reg.toNat = 9 ∨ reg.toNat = 10 ∨ reg.toNat = 11 ∨
      12 ≤ reg.toNat := by omega
  rcases h with h | h | h | h | h | h | h | h | h | h | h | h | h
  iterate 12 simp [State.register, regExists, h]
  have h : reg.toNat = 12 ∨ reg.toNat = 13 ∨ reg.toNat = 14 ∨ reg.toNat = 15 := by omega
  rcases h with h | h | h | h <;> simp [State.register, regExists, h]

/-- The read-backs: one response, nothing else; or, for a register number that does not exist, an illegal word. -/
theorem execRdr_cases {reg : BitVec 4} (h : execRdr reg s = .next t) :
    (∃ v, s.register reg = some v ∧ t = s.emitRsp (scalarResponse v)) ∨
      (s.register reg = none ∧ illegalWord (encode (.rdr reg)) s = .next t) := by
  unfold execRdr at h
  cases hr : s.register reg with
  | some v => rw [hr] at h; cases h; exact .inl ⟨v, rfl, rfl⟩
  | none => rw [hr] at h; exact .inr ⟨rfl, h⟩

theorem execRdn_cases {idx : Idx} (h : execRdn idx s = .next t) : ∃ w, t = s.emitRsp w := by
  unfold execRdn at h
  split at h <;> cases h <;> exact ⟨_, rfl⟩

/-- What the nine commands behind the gate, CLR, the read-backs and an illegal word can make of a state, said once:
every claim about what some command may change is a case analysis on this. -/
theorem exec_cases {i : Instr} (h : exec i s = .next t) :
    TurnedAway i s t ∨ (i = .clr ∧ t = s.clear) ∨ (isReadBack i = true ∧ ∃ w, t = s.emitRsp w) ∨
    (s.err = .none ∧ ((i.wellFormed = false ∧ t = s.raise .illegal 0 0 (encode i)) ∨
      (∃ sym, i = .cnt sym ∧ s.phase = .count ∧
        ((s.total = Config.cntMax ∧ t = s.raise .overflow 0 0 (encode i)) ∨ (s.total ≠ Config.cntMax ∧ t = s.countSym sym))) ∨
      (i = .bld ∧ s.phase = .count ∧ s.nsym.toNat = (symbols s.freq).length ∧ t = s.buildTree.startDecoder) ∨
      (i = .gen ∧ s.phase = .built ∧ ∃ codes, deriveCodes s = some codes ∧
        t = { s with code := codes, phase := .coded }.startEncoder) ∨
      (i = .ebeg ∧ s.phase = .coded ∧ t = s.startEncoder) ∨
      (∃ sym, i = .enc sym ∧ s.phase = .coded ∧
        (((s.codeAt sym.toNat).valid = true ∧
            t = { s.emitEncs (s.codeAt sym.toNat).digits with epos := sat64 (s.epos.toNat + 1) }) ∨
          ((s.codeAt sym.toNat).valid = false ∧ t = s.raise .missingCode sym s.epos (encode i)))) ∨
      (i = .dbeg ∧ s.phase ≠ .count ∧ t = s.startDecoder) ∨
      (∃ bit, i = .dec bit ∧ s.phase ≠ .count ∧ s.ddone = false ∧
        ((t = s.malformed i ∧ (s.root = Config.nil ∨ (s.nodeAt s.dcur.toNat).child bit = Config.nil)) ∨
          (s.root ≠ Config.nil ∧ s.dcur ≠ Config.nil ∧ ((s.nodeAt s.dcur.toNat).child bit) ≠ Config.nil ∧
            t = s.walkTo ((s.nodeAt s.dcur.toNat).child bit)
              (s.nodeAt ((s.nodeAt s.dcur.toNat).child bit).toNat)))) ∨
      (i = .dend ∧ s.phase ≠ .count ∧ s.ddone = false ∧
        ((s.dcur = s.root ∧ t = { s with ddone := true }) ∨ (s.dcur ≠ s.root ∧ t = s.malformed i))) ∨
      (i = .lst ∧ s.phase = .coded ∧
        t = { s with lout := listing s, ports := s.ports ++ (listing s).map .lst }))) := by
  cases i with
  | clr => cases h; exact .inr (.inl ⟨rfl, rfl⟩)
  | cnt sym => rcases execCnt_cases h with h | ⟨he, hp, h⟩
               · exact .inl h
               · refine .inr (.inr (.inr ⟨he, .inr (.inl ⟨sym, rfl, hp, h⟩)⟩))
  | bld => rcases execBld_cases h with h | h
           · exact .inl h
           · refine .inr (.inr (.inr ⟨h.1, .inr (.inr (.inl ⟨rfl, h.2⟩))⟩))
  | gen => rcases execGen_cases h with h | h
           · exact .inl h
           · refine .inr (.inr (.inr ⟨h.1, .inr (.inr (.inr (.inl ⟨rfl, h.2⟩)))⟩))
  | ebeg => rcases execEbeg_cases h with h | h
            · exact .inl h
            · refine .inr (.inr (.inr ⟨h.1, .inr (.inr (.inr (.inr (.inl ⟨rfl, h.2⟩))))⟩))
  | enc sym => rcases execEnc_cases h with h | ⟨he, hp, h⟩
               · exact .inl h
               · refine .inr (.inr (.inr ⟨he, .inr (.inr (.inr (.inr (.inr (.inl ⟨sym, rfl, hp, h⟩)))))⟩))
  | dbeg => rcases execDbeg_cases h with h | h
            · exact .inl h
            · refine .inr (.inr (.inr ⟨h.1, .inr (.inr (.inr (.inr (.inr (.inr (.inl ⟨rfl, h.2⟩))))))⟩))
  | dec bit => rcases execDec_cases h with h | ⟨he, h⟩
               · exact .inl h
               · refine .inr (.inr (.inr ⟨he, .inr (.inr (.inr (.inr (.inr (.inr (.inr (.inl ⟨bit, rfl, h⟩)))))))⟩))
  | dend => rcases execDend_cases h with h | ⟨he, hp, hd, h⟩
            · exact .inl h
            · refine .inr (.inr (.inr ⟨he, .inr (.inr (.inr (.inr (.inr (.inr (.inr (.inr (.inl
                ⟨rfl, hp, hd, h⟩))))))))⟩))
  | rdr reg => rcases execRdr_cases h with ⟨v, _, rfl⟩ | ⟨hr, h⟩
               · exact .inr (.inr (.inl ⟨rfl, _, rfl⟩))
               · rcases illegalWord_cases h with h | ⟨he, h⟩
                 · exact .inl (.inl h)
                 · exact .inr (.inr (.inr ⟨he, .inl ⟨(State.register_eq_none s reg).1 hr, h⟩⟩))
  | rdf sym => cases h; exact .inr (.inr (.inl ⟨rfl, _, rfl⟩))
  | rdc sym => cases h; exact .inr (.inr (.inl ⟨rfl, _, rfl⟩))
  | rdn idx => exact .inr (.inr (.inl ⟨rfl, execRdn_cases h⟩))
  | lst => rcases execLst_cases h with h | h
           · exact .inl h
           · refine .inr (.inr (.inr ⟨h.1, .inr (.inr (.inr (.inr (.inr (.inr (.inr (.inr (.inr
               ⟨rfl, h.2⟩))))))))⟩))

end Sys2Proof.Machine
end

