-- ==== Sys2Proof/Laws/PerInstr.lean ====
section
/-! SUPPORT. The one family of statements made per command: its word is a word of its own row of the opcode map
(spec/30_encoding.md R67), exactly when the command is well-formed. -/

namespace Sys2Proof.Laws.TableRow

/-- The command's word meets its row's mask and match, and for RDR `reg ≤ 11`, exactly when it is well-formed (R67). -/
def Statement (i : Instr) : Prop := (opcodeRow i).admits (encode i) = i.wellFormed

theorem clr : Statement .clr := by
  unfold Statement
  decide

theorem cnt (sym : Sym) : Statement (.cnt sym) := by
  unfold Statement
  revert sym
  decide +kernel

theorem bld : Statement .bld := by
  unfold Statement
  decide

theorem gen : Statement .gen := by
  unfold Statement
  decide

theorem ebeg : Statement .ebeg := by
  unfold Statement
  decide

theorem enc (sym : Sym) : Statement (.enc sym) := by
  unfold Statement
  revert sym
  decide +kernel

theorem dbeg : Statement .dbeg := by
  unfold Statement
  decide

theorem dec (bit : Digit) : Statement (.dec bit) := by
  unfold Statement
  revert bit
  decide

theorem dend : Statement .dend := by
  unfold Statement
  decide

theorem rdr (reg : BitVec 4) : Statement (.rdr reg) := by
  unfold Statement
  revert reg
  decide

theorem rdf (sym : Sym) : Statement (.rdf sym) := by
  unfold Statement
  revert sym
  decide +kernel

theorem rdc (sym : Sym) : Statement (.rdc sym) := by
  unfold Statement
  revert sym
  decide +kernel

theorem rdn (idx : Idx) : Statement (.rdn idx) := by
  unfold Statement
  revert idx
  decide +kernel

theorem lst : Statement .lst := by
  unfold Statement
  decide

end Sys2Proof.Laws.TableRow
end

