-- ==== Sys2Proof/Laws/TreeBuilder.lean ====
section
/-! SUPPORT. What the parts of BLD do: the alphabet and the leaves (spec/42_tree_builder.md R102), the extraction order
(R106), and the merge loop through the invariant that every pass keeps (R105). -/

namespace Sys2Proof.Machine

/-! ### The alphabet -/

theorem mem_symbols (freq : List (Nat × Count)) (k : Nat) :
    k ∈ symbols freq ↔ k < 256 ∧ Table.read 0#32 freq k ≠ 0 := by
  simp [symbols]

theorem symbols_nodup (freq : List (Nat × Count)) : (symbols freq).Nodup :=
  List.nodup_range.filter _

theorem symbols_sorted (freq : List (Nat × Count)) : (symbols freq).Pairwise (· < ·) :=
  List.pairwise_lt_range.filter _

theorem symbols_length_le (freq : List (Nat × Count)) : (symbols freq).length ≤ 256 := by
  have := List.length_filter_le (fun k => decide (Table.read 0#32 freq k ≠ 0)) (List.range Config.nSym)
  simpa [symbols] using this

/-- The alphabet depends only on what the table reads. -/
theorem symbols_congr {f g : List (Nat × Count)} (h : ∀ k, k < 256 → Table.read 0#32 f k = Table.read 0#32 g k) :
    symbols f = symbols g := by
  unfold symbols
  exact List.filter_congr fun k hk => by rw [h k (by simpa using hk)]

/-- A sum over all symbols is the sum over the alphabet, where only the alphabet counts. -/
theorem sum_range_eq_sum_symbols (freq : List (Nat × Count)) (g : Nat → Nat)
    (h : ∀ k, Table.read 0#32 freq k = 0 → g k = 0) :
    ((List.range Config.nSym).map g).sum = ((symbols freq).map g).sum := by
  unfold symbols
  generalize List.range Config.nSym = l
  induction l with
  | nil => rfl
  | cons k l ih =>
    by_cases hk : Table.read 0#32 freq k = 0
    · rw [List.filter_cons_of_neg (by simpa using hk), List.map_cons, List.sum_cons, h k hk, ih, Nat.zero_add]
    · rw [List.filter_cons_of_pos (by simpa using hk), List.map_cons, List.sum_cons, ih, List.map_cons, List.sum_cons]

/-- The frequencies of the alphabet add up to the table's sum. -/
theorem freqSum_eq_symbols (freq : List (Nat × Count)) :
    freqSum freq = ((symbols freq).map (fun k => (Table.read 0#32 freq k).toNat)).sum :=
  sum_range_eq_sum_symbols freq _ fun k hk => by simp [hk]

/-! ### The leaves -/

theorem read_foldl_leaves (freq : List (Nat × Count)) (l : List Nat) (t : List (Nat × Node)) (k : Nat) :
    Table.read Node.zero
        (l.foldl (fun t k => Table.write Node.zero t k (leafNode k (Table.read 0#32 freq k))) t) k =
      if k ∈ l then leafNode k (Table.read 0#32 freq k) else Table.read Node.zero t k := by
  induction l generalizing t with
  | nil => simp
  | cons a l ih =>
    rw [List.foldl_cons, ih, Table.read_write]
    by_cases h : k ∈ l
    · simp [h]
    · by_cases ha : k = a <;> simp [h, ha]

/-- The leaves: one at each symbol of the alphabet, nothing else (R102). -/
theorem read_leaves (freq : List (Nat × Count)) (k : Nat) :
    Table.read Node.zero (leaves freq) k =
      if k < 256 ∧ Table.read 0#32 freq k ≠ 0 then leafNode k (Table.read 0#32 freq k) else Node.zero := by
  simp only [leaves, read_foldl_leaves, mem_symbols, Table.read_nil]

theorem wf_leaves (freq : List (Nat × Count)) : Table.wf Node.zero Config.nNode (leaves freq) = true := by
  unfold leaves
  have h : ∀ (l : List Nat) (t : List (Nat × Node)), (∀ k ∈ l, k < 256) → Table.wf Node.zero Config.nNode t = true →
      Table.wf Node.zero Config.nNode
        (l.foldl (fun t k => Table.write Node.zero t k (leafNode k (Table.read 0#32 freq k))) t) = true := by
    intro l
    induction l with
    | nil => exact fun t _ ht => ht
    | cons a l ih =>
      intro t hl ht
      have : a < 256 := hl a (by simp)
      exact ih _ (fun k hk => hl k (by simp [hk])) (Table.wf_write _ _ _ _ _ ht (by show a < 511; omega))
  exact h _ _ (fun k hk => ((mem_symbols freq k).1 hk).1) (Table.wf_nil _ _)

/-! ### The extraction order -/

theorem lighter_iff (nodes : List (Nat × Node)) (i j : Nat) :
    lighter nodes i j = true ↔
      (weightAt nodes i).toNat < (weightAt nodes j).toNat ∨
        ((weightAt nodes i).toNat = (weightAt nodes j).toNat ∧ i < j) := by
  simp [lighter, BitVec.lt_def, BitVec.toNat_inj]

theorem lighter_trans {nodes : List (Nat × Node)} {i j k : Nat} (h1 : lighter nodes i j = true)
    (h2 : lighter nodes j k = true) : lighter nodes i k = true := by
  rw [lighter_iff] at *; omega

theorem lighter_or {nodes : List (Nat × Node)} {i j : Nat} (h : i ≠ j) :
    lighter nodes i j = true ∨ lighter nodes j i = true := by
  rw [lighter_iff, lighter_iff]; omega

theorem not_lighter_self (nodes : List (Nat × Node)) (i : Nat) : lighter nodes i i = false := by
  rw [Bool.eq_false_iff, ne_eq, lighter_iff]; omega

/-- The order of R106 reads only the weights. -/
theorem lighter_congr {nodes nodes' : List (Nat × Node)} {i j : Nat}
    (hi : Table.read Node.zero nodes i = Table.read Node.zero nodes' i)
    (hj : Table.read Node.zero nodes j = Table.read Node.zero nodes' j) :
    lighter nodes i j = lighter nodes' i j := by
  unfold lighter weightAt
  rw [hi, hj]

/-- The lightest of a non-empty list is in it and comes before every other element. -/
theorem lightest_spec (nodes : List (Nat × Node)) (i : Nat) (rest : List Nat) :
    lightest nodes i rest ∈ i :: rest ∧
      ∀ j ∈ i :: rest, j ≠ lightest nodes i rest → lighter nodes (lightest nodes i rest) j = true := by
  induction rest generalizing i with
  | nil => simp [lightest]
  | cons a rest ih =>
    have hstep : lightest nodes i (a :: rest) = lightest nodes (if lighter nodes a i then a else i) rest := rfl
    rw [hstep]
    by_cases h : lighter nodes a i = true
    · rw [if_pos h]
      obtain ⟨hm, hl⟩ := ih a
      refine ⟨List.mem_cons_of_mem _ hm, fun j hj hne => ?_⟩
      rcases List.mem_cons.1 hj with rfl | hj
      · by_cases ha : a = lightest nodes a rest
        · rw [← ha]; exact h
        · exact lighter_trans (hl a (by simp) ha) h
      · exact hl j hj hne
    · rw [if_neg h]
      obtain ⟨hm, hl⟩ := ih i
      have hsub : lightest nodes i rest ∈ i :: a :: rest := by
        rcases List.mem_cons.1 hm with hm | hm
        · rw [hm]; simp
        · exact List.mem_cons_of_mem _ (List.mem_cons_of_mem _ hm)
      refine ⟨hsub, fun j hj hne => ?_⟩
      rcases List.mem_cons.1 hj with rfl | hj
      · exact hl j (by simp) hne
      · rcases List.mem_cons.1 hj with rfl | hj
        · by_cases hi : i = lightest nodes i rest
          · rw [← hi] at hne ⊢
            exact (lighter_or hne.symm).resolve_right h
          · by_cases hji : j = i
            · subst hji; exact hl j (by simp) hne
            · exact lighter_trans (hl i (by simp) hi) ((lighter_or (Ne.symm hji)).resolve_right h)
        · exact hl j (by simp [hj]) hne

/-- One pass of the merge loop on a set of two or more: it takes the first of the set and the first of the rest. -/
theorem mergeStep_spec (nodes : List (Nat × Node)) (k : Nat) (A : List Nat) (hA : A.Nodup) (hlen : 2 ≤ A.length) :
    ∃ x y, mergeStep nodes k A =
        some (Table.write Node.zero nodes k
            (internalNode (BitVec.ofNat 9 x) (BitVec.ofNat 9 y) (weightAt nodes x + weightAt nodes y)),
          k :: (A.erase x).erase y) ∧
      isFirst nodes (· ∈ A) x ∧ isFirst nodes (fun i => i ∈ A ∧ i ≠ x) y := by
  obtain ⟨a, rest, rfl⟩ : ∃ a rest, A = a :: rest := List.exists_cons_of_length_pos (by omega)
  obtain ⟨hm, hl⟩ := lightest_spec nodes a rest
  let x := lightest nodes a rest
  have hlen' : ((a :: rest).erase x).length = rest.length := by
    rw [List.length_erase_of_mem hm]; simp
  have hpos : 0 < ((a :: rest).erase x).length := by
    rw [hlen']; simp only [List.length_cons] at hlen; omega
  obtain ⟨b, rest', hb⟩ : ∃ b rest', (a :: rest).erase x = b :: rest' := List.exists_cons_of_length_pos hpos
  obtain ⟨hm', hl'⟩ := lightest_spec nodes b rest'
  have hmem : ∀ i, i ∈ b :: rest' ↔ i ∈ a :: rest ∧ i ≠ x := fun i => by
    rw [← hb, hA.mem_erase_iff, and_comm]
  refine ⟨x, lightest nodes b rest', ?_, ⟨hm, hl⟩, (hmem _).1 hm', fun i hi hne => hl' i ((hmem i).2 hi) hne⟩
  have e1 : extractMin nodes (a :: rest) = some (x, b :: rest') := by
    rw [← hb]; rfl
  simp only [mergeStep, e1]
  rw [hb]
  rfl

/-! ### The merge loop -/

/-- What holds before every pass of the merge loop: the table has the leaves and the internal nodes below `k`, each made
over the two lightest nodes of its time, and `A` is the active set. -/
structure LoopInv (freq : List (Nat × Count)) (nodes : List (Nat × Node)) (k : Nat) (A : List Nat) : Prop where
  low : 256 ≤ k
  nodup : A.Nodup
  size : A.length + (k - 256) = (symbols freq).length
  wf : Table.wf Node.zero Config.nNode nodes = true
  valid : ∀ j, (Table.read Node.zero nodes j).valid = true ↔
    (j < 256 ∧ Table.read 0#32 freq j ≠ 0) ∨ (256 ≤ j ∧ j < k)
  invalid : ∀ j, (Table.read Node.zero nodes j).valid = false → Table.read Node.zero nodes j = Node.zero
  leaf : ∀ j, j < 256 → Table.read 0#32 freq j ≠ 0 → Table.read Node.zero nodes j = leafNode j (Table.read 0#32 freq j)
  active : ∀ i, i ∈ A ↔ activeAt nodes k i
  merged : ∀ j, 256 ≤ j → j < k → ∃ x y, x ≠ y ∧
    Table.read Node.zero nodes j =
      internalNode (BitVec.ofNat 9 x) (BitVec.ofNat 9 y) (weightAt nodes x + weightAt nodes y) ∧
    isFirst nodes (activeAt nodes j) x ∧ isFirst nodes (fun i => activeAt nodes j i ∧ i ≠ x) y
  weights : (A.map (fun i => (weightAt nodes i).toNat)).sum = freqSum freq
  exact : ∀ j, 256 ≤ j → j < k → (weightAt nodes j).toNat =
    childWeight nodes (Table.read Node.zero nodes j).left + childWeight nodes (Table.read Node.zero nodes j).right

/-- A NODE index fits its 9-bit field. -/
theorem toNat_ofNat_idx {x : Nat} (h : x < 512) : (BitVec.ofNat 9 x).toNat = x := by
  simp only [BitVec.toNat_ofNat]; omega

theorem ofNat_idx_ne_nil {x : Nat} (h : x < 511) : BitVec.ofNat 9 x ≠ Config.nil := by
  intro he
  have := congrArg BitVec.toNat he
  rw [toNat_ofNat_idx (by omega)] at this
  have h511 : (Config.nil).toNat = 511 := rfl
  omega

/-- The children of a node made over `x` and `y` are `x` and `y`. -/
theorem isChild_internalNode {nodes : List (Nat × Node)} {p x y : Nat} {w : Count} (hx : x < 512) (hy : y < 512)
    (h : Table.read Node.zero nodes p = internalNode (BitVec.ofNat 9 x) (BitVec.ofNat 9 y) w) (i : Nat) :
    isChild nodes p i ↔ i = x ∨ i = y := by
  simp only [isChild, isInternal, h, internalNode, toNat_ofNat_idx hx, toNat_ofNat_idx hy, true_and, eq_comm]

theorem isChild_congr {nodes nodes' : List (Nat × Node)} {p i : Nat}
    (h : Table.read Node.zero nodes p = Table.read Node.zero nodes' p) : isChild nodes p i ↔ isChild nodes' p i := by
  simp only [isChild, isInternal, h]

/-- The active set at `j` reads only entries below `j`. -/
theorem activeAt_congr {nodes nodes' : List (Nat × Node)} {j : Nat}
    (h : ∀ p, p < j → Table.read Node.zero nodes p = Table.read Node.zero nodes' p) (i : Nat) :
    activeAt nodes j i ↔ activeAt nodes' j i := by
  unfold activeAt
  refine and_congr_right fun hi => ?_
  rw [h i hi]
  refine and_congr_right fun _ => forall_congr' fun p => forall_congr' fun _ => forall_congr' fun hp => ?_
  rw [isChild_congr (h p hp)]

theorem isFirst_congr {nodes nodes' : List (Nat × Node)} {A A' : Nat → Prop} {x : Nat} (hA : ∀ i, A i ↔ A' i)
    (h : ∀ i, A i → Table.read Node.zero nodes i = Table.read Node.zero nodes' i)
    (hx : isFirst nodes A x) : isFirst nodes' A' x := by
  refine ⟨(hA x).1 hx.1, fun i hi hne => ?_⟩
  rw [← lighter_congr (h x hx.1) (h i ((hA i).2 hi))]
  exact hx.2 i ((hA i).2 hi) hne

/-- The leaves, with the whole alphabet active, start the loop. -/
theorem LoopInv.start (freq : List (Nat × Count)) : LoopInv freq (leaves freq) 256 (symbols freq) where
  low := Nat.le_refl _
  nodup := symbols_nodup freq
  size := by omega
  wf := wf_leaves freq
  valid j := by
    rw [read_leaves]
    split
    · next h => exact ⟨fun _ => .inl h, fun _ => rfl⟩
    · next h => simp only [Node.zero, Bool.false_eq_true, false_iff]; rintro (h' | h'); exacts [h h', by omega]
  invalid j hj := by
    rw [read_leaves] at hj ⊢
    split at hj
    · simp [leafNode] at hj
    · next h => rw [if_neg h]
  leaf j hj hf := by rw [read_leaves, if_pos ⟨hj, hf⟩]
  active i := by
    rw [mem_symbols, activeAt, read_leaves]
    constructor
    · intro h
      exact ⟨h.1, by rw [if_pos h]; rfl, fun p hp hp' => absurd hp (by simp only [Config.firstInternal]; omega)⟩
    · rintro ⟨_, hv, _⟩
      by_contra h
      rw [if_neg h] at hv
      simp [Node.zero] at hv
  merged j hj hj' := by omega
  weights := by
    rw [freqSum_eq_symbols]
    congr 1
    refine List.map_congr_left fun k hk => ?_
    rw [weightAt, read_leaves, if_pos ((mem_symbols freq k).1 hk)]
    rfl
  exact j hj hj' := by omega

/-- A pass of the merge loop on two or more elements succeeds, keeps the invariant, and leaves one element fewer. -/
theorem LoopInv.step {freq : List (Nat × Count)} {nodes : List (Nat × Node)} {k : Nat} {A : List Nat}
    (h : LoopInv freq nodes k A) (hlen : 2 ≤ A.length) (hsum : freqSum freq < 2 ^ 32) :
    ∃ nodes' A', mergeStep nodes k A = some (nodes', A') ∧ LoopInv freq nodes' (k + 1) A' ∧
      A'.length + 1 = A.length := by
  obtain ⟨x, y, hstep, hx, hy⟩ := mergeStep_spec nodes k A h.nodup hlen
  have hk : k ≤ 510 := by
    have h1 := h.size
    have h2 := symbols_length_le freq
    have h3 := h.low
    omega
  have hxk : x < k := ((h.active x).1 hx.1).1
  have hyk : y < k := ((h.active y).1 hy.1.1).1
  have hxy : x ≠ y := Ne.symm hy.1.2
  let w := weightAt nodes x + weightAt nodes y
  let nodes' := Table.write Node.zero nodes k (internalNode (BitVec.ofNat 9 x) (BitVec.ofNat 9 y) w)
  have hread : ∀ j, Table.read Node.zero nodes' j =
      if j = k then internalNode (BitVec.ofNat 9 x) (BitVec.ofNat 9 y) w else Table.read Node.zero nodes j :=
    Table.read_write Node.zero nodes k _
  have hnew : Table.read Node.zero nodes' k = internalNode (BitVec.ofNat 9 x) (BitVec.ofNat 9 y) w := by simp [hread]
  have hold : ∀ j, j ≠ k → Table.read Node.zero nodes j = Table.read Node.zero nodes' j := fun j hj => by
    simp [hread, hj]
  have hyA : y ∈ A.erase x := (h.nodup.mem_erase_iff).2 ⟨hy.1.2, hy.1.1⟩
  have hnd : (A.erase x).Nodup := h.nodup.erase x
  have hmem : ∀ i, i ∈ (A.erase x).erase y ↔ i ∈ A ∧ i ≠ x ∧ i ≠ y := fun i => by
    rw [hnd.mem_erase_iff, h.nodup.mem_erase_iff]
    exact ⟨fun h => ⟨h.2.2, h.2.1, h.1⟩, fun h => ⟨h.2.2, h.2.1, h.1⟩⟩
  have hkA : k ∉ A := by
    intro hc
    have hlt : k < k := ((h.active k).1 hc).1
    exact Nat.lt_irrefl k hlt
  have hactive : ∀ i, i ∈ k :: (A.erase x).erase y ↔ activeAt nodes' (k + 1) i := by
    intro i
    rw [List.mem_cons, hmem, h.active]
    have hch := isChild_internalNode (by omega : x < 512) (by omega : y < 512) hnew
    constructor
    · rintro (rfl | ⟨⟨hi, hv, hp⟩, hix, hiy⟩)
      · refine ⟨by omega, by rw [hnew]; rfl, fun p hp hp' hc => ?_⟩
        by_cases hpk : p = i
        · subst hpk
          rcases (hch p).1 hc with rfl | rfl <;> omega
        · rw [← isChild_congr (hold p hpk)] at hc
          obtain ⟨x', y', _, hm, hf, hf'⟩ := h.merged p hp (by omega)
          have hx' : x' < p := hf.1.1
          have hy' : y' < p := hf'.1.1.1
          rcases (isChild_internalNode (by omega) (by omega) hm i).1 hc with rfl | rfl <;> omega
      · refine ⟨by omega, by rw [← hold i (by omega)]; exact hv, fun p hp1 hp2 hc => ?_⟩
        by_cases hpk : p = k
        · subst hpk
          rcases (hch i).1 hc with rfl | rfl
          · exact hix rfl
          · exact hiy rfl
        · rw [← isChild_congr (hold p hpk)] at hc
          exact hp p hp1 (by omega) hc
    · rintro ⟨hi, hv, hp⟩
      by_cases hik : i = k
      · exact .inl hik
      · refine .inr ⟨⟨by omega, by rwa [hold i hik], fun p hp1 hp2 hc => ?_⟩, ?_, ?_⟩
        · rw [isChild_congr (hold p (by omega))] at hc
          exact hp p hp1 (by omega) hc
        · rintro rfl; exact hp k h.low (by omega) ((hch i).2 (.inl rfl))
        · rintro rfl; exact hp k h.low (by omega) ((hch i).2 (.inr rfl))
  have hperm : A.Perm (x :: y :: (A.erase x).erase y) :=
    (List.perm_cons_erase hx.1).trans ((List.perm_cons_erase hyA).cons x)
  have hsumA : (weightAt nodes x).toNat + ((weightAt nodes y).toNat +
      (((A.erase x).erase y).map (fun i => (weightAt nodes i).toNat)).sum) = freqSum freq := by
    have := (hperm.map (fun i => (weightAt nodes i).toNat)).sum_eq
    rw [h.weights] at this
    simpa using this.symm
  have hw : w.toNat = (weightAt nodes x).toNat + (weightAt nodes y).toNat := by
    show (weightAt nodes x + weightAt nodes y).toNat = _
    rw [BitVec.toNat_add]
    omega
  have hwnew : weightAt nodes' k = w := by rw [weightAt, hnew]; rfl
  have hwold : ∀ j, j ≠ k → weightAt nodes' j = weightAt nodes j := fun j hj => by
    rw [weightAt, weightAt, hold j hj]
  refine ⟨nodes', k :: (A.erase x).erase y, hstep, ?_, ?_⟩
  · refine
      { low := by have := h.low; omega
        nodup := List.nodup_cons.2 ⟨fun hc => hkA ((hmem k).1 hc).1, hnd.erase y⟩
        size := ?_
        wf := Table.wf_write _ _ _ _ _ h.wf (by show k < 511; omega)
        valid := fun j => ?_
        invalid := fun j hj => ?_
        leaf := fun j hj hf => ?_
        active := hactive
        merged := fun j hj hj' => ?_
        weights := ?_
        exact := fun j hj hj' => ?_ }
    · have h1 := h.size
      have h2 := hperm.length_eq
      have h3 := h.low
      simp only [List.length_cons] at h2 ⊢
      omega
    · by_cases hjk : j = k
      · rw [hjk, hnew]
        have := h.low
        simp only [internalNode, true_iff]
        exact .inr ⟨h.low, by omega⟩
      · rw [← hold j hjk, h.valid]
        have : j < k + 1 ↔ j < k := by omega
        rw [this]
    · by_cases hjk : j = k
      · rw [hjk, hnew] at hj
        simp [internalNode] at hj
      · rw [← hold j hjk] at hj ⊢
        exact h.invalid j hj
    · rw [← hold j (by have := h.low; omega)]
      exact h.leaf j hj hf
    · by_cases hjk : j = k
      · subst hjk
        refine ⟨x, y, hxy, ?_, ?_, ?_⟩
        · rw [hnew, hwold x (by omega), hwold y (by omega)]
        · refine isFirst_congr (fun i => (h.active i).trans (activeAt_congr (fun p hp => hold p (by omega)) i)) ?_ hx
          exact fun i hi => hold i (by have := ((h.active i).1 hi).1; omega)
        · refine isFirst_congr (fun i => and_congr_left fun _ =>
            (h.active i).trans (activeAt_congr (fun p hp => hold p (by omega)) i)) ?_ hy
          exact fun i hi => hold i (by have := ((h.active i).1 hi.1).1; omega)
      · obtain ⟨x', y', hne, hm, hf, hf'⟩ := h.merged j hj (by omega)
        have hx' : x' < j := hf.1.1
        have hy' : y' < j := hf'.1.1.1
        have hcong := activeAt_congr (nodes := nodes) (nodes' := nodes') (j := j) fun p hp => hold p (by omega)
        refine ⟨x', y', hne, ?_, ?_, ?_⟩
        · rw [← hold j hjk, hwold x' (by omega), hwold y' (by omega)]; exact hm
        · exact isFirst_congr hcong (fun i hi => hold i (by have := hi.1; omega)) hf
        · exact isFirst_congr (fun i => and_congr_left fun _ => hcong i)
            (fun i hi => hold i (by have := hi.1.1; omega)) hf'
    · rw [List.map_cons, List.sum_cons, hwnew, hw, ← hsumA]
      have : ((A.erase x).erase y).map (fun i => (weightAt nodes' i).toNat) =
          ((A.erase x).erase y).map (fun i => (weightAt nodes i).toNat) :=
        List.map_congr_left fun i hi => by rw [hwold i (by rintro rfl; exact hkA ((hmem i).1 hi).1)]
      rw [this]
      omega
    · have hcw : ∀ i : Idx, i.toNat < k → childWeight nodes' i = childWeight nodes i := fun i hi => by
        unfold childWeight
        rw [hwold i.toNat (by omega)]
      by_cases hjk : j = k
      · subst hjk
        rw [hwnew, hw, hnew]
        simp only [internalNode]
        rw [hcw _ (by rw [toNat_ofNat_idx (by omega)]; omega), hcw _ (by rw [toNat_ofNat_idx (by omega)]; omega)]
        unfold childWeight
        rw [if_neg (ofNat_idx_ne_nil (by omega)), if_neg (ofNat_idx_ne_nil (by omega)), toNat_ofNat_idx (by omega),
          toNat_ofNat_idx (by omega)]
      · obtain ⟨x', y', hne, hm, hf, hf'⟩ := h.merged j hj (by omega)
        have hx' : x' < j := hf.1.1
        have hy' : y' < j := hf'.1.1.1
        have := h.exact j hj (by omega)
        rw [hm] at this
        rw [hwold j hjk, ← hold j hjk, hm]
        simp only [internalNode] at this ⊢
        rw [hcw _ (by rw [toNat_ofNat_idx (by omega)]; omega), hcw _ (by rw [toNat_ofNat_idx (by omega)]; omega)]
        exact this
  · have := hperm.length_eq
    simp only [List.length_cons] at this ⊢
    omega

/-- The merge loop runs until one element is left. -/
theorem LoopInv.loop {freq : List (Nat × Count)} (hsum : freqSum freq < 2 ^ 32) (passes : Nat) :
    ∀ {nodes : List (Nat × Node)} {k : Nat} {A : List Nat}, LoopInv freq nodes k A → A.length = passes + 1 →
      ∃ r, LoopInv freq (mergeLoop passes nodes k A) (k + passes) [r] := by
  induction passes with
  | zero =>
    intro nodes k A h hlen
    obtain ⟨r, rfl⟩ := List.length_eq_one_iff.1 hlen
    exact ⟨r, h⟩
  | succ passes ih =>
    intro nodes k A h hlen
    obtain ⟨nodes', A', hstep, h', hlen'⟩ := h.step (by omega) hsum
    obtain ⟨r, hr⟩ := ih h' (by omega)
    refine ⟨r, ?_⟩
    simp only [mergeLoop, hstep]
    rw [show k + (passes + 1) = k + 1 + passes by omega]
    exact hr

/-- The table BLD builds over two or more symbols: it ends with the root, index 254 + n, alone in the active set. -/
theorem buildNodes_loop {freq : List (Nat × Count)} (hsum : freqSum freq < 2 ^ 32) (hn : 2 ≤ (symbols freq).length) :
    LoopInv freq (buildNodes freq) (255 + (symbols freq).length) [254 + (symbols freq).length] := by
  have hstart := LoopInv.start freq
  unfold buildNodes
  match hs : symbols freq, hn with
  | a :: b :: rest, _ =>
    obtain ⟨r, hr⟩ := LoopInv.loop hsum (rest.length + 1) hstart (by rw [hs]; rfl)
    rw [hs] at hr
    have hlen : (a :: b :: rest).length = rest.length + 2 := rfl
    have hk : 256 + (rest.length + 1) = 255 + (a :: b :: rest).length := by omega
    simp only
    rw [hk] at hr
    have hmem : 254 + (a :: b :: rest).length ∈ [r] := by
      rw [hr.active]
      refine ⟨by omega, (hr.valid _).2 (.inr ⟨by omega, by omega⟩), fun p hp hp' hc => ?_⟩
      obtain ⟨x', y', _, hm, hf, hf'⟩ := hr.merged p hp hp'
      have h1 : x' < p := hf.1.1
      have h2 : y' < p := hf'.1.1.1
      have h3 := symbols_length_le freq
      rw [hs] at h3
      rcases (isChild_internalNode (by omega) (by omega) hm _).1 hc with h | h <;> omega
    rw [List.mem_singleton] at hmem
    rw [hmem]
    exact hr

/-- Every table BLD builds is in canonical form. -/
theorem wf_mergeLoop (passes : Nat) : ∀ (nodes : List (Nat × Node)) (k : Nat) (A : List Nat),
    Table.wf Node.zero Config.nNode nodes = true → k + passes ≤ 511 →
      Table.wf Node.zero Config.nNode (mergeLoop passes nodes k A) = true := by
  induction passes with
  | zero => exact fun nodes _ _ h _ => h
  | succ passes ih =>
    intro nodes k A h hk
    simp only [mergeLoop]
    split
    · exact h
    · next nodes' A' hs =>
      refine ih nodes' (k + 1) A' ?_ (by omega)
      unfold mergeStep at hs
      split at hs
      · cases hs
      · split at hs
        · cases hs
        · cases hs
          exact Table.wf_write _ _ _ _ _ h (by show k < 511; omega)

theorem wf_buildNodes (freq : List (Nat × Count)) :
    Table.wf Node.zero Config.nNode (buildNodes freq) = true := by
  have h3 := symbols_length_le freq
  unfold buildNodes
  match hs : symbols freq with
  | [] => exact wf_leaves freq
  | [k] => exact Table.wf_write _ _ _ _ _ (wf_leaves freq) (by show 256 < 511; omega)
  | a :: b :: rest =>
    rw [hs] at h3
    simp only [List.length_cons] at h3
    exact wf_mergeLoop _ _ _ _ (wf_leaves freq) (by show 256 + (rest.length + 1) ≤ 511; omega)

end Sys2Proof.Machine
end

