-- ==== Sys2Proof/Laws/Tree.lean ====
section
/-! SUPPORT. The shape of a tree that meets the tree invariant of spec/10_state.md R30: where its children, its root and
its leaves are, and that every valid node is reached by a path. -/

namespace Sys2Proof.Machine

/-- A child of an internal node has a smaller index and is valid; only the synthetic root's right child is NIL (R30). -/
theorem treeInv_child {s : State} (hf : FreqInv s) (h : TreeInv s) (j : Nat) (hj : isInternal s.node j) (b : Digit) :
    256 ≤ j ∧ j ≤ 510 ∧ let c := (s.nodeAt j).child b
    c = Config.nil ∧ s.nsym.toNat = 1 ∧ b = true ∨
      (c ≠ Config.nil ∧ c.toNat < j ∧ (s.nodeAt c.toNat).valid = true) := by
  have hle := symbols_length_le s.freq
  have hn := hf.nsym_eq
  obtain ⟨hv, hl⟩ := hj
  match hs : symbols s.freq with
  | [] =>
    have := (h.noSymbol (by rw [hn, hs]; rfl)).2.2.2.2 j
    exact absurd hv (by rw [show Table.read Node.zero s.node j = s.nodeAt j from rfl, this]; simp)
  | [k] =>
    obtain ⟨_, _, _, _, h256, hvalid⟩ := h.oneSymbol k hs
    have hk : k < 256 ∧ Table.read 0#32 s.freq k ≠ 0 := (mem_symbols _ _).1 (by rw [hs]; simp)
    rcases (hvalid j).1 hv with rfl | rfl
    · have := h.leaf j hk.1 hk.2
      rw [show Table.read Node.zero s.node j = s.nodeAt j from rfl, this] at hl; cases hl
    · refine ⟨by omega, by omega, ?_⟩
      simp only [h256, Node.child, internalNode]
      cases b
      · right
        simp only [Bool.false_eq_true, if_false, toNat_ofNat_idx (by omega : k < 512)]
        exact ⟨ofNat_idx_ne_nil (by omega), by omega, (hvalid k).2 (.inl rfl)⟩
      · left; simp [hn, hs]
  | a :: b' :: rest =>
    obtain ⟨_, _, _, _, hvalid, hkids⟩ := h.manySymbols (by rw [hn, hs]; simp)
    have hj : 256 ≤ j ∧ j ≤ 254 + s.nsym.toNat := by
      rcases (hvalid j).1 hv with hp | hp
      · have := h.leaf j hp.1 hp.2
        rw [show Table.read Node.zero s.node j = s.nodeAt j from rfl, this] at hl; cases hl
      · exact hp
    have := hkids j hj.1 hj.2
    refine ⟨hj.1, by omega, .inr ?_⟩
    have hnil : (Config.nil).toNat = 511 := rfl
    cases b
    · refine ⟨fun hc => ?_, this.1, this.2.2.2.1⟩
      have h1 := this.1
      simp only [Node.child, Bool.false_eq_true, if_false] at hc
      rw [hc, hnil] at h1
      omega
    · refine ⟨fun hc => ?_, this.2.1, this.2.2.2.2⟩
      have h1 := this.2.1
      simp only [Node.child, if_true] at hc
      rw [hc, hnil] at h1
      omega

/-- The root is NIL exactly for the empty alphabet, and a valid internal node otherwise (R30). -/
theorem treeInv_root {s : State} (hf : FreqInv s) (h : TreeInv s) :
    (s.root = Config.nil ∧ symbols s.freq = []) ∨
      (s.root ≠ Config.nil ∧ isInternal s.node s.root.toNat ∧ symbols s.freq ≠ []) := by
  have hle := symbols_length_le s.freq
  have hn := hf.nsym_eq
  have hnil : (Config.nil).toNat = 511 := rfl
  match hs : symbols s.freq with
  | [] => exact .inl ⟨(h.noSymbol (by rw [hn, hs]; rfl)).1, rfl⟩
  | [k] =>
    obtain ⟨hr, _, _, _, h256, hvalid⟩ := h.oneSymbol k hs
    have e : s.root.toNat = 256 := by rw [hr]; rfl
    refine .inr ⟨by rw [hr]; decide, ?_, by simp⟩
    rw [e]
    exact ⟨(hvalid 256).2 (.inr rfl), by show (s.nodeAt 256).leaf = false; rw [h256]; rfl⟩
  | a :: b' :: rest =>
    have h2 : 2 ≤ s.nsym.toNat := by rw [hn, hs]; simp
    obtain ⟨hr, _, _, _, hvalid, _⟩ := h.manySymbols h2
    have hv := (hvalid s.root.toNat).2 (.inr (by omega))
    refine .inr ⟨fun hc => by rw [hc, hnil] at hr; omega, ⟨hv, (h.internal _ (by omega) hv).1⟩, by simp⟩

/-- A valid leaf is the leaf of a symbol of the alphabet (R30). -/
theorem treeInv_leaf {s : State} (hf : FreqInv s) (h : TreeInv s) (j : Nat) (hv : (s.nodeAt j).valid = true)
    (hl : (s.nodeAt j).leaf = true) : j < 256 ∧ s.freqAt j ≠ 0 ∧ s.nodeAt j = leafNode j (s.freqAt j) := by
  have hj : j < 256 := by
    by_contra hc
    have := (h.internal j (by omega) hv).1
    rw [hl] at this; cases this
  have hn := hf.nsym_eq
  have hfr : s.freqAt j ≠ 0 := by
    match hs : symbols s.freq with
    | [] =>
      have := (h.noSymbol (by rw [hn, hs]; rfl)).2.2.2.2 j
      rw [this] at hv; cases hv
    | [k] =>
      rcases ((h.oneSymbol k hs).2.2.2.2.2 j).1 hv with rfl | h'
      · exact ((mem_symbols _ _).1 (by rw [hs]; simp)).2
      · omega
    | a :: b :: rest =>
      rcases ((h.manySymbols (by rw [hn, hs]; simp)).2.2.2.2.1 j).1 hv with h' | h'
      · exact h'.2
      · omega
  exact ⟨hj, hfr, h.leaf j hj hfr⟩

/-- A path of the walk to a leaf is a path in the tree. -/
theorem follow_of_leafPath {s : State} (hf : FreqInv s) (h : TreeInv s) (p : List Digit) (k : Nat) :
    ∀ i : Idx, (i ≠ Config.nil → (s.nodeAt i.toNat).valid = true) → leafPath s.node i p k →
      follow s.node i p = some (BitVec.ofNat 9 k) ∧ k < 256 ∧ s.freqAt k ≠ 0 := by
  induction p with
  | nil =>
    intro i hi hp
    obtain ⟨hin, hl, hsym⟩ := hp
    obtain ⟨h1, h2, h3⟩ := treeInv_leaf hf h i.toNat (hi hin) hl
    have : k = i.toNat := by
      rw [← hsym, show Table.read Node.zero s.node i.toNat = s.nodeAt i.toNat from rfl, h3]
      simp only [leafNode, BitVec.toNat_ofNat]; omega
    subst this
    exact ⟨by simp [follow], h1, h2⟩
  | cons b p ih =>
    intro i hi hp
    obtain ⟨hin, hl, hp⟩ := hp
    have hv := hi hin
    have hc := (treeInv_child hf h i.toNat ⟨hv, hl⟩ b).2.2
    have := ih _ (fun hne => by
      rcases hc with hc | hc
      · exact absurd hc.1 hne
      · exact hc.2.2) hp
    refine ⟨?_, this.2⟩
    simp only [follow]
    rw [if_pos ⟨hin, hv, hl⟩]
    exact this.1

/-- A path in the tree to a symbol's leaf is one the walk takes. -/
theorem leafPath_of_follow {s : State} (h : TreeInv s) (p : List Digit) (k : Nat) (hk : k < 256)
    (hfk : s.freqAt k ≠ 0) : ∀ i : Idx, follow s.node i p = some (BitVec.ofNat 9 k) → leafPath s.node i p k := by
  induction p with
  | nil =>
    intro i hp
    simp only [follow, Option.some.injEq] at hp
    subst hp
    have hl := h.leaf k hk hfk
    simp only [leafPath, toNat_ofNat_idx (by omega : k < 512)]
    rw [show Table.read Node.zero s.node k = s.nodeAt k from rfl, hl]
    refine ⟨ofNat_idx_ne_nil (by omega), rfl, ?_⟩
    simp only [leafNode, BitVec.toNat_ofNat]; omega
  | cons b p ih =>
    intro i hp
    simp only [follow] at hp
    split at hp
    · next hc => exact ⟨hc.1, hc.2.2, ih _ hp⟩
    · cases hp

/-- A path in two parts. -/
theorem follow_append {nodes : List (Nat × Node)} (p q : List Digit) :
    ∀ i, follow nodes i (p ++ q) = (follow nodes i p).bind (fun j => follow nodes j q) := by
  induction p with
  | nil => intro i; rfl
  | cons b p ih =>
    intro i
    simp only [List.cons_append, follow]
    split
    · exact ih _
    · rfl

/-- Every valid node is reached from the root (R30). -/
theorem reach {s : State} (hf : FreqInv s) (h : TreeInv s) : ∀ d j, 511 ≤ j + d → (s.nodeAt j).valid = true → j < 511 →
    s.root ≠ Config.nil → ∃ p, follow s.node s.root p = some (BitVec.ofNat 9 j) := by
  intro d
  induction d with
  | zero => intro j hj _ hj'; omega
  | succ d ih =>
    intro j hj hv hj' hr
    by_cases hjr : j = s.root.toNat
    · exact ⟨[], by subst hjr; simp [follow]⟩
    · obtain ⟨q, hq, _⟩ := h.oneParent j hv hjr
      have hi := hq.1
      have hc : ∀ b, _ := fun b => treeInv_child hf h q hi b
      have hlt : j < q ∧ ∃ b, (s.nodeAt q).child b = BitVec.ofNat 9 j := by
        have key : ∀ b, ((s.nodeAt q).child b).toNat = j → j < q ∧ ∃ b, (s.nodeAt q).child b = BitVec.ofNat 9 j := by
          intro b hb
          have hnil : (Config.nil).toNat = 511 := rfl
          rcases (hc b).2.2 with h1 | h1
          · rw [h1.1, hnil] at hb; omega
          · refine ⟨by have := h1.2.1; omega, b, ?_⟩
            apply BitVec.eq_of_toNat_eq
            rw [hb, toNat_ofNat_idx (by omega)]
        rcases hq.2 with h1 | h1
        · exact key false h1
        · exact key true h1
      have hq5 := (hc true).2.1
      obtain ⟨p, hp⟩ := ih q (by omega) hi.1 (by omega) hr
      obtain ⟨b, hb⟩ := hlt.2
      refine ⟨p ++ [b], ?_⟩
      rw [follow_append, hp]
      simp only [Option.bind_some, follow, toNat_ofNat_idx (by omega : q < 512)]
      rw [if_pos ⟨ofNat_idx_ne_nil (by omega), hi⟩]
      exact congrArg some hb

end Sys2Proof.Machine
end

