-- ==== Sys2Proof/Machine/Assembler.lean ====
section
/-! DEFINITION. The assembler syntax of spec/30_encoding.md R71 and its pseudo-instructions (R72): from a line's
characters to the commands it stands for. The block knows nothing of it; where R71 and R72 leave the text open, log
entry 18 says what is read. -/

namespace Sys2Proof.Machine

/-- The single quote around a character. -/
def quote : Char := Char.ofNat 39

/-- The double quote around a text. -/
def doubleQuote : Char := Char.ofNat 34

/-- A printable ASCII character (R71). -/
def printable (c : Char) : Bool := decide (32 ≤ c.toNat) && decide (c.toNat ≤ 126)

/-- Without leading spaces. -/
def skipSpaces (cs : List Char) : List Char := cs.dropWhile (fun c => decide (c = ' '))

/-- Nothing is left on the line but spaces and a comment (R71). -/
def lineEnds (cs : List Char) : Bool :=
  match skipSpaces cs with
  | [] => true
  | c :: _ => decide (c = ';')

/-- A line split at the end of its first word. -/
def takeWord (cs : List Char) : List Char × List Char := cs.span (fun c => decide (c ≠ ' ') && decide (c ≠ ';'))

/-! ### Operands (R71) -/

/-- The value of a decimal or (`base` = 16) hexadecimal digit. -/
def digitValue (base : Nat) (c : Char) : Option Nat :=
  let n := c.toNat
  if 48 ≤ n ∧ n ≤ 57 then some (n - 48)
  else if base = 16 ∧ 65 ≤ n ∧ n ≤ 70 then some (n - 55)
  else if base = 16 ∧ 97 ≤ n ∧ n ≤ 102 then some (n - 87)
  else none

/-- The digits of a number read from the left, after `value`. -/
def readDigits (base : Nat) : Nat → List Char → Option Nat
  | value, [] => some value
  | value, c :: rest =>
    match digitValue base c with
    | some d => readDigits base (base * value + d) rest
    | none => none

/-- A hexadecimal number written `0x..`, or a decimal number. R71 is silent on how many digits a number has and on the
case of its letters: any number of digits, in either case, is read (DESIGN CHOICE, log entry 18). -/
def readNumber : List Char → Option Nat
  | [] => none
  | [c] => readDigits 10 0 [c]
  | c :: d :: rest =>
    if c = '0' ∧ d = 'x' then (if rest = [] then none else readDigits 16 0 rest) else readDigits 10 0 (c :: d :: rest)

/-- A number up to `top`. -/
def readUpTo (top : Nat) (word : List Char) : Option Nat :=
  match readNumber word with
  | some v => if v ≤ top then some v else none
  | none => none

/-- A symbol and the rest of the line: `0x61`, `97` or `'a'`. -/
def readSym (cs : List Char) : Option (Sym × List Char) :=
  match cs with
  | q :: c :: q' :: rest =>
    if q = quote then (if printable c ∧ q' = quote then some (BitVec.ofNat 8 c.toNat, rest) else none)
    else (readUpTo 255 (takeWord cs).1).map (fun v => (BitVec.ofNat 8 v, (takeWord cs).2))
  | _ => (readUpTo 255 (takeWord cs).1).map (fun v => (BitVec.ofNat 8 v, (takeWord cs).2))

/-- A bit: `0` or `1`. -/
def readBit (cs : List Char) : Option (Digit × List Char) :=
  match takeWord cs with
  | (['0'], rest) => some (false, rest)
  | (['1'], rest) => some (true, rest)
  | _ => none

/-- The names of the registers, by number (R21). -/
def registerNames : List (List Char) :=
  ["STATUS", "ERR", "ERR_SYM", "ERR_POS", "ERR_CMD", "TOTAL", "NSYM", "ROOT", "NINT", "EPOS", "DPOS", "DCUR"].map
    String.toList

/-- A register: its name or its number, which may be decimal or hexadecimal (DESIGN CHOICE, log entry 18). -/
def readReg (cs : List Char) : Option (BitVec 4 × List Char) :=
  let w := takeWord cs
  match registerNames.findIdx? (fun name => decide (name = w.1)) with
  | some n => some (BitVec.ofNat 4 n, w.2)
  | none => (readUpTo 11 w.1).map (fun v => (BitVec.ofNat 4 v, w.2))

/-- A node index: a number 0 to 511, or `NIL`. -/
def readIdx (cs : List Char) : Option (Idx × List Char) :=
  let w := takeWord cs
  if w.1 = ['N', 'I', 'L'] then some (Config.nil, w.2) else (readUpTo 511 w.1).map (fun v => (BitVec.ofNat 9 v, w.2))

/-- The operand of one command, which the line must end after. -/
def oneOperand {α : Type} (r : Option (α × List Char)) (f : α → Instr) : Option (List Instr) :=
  match r with
  | some (a, rest) => if lineEnds rest then some [f a] else none
  | none => none

/-! ### The texts of the pseudo-instructions (R72) -/

/-- The characters up to the closing double quote, after which the line must end. -/
def readText : List Char → Option (List Char)
  | [] => none
  | c :: rest =>
    if c = doubleQuote then (if lineEnds rest then some [] else none)
    else (readText rest).map (fun t => c :: t)

/-- A text in double quotes stands for its ASCII bytes. -/
def textBytes (text : List Char) : Option (List Sym) :=
  text.mapM (fun c => if printable c then some (BitVec.ofNat 8 c.toNat) else none)

/-- The words of a line, `n` at most, up to a comment. -/
def readWords : Nat → List Char → List (List Char)
  | 0, _ => []
  | n + 1, cs => if lineEnds cs then [] else (takeWord (skipSpaces cs)).1 :: readWords n (takeWord (skipSpaces cs)).2

/-- A byte written as two hexadecimal digits, the form of the byte lists of spec/95_test_vectors.md. -/
def readByte (word : List Char) : Option Sym :=
  match word with
  | [_, _] => (readDigits 16 0 word).map (BitVec.ofNat 8)
  | _ => none

/-- The bytes after CNTS or ENCS: a text in double quotes, or a list of bytes. The empty string is no bytes (R72); with
no operand at all, a comment or not, the line is not read (DESIGN CHOICE, log entry 18). -/
def readBytes (cs : List Char) : Option (List Sym) :=
  match cs with
  | c :: rest =>
    if c = doubleQuote then
      match readText rest with
      | some text => textBytes text
      | none => none
    else if lineEnds cs then none
    else (readWords cs.length cs).mapM readByte
  | [] => none

/-- The digits after DECS: a string of 0 and 1 in double quotes, empty or not (DESIGN CHOICE for the empty one, log
entry 18). -/
def readDigitText (cs : List Char) : Option (List Digit) :=
  match cs with
  | c :: rest =>
    if c = doubleQuote then
      match readText rest with
      | some text => text.mapM (fun d => if d = '0' then some false else if d = '1' then some true else none)
      | none => none
    else none
  | [] => none

/-! ### Lines -/

/-- The commands of one line: a mnemonic in upper case, at most one operand, a comment (R71, R72); none where the line
is not in the syntax. -/
def assembleLine (line : List Char) : Option (List Instr) :=
  if lineEnds line then some []
  else
    let word := (takeWord (skipSpaces line)).1
    let rest := (takeWord (skipSpaces line)).2
    let arg := skipSpaces rest
    let plain := fun (i : Instr) => if lineEnds rest then some [i] else none
    if word = "CLR".toList then plain .clr
    else if word = "CNT".toList then oneOperand (readSym arg) .cnt
    else if word = "BLD".toList then plain .bld
    else if word = "GEN".toList then plain .gen
    else if word = "EBEG".toList then plain .ebeg
    else if word = "ENC".toList then oneOperand (readSym arg) .enc
    else if word = "DBEG".toList then plain .dbeg
    else if word = "DEC".toList then oneOperand (readBit arg) .dec
    else if word = "DEND".toList then plain .dend
    else if word = "RDR".toList then oneOperand (readReg arg) .rdr
    else if word = "RDF".toList then oneOperand (readSym arg) .rdf
    else if word = "RDC".toList then oneOperand (readSym arg) .rdc
    else if word = "RDN".toList then oneOperand (readIdx arg) .rdn
    else if word = "LST".toList then plain .lst
    else if word = "CNTS".toList then (readBytes arg).map expandCnts
    else if word = "ENCS".toList then (readBytes arg).map expandEncs
    else if word = "DECS".toList then (readDigitText arg).map expandDecs
    else none

end Sys2Proof.Machine
end

