-- ==== Sys2Proof/Tests/Slice0.lean ====
section
/-! SUPPORT. Tests on small states, with results from the spec's own examples and vectors (spec/95_test_vectors.md), and
for every statement that has hypotheses a witness that meets them. -/

namespace Sys2Proof.Tests

open Sys2Proof.Machine

/-! ### States -/

/-- `CNTS "aabbbcc"` counted: vector V1 of spec/95_test_vectors.md. -/
def counted : State :=
  { State.reset with total := 7, nsym := 3, freq := [(0x61, 2), (0x62, 3), (0x63, 2)] }

/-- V1 after BLD. -/
def built : State :=
  { counted with
    phase := .built, root := 257, nint := 2, dcur := 257
    node := [(0x61, leafNode 0x61 2), (0x62, leafNode 0x62 3), (0x63, leafNode 0x63 2),
      (256, internalNode 0x61 0x63 4), (257, internalNode 0x62 256 7)] }

/-- V1 after GEN. -/
def coded : State :=
  { built with phase := .coded, code := [(0x61, ⟨true, 2, 1⟩), (0x62, ⟨true, 1, 0⟩), (0x63, ⟨true, 2, 3⟩)] }

/-- `"aaaa"` counted: vector V2. -/
def onceCounted : State := { State.reset with total := 4, nsym := 1, freq := [(0x61, 4)] }

/-- V2 after BLD. -/
def onceBuilt : State :=
  { onceCounted with
    phase := .built, single := true, root := 256, nint := 1, dcur := 256
    node := [(0x61, leafNode 0x61 4), (256, internalNode 0x61 511 4)] }

/-- V2 after GEN. -/
def onceCoded : State := { onceBuilt with phase := .coded, code := [(0x61, ⟨true, 1, 0⟩)] }

/-- The empty input after BLD: vector V3. -/
def noneBuilt : State := { State.reset with phase := .built, empty := true }

/-- V3 after GEN. -/
def noneCoded : State := { noneBuilt with phase := .coded }

/-- Every byte value counted once: vector V13. -/
def allCounted : State :=
  { State.reset with total := 256, nsym := 256, freq := (List.range 256).map (fun k => (k, 1)) }

/-- The last count that fits is still to come: vector FC7. -/
def nearlyFull : State := { State.reset with total := 0xFFFFFFFE, nsym := 1, freq := [(0x61, 0xFFFFFFFE)] }

/-- No count fits any more: vector FC6. -/
def full : State := { State.reset with total := 0xFFFFFFFF, nsym := 1, freq := [(0x61, 0xFFFFFFFF)] }

/-- V1 after `DEC 1`: vector DE2. -/
def midWalk : State := { built with dcur := 256, dpos := 1 }

/-- V1 after `DECS "10"` and DEND: vector DE5. -/
def finished : State := { built with ddone := true, dpos := 2, dout := [0x61], ports := [.dec 0x61] }

/-- V1 after ENC of a byte without a code: vector EN5. -/
def missing : State :=
  { coded with
    epos := 1, eout := [true, false], ports := [.enc true, .enc false]
    err := .missingCode, errSym := 0x7A, errPos := 1, errCmd := 0x607A }

/-! ### Their invariants -/

theorem counted_freq : FreqInv counted := ⟨by decide +kernel, by decide +kernel⟩

/-- A valid entry is a listed one. -/
theorem listed (nodes : List (Nat × Node)) (j : Nat) (h : (Table.read Node.zero nodes j).valid = true) :
    (j, Table.read Node.zero nodes j) ∈ nodes := by
  rcases Table.read_mem_or Node.zero nodes j with h' | h'
  · exact h'
  · rw [h'] at h; cases h

theorem listed_built {j : Nat} (h : (built.nodeAt j).valid = true) :
    j = 0x61 ∨ j = 0x62 ∨ j = 0x63 ∨ j = 256 ∨ j = 257 := by
  have := listed _ _ h
  simp only [built, List.mem_cons, Prod.mk.injEq, List.not_mem_nil, or_false] at this
  omega

theorem internal_built {j : Nat} (h : isInternal built.node j) : j = 256 ∨ j = 257 := by
  rcases listed_built h.1 with rfl | rfl | rfl | rfl | rfl
  · exact absurd h.2 (by decide)
  · exact absurd h.2 (by decide)
  · exact absurd h.2 (by decide)
  · exact .inl rfl
  · exact .inr rfl

theorem child_built {p j : Nat} (h : isChild built.node p j) :
    (p = 256 ∧ (j = 0x61 ∨ j = 0x63)) ∨ (p = 257 ∧ (j = 0x62 ∨ j = 256)) := by
  obtain ⟨hi, hc⟩ := h
  rcases internal_built hi with rfl | rfl
  · rcases hc with hc | hc
    · exact .inl ⟨rfl, .inl (hc.symm.trans (by decide))⟩
    · exact .inl ⟨rfl, .inr (hc.symm.trans (by decide))⟩
  · rcases hc with hc | hc
    · exact .inr ⟨rfl, .inl (hc.symm.trans (by decide))⟩
    · exact .inr ⟨rfl, .inr (hc.symm.trans (by decide))⟩

theorem freq_counted {k : Nat} (h : counted.freqAt k ≠ 0) : k = 0x61 ∨ k = 0x62 ∨ k = 0x63 := by
  rcases Table.read_mem_or 0#32 counted.freq k with h' | h'
  · simp only [counted, List.mem_cons, Prod.mk.injEq, List.not_mem_nil, or_false] at h'
    omega
  · exact absurd h' h

theorem built_tree : TreeInv built where
  noSymbol h := absurd h (by decide)
  oneSymbol k h := absurd (congrArg List.length h) (show ¬ (symbols counted.freq).length = 1 by decide +kernel)
  manySymbols _ := by
    refine ⟨by decide, by decide, rfl, rfl, fun j => ⟨fun h => ?_, fun h => ?_⟩, fun j h1 h2 => ?_⟩
    · rcases listed_built h with rfl | rfl | rfl | rfl | rfl <;> decide
    · rcases h with h | h
      · rcases freq_counted h.2 with rfl | rfl | rfl <;> decide
      · have h2 : j ≤ 257 := h.2
        obtain rfl | rfl : j = 256 ∨ j = 257 := by omega
        · decide
        · decide
    · have h2 : j ≤ 257 := h2
      obtain rfl | rfl : j = 256 ∨ j = 257 := by omega
      · decide
      · decide
  leaf k _ h := by
    rcases freq_counted h with rfl | rfl | rfl <;> decide
  internal j h1 h2 := by
    obtain rfl | rfl : j = 256 ∨ j = 257 := by have := listed_built h2; omega
    · decide
    · decide
  invalid j h := by
    rcases Table.read_mem_or Node.zero built.node j with h' | h'
    · simp only [built, List.mem_cons, Prod.mk.injEq, List.not_mem_nil, or_false] at h'
      rcases h' with ⟨rfl, _⟩ | ⟨rfl, _⟩ | ⟨rfl, _⟩ | ⟨rfl, _⟩ | ⟨rfl, _⟩ <;> exact absurd h (by decide)
    · exact h'
  oneParent j h1 h2 := by
    rcases listed_built h1 with rfl | rfl | rfl | rfl | rfl
    · exact ⟨256, ⟨by unfold isInternal; decide, by decide⟩, fun p hp => by have := child_built hp; omega⟩
    · exact ⟨257, ⟨by unfold isInternal; decide, by decide⟩, fun p hp => by have := child_built hp; omega⟩
    · exact ⟨256, ⟨by unfold isInternal; decide, by decide⟩, fun p hp => by have := child_built hp; omega⟩
    · exact ⟨257, ⟨by unfold isInternal; decide, by decide⟩, fun p hp => by have := child_built hp; omega⟩
    · exact absurd rfl h2
  rootNoChild _ p hp := by
    have := child_built hp
    have : built.root.toNat = 257 := by decide
    omega
  rootWeight _ := by decide

theorem built_inv : Inv built where
  tables := by decide +kernel
  freq := ⟨counted_freq.1, counted_freq.2⟩
  noError _ := ⟨rfl, rfl, rfl⟩
  fresh h := by cases h
  tree _ := built_tree
  noCodes _ := rfl
  codes h := by cases h
  cursor _ := .inl rfl
  done h := by cases h

theorem code_coded {k : Nat} (h : (coded.codeAt k).valid = true) : k = 0x61 ∨ k = 0x62 ∨ k = 0x63 := by
  rcases Table.read_mem_or Code.zero coded.code k with h' | h'
  · simp only [coded, List.mem_cons, Prod.mk.injEq, List.not_mem_nil, or_false] at h'
    omega
  · rw [show coded.codeAt k = Code.zero from h'] at h; cases h

theorem code_zero (k : Nat) (h : k ≠ 0x61 ∧ k ≠ 0x62 ∧ k ≠ 0x63) : coded.codeAt k = Code.zero := by
  rcases Table.read_mem_or Code.zero coded.code k with h' | h'
  · simp only [coded, List.mem_cons, Prod.mk.injEq, List.not_mem_nil, or_false] at h'
    omega
  · exact h'

theorem coded_codes : CodeInv coded where
  valid_iff k := by
    constructor
    · intro h; rcases code_coded h with rfl | rfl | rfl <;> decide
    · intro h; rcases freq_counted h.2 with rfl | rfl | rfl <;> decide
  path k h := by rcases code_coded h with rfl | rfl | rfl <;> decide
  length k h := by rcases code_coded h with rfl | rfl | rfl <;> decide
  unused k i h := by
    by_cases hk : k = 0x61 ∨ k = 0x62 ∨ k = 0x63
    · by_cases hi : i < 256
      · rcases hk with rfl | rfl | rfl <;> revert h <;> revert i <;> decide +kernel
      · exact BitVec.getLsbD_of_ge _ _ (by omega)
    · rw [code_zero k (by omega)]; simp [Code.zero]
  invalid k h := by
    by_cases hk : k = 0x61 ∨ k = 0x62 ∨ k = 0x63
    · rcases hk with rfl | rfl | rfl <;> exact absurd h (by decide)
    · exact code_zero k (by omega)

theorem coded_inv : Inv coded where
  tables := by decide +kernel
  freq := ⟨counted_freq.1, counted_freq.2⟩
  noError _ := ⟨rfl, rfl, rfl⟩
  fresh h := by cases h
  tree _ := ⟨built_tree.1, built_tree.2, built_tree.3, built_tree.4, built_tree.5, built_tree.6, built_tree.7,
    built_tree.8, built_tree.9⟩
  noCodes h := absurd rfl h
  codes _ := coded_codes
  cursor _ := .inl rfl
  done h := by cases h

theorem once_freq : FreqInv onceCounted := ⟨by decide +kernel, by decide +kernel⟩

theorem listed_once {j : Nat} (h : (onceBuilt.nodeAt j).valid = true) : j = 0x61 ∨ j = 256 := by
  have := listed _ _ h
  simp only [onceBuilt, List.mem_cons, Prod.mk.injEq, List.not_mem_nil, or_false] at this
  omega

theorem child_once {p j : Nat} (h : isChild onceBuilt.node p j) : p = 256 ∧ (j = 0x61 ∨ j = 511) := by
  obtain ⟨hi, hc⟩ := h
  rcases listed_once hi.1 with rfl | rfl
  · exact absurd hi.2 (by decide)
  · rcases hc with hc | hc
    · exact ⟨rfl, .inl (hc.symm.trans (by decide))⟩
    · exact ⟨rfl, .inr (hc.symm.trans (by decide))⟩

theorem freq_once {k : Nat} (h : onceCounted.freqAt k ≠ 0) : k = 0x61 := by
  rcases Table.read_mem_or 0#32 onceCounted.freq k with h' | h'
  · simp only [onceCounted, List.mem_cons, Prod.mk.injEq, List.not_mem_nil, or_false] at h'
    omega
  · exact absurd h' h

theorem once_symbols : symbols onceCounted.freq = [0x61] := by decide +kernel

theorem once_tree : TreeInv onceBuilt where
  noSymbol h := absurd h (by decide)
  oneSymbol k h := by
    obtain rfl : 0x61 = k := (List.cons.inj (once_symbols.symm.trans h)).1
    refine ⟨rfl, rfl, rfl, rfl, by decide, fun j => ⟨listed_once, fun h => ?_⟩⟩
    rcases h with rfl | rfl <;> decide
  manySymbols h := absurd h (by decide)
  leaf k _ h := by obtain rfl := freq_once h; decide
  internal j h1 h2 := by
    obtain rfl : j = 256 := by have := listed_once h2; omega
    decide
  invalid j h := by
    rcases Table.read_mem_or Node.zero onceBuilt.node j with h' | h'
    · simp only [onceBuilt, List.mem_cons, Prod.mk.injEq, List.not_mem_nil, or_false] at h'
      rcases h' with ⟨rfl, _⟩ | ⟨rfl, _⟩ <;> exact absurd h (by decide)
    · exact h'
  oneParent j h1 h2 := by
    rcases listed_once h1 with rfl | rfl
    · exact ⟨256, ⟨by unfold isInternal; decide, by decide⟩, fun p hp => (child_once hp).1⟩
    · exact absurd rfl h2
  rootNoChild _ p hp := by
    have := (child_once hp).2
    have : onceBuilt.root.toNat = 256 := by decide
    omega
  rootWeight _ := by decide

theorem code_once (k : Nat) (h : k ≠ 0x61) : onceCoded.codeAt k = Code.zero := by
  rcases Table.read_mem_or Code.zero onceCoded.code k with h' | h'
  · simp only [onceCoded, List.mem_cons, Prod.mk.injEq, List.not_mem_nil, or_false] at h'
    omega
  · exact h'

theorem valid_once {k : Nat} (h : (onceCoded.codeAt k).valid = true) : k = 0x61 := by
  by_contra hk
  rw [code_once k hk] at h
  cases h

theorem once_codes : CodeInv onceCoded where
  valid_iff k := by
    constructor
    · intro h; obtain rfl := valid_once h; decide
    · intro h; obtain rfl := freq_once h.2; decide
  path k h := by obtain rfl := valid_once h; decide
  length k h := by obtain rfl := valid_once h; decide
  unused k i h := by
    by_cases hk : k = 0x61
    · subst hk; exact BitVec.getLsbD_zero
    · rw [code_once k hk]; exact BitVec.getLsbD_zero
  invalid k h := by
    by_cases hk : k = 0x61
    · subst hk; exact absurd h (by decide)
    · exact code_once k hk

theorem once_inv : Inv onceCoded where
  tables := by decide +kernel
  freq := ⟨once_freq.1, once_freq.2⟩
  noError _ := ⟨rfl, rfl, rfl⟩
  fresh h := by cases h
  tree _ := ⟨once_tree.1, once_tree.2, once_tree.3, once_tree.4, once_tree.5, once_tree.6, once_tree.7,
    once_tree.8, once_tree.9⟩
  noCodes h := absurd rfl h
  codes _ := once_codes
  cursor _ := .inl rfl
  done h := by cases h

theorem none_freq : FreqInv State.reset := ⟨by decide +kernel, by decide +kernel⟩

theorem none_inv : Inv noneCoded where
  tables := by decide
  freq := ⟨none_freq.1, none_freq.2⟩
  noError _ := ⟨rfl, rfl, rfl⟩
  fresh h := by cases h
  tree _ :=
    { noSymbol := fun _ => ⟨rfl, rfl, rfl, rfl, fun _ => rfl⟩
      oneSymbol := fun k h => absurd (congrArg List.length h)
        (show ¬ (symbols State.reset.freq).length = 1 by decide +kernel)
      manySymbols := fun h => absurd h (by decide)
      leaf := fun k _ h => absurd rfl h
      internal := fun j _ h => absurd h (by simp [State.nodeAt, noneCoded, noneBuilt, State.reset, Node.zero])
      invalid := fun _ _ => rfl
      oneParent := fun j h => absurd h (by simp [State.nodeAt, noneCoded, noneBuilt, State.reset, Node.zero])
      rootNoChild := fun h => absurd rfl h
      rootWeight := fun h => absurd rfl h }
  noCodes h := absurd rfl h
  codes _ :=
    { valid_iff := fun k => ⟨fun h => (Bool.false_ne_true h).elim, fun h => absurd rfl h.2⟩
      path := fun k h => by cases h
      length := fun k h => by cases h
      unused := fun k i _ => BitVec.getLsbD_zero
      invalid := fun _ _ => rfl }
  cursor _ := .inl rfl
  done h := by cases h

theorem all_freq : FreqInv allCounted := ⟨by decide +kernel, by decide +kernel⟩

theorem nearly_freq : FreqInv nearlyFull := ⟨by decide +kernel, by decide +kernel⟩

/-! ### Well-formedness: the one check refuses an ill-formed term -/

theorem test_wellFormed_register : Instr.wellFormed (.rdr 11) = true ∧ Instr.wellFormed (.rdr 12) = false := by decide

/-! ### Decoding: words written out from spec/30_encoding.md R67, one for each command (95_test_vectors.md 2.1) -/

theorem test_decode_clr : decode 0x1000 = .ok .clr := by decide
theorem test_decode_cnt : decode 0x2061 = .ok (.cnt 0x61) := by decide
theorem test_decode_bld : decode 0x3000 = .ok .bld := by decide
theorem test_decode_gen : decode 0x4000 = .ok .gen := by decide
theorem test_decode_ebeg : decode 0x5000 = .ok .ebeg := by decide
theorem test_decode_enc : decode 0x6063 = .ok (.enc 0x63) := by decide
theorem test_decode_dbeg : decode 0x7000 = .ok .dbeg := by decide
theorem test_decode_dec : decode 0x8001 = .ok (.dec true) := by decide
theorem test_decode_dend : decode 0x9000 = .ok .dend := by decide
theorem test_decode_rdr : decode 0xA00B = .ok (.rdr 11) := by decide
theorem test_decode_rdf : decode 0xB07A = .ok (.rdf 0x7A) := by decide
theorem test_decode_rdc : decode 0xC061 = .ok (.rdc 0x61) := by decide
theorem test_decode_rdn : decode 0xD1FF = .ok (.rdn 511) := by decide
theorem test_decode_lst : decode 0xE000 = .ok .lst := by decide

theorem test_decode_reserved : decode 0x0ABC = .error .reservedOpcode ∧ decode 0xF000 = .error .reservedOpcode := by
  decide
theorem test_decode_mustBeZero :
    ([0x1001, 0x4800, 0x7FFF, 0x9001, 0xE100, 0x2161, 0x6100, 0xB800, 0xC100, 0x8002, 0x8800, 0xA010, 0xD200].map
      decode) = List.replicate 13 (.error .mustBeZero) := by decide
theorem test_decode_reservedRegister :
    decode 0xA00C = .error .reservedRegister ∧ decode 0xA00F = .error .reservedRegister := by decide

theorem test_tableWord : decodeTableWord 16 0xD101 = some (.rdn 257) ∧ decodeTableWord 16 0xA00C = none := by decide

/-! ### The assembler: the examples of R71, a comment, and R72 -/

theorem test_assemble_symbol : assembleLine "CNT 'a' ; count it".toList = some [.cnt 0x61] := by decide
theorem test_assemble_register : assembleLine "RDR ROOT".toList = some [.rdr 7] := by decide
theorem test_assemble_index : assembleLine "RDN 257".toList = some [.rdn 257] := by decide
theorem test_assemble_text : assembleLine "DECS \"10\"".toList = some [.dec true, .dec false] := by decide
/-- The first two are the model's choice (log entry 18). -/
theorem test_assemble_noOperand :
    assembleLine "CNTS".toList = none ∧ assembleLine "CNTS ; c".toList = none ∧
      assembleLine "CNTS \"\" ; c".toList = some [] := by decide
theorem test_assemble_bytes : assembleLine "CNTS 00 FF".toList = some [.cnt 0x00, .cnt 0xFF] := by decide

/-! ### Comparing outcomes -/

/-- The outcome is the next state `t`. -/
def answers (r : Result) (t : State) : Bool :=
  match r with
  | .next u => decide (u = t)
  | .fault _ => false
  | .refused _ => false

theorem eq_of_answers {r : Result} {t : State} (h : answers r t = true) : r = .next t := by
  cases r with
  | next u => exact congrArg _ (of_decide_eq_true h)
  | fault _ => cases h
  | refused _ => cases h

/-! ### One step of each command (95_test_vectors.md Part 2) -/

theorem test_clr : exec .clr missing = .next { State.reset with ports := [.enc true, .enc false] } :=
  eq_of_answers (by decide)
theorem test_cnt : exec (.cnt 0x61) nearlyFull =
    .next { nearlyFull with total := 0xFFFFFFFF, freq := [(0x61, 0xFFFFFFFF)] } :=
  eq_of_answers (by decide)
theorem test_cnt_overflow : exec (.cnt 0x62) full =
    .next { full with err := .overflow, errCmd := 0x2062 } :=
  eq_of_answers (by decide)
theorem test_bld : exec .bld counted = .next built :=
  eq_of_answers (by decide +kernel)
theorem test_bld_oneSymbol : exec .bld onceCounted = .next onceBuilt :=
  eq_of_answers (by decide +kernel)
theorem test_gen : exec .gen built = .next coded :=
  eq_of_answers (by decide +kernel)
theorem test_gen_twice : exec .gen noneCoded =
    .next { noneCoded with err := .sequence, errCmd := 0x4000 } :=
  eq_of_answers (by decide)
theorem test_ebeg : exec .ebeg { coded with epos := 2, eout := [true, false, true, false] } = .next coded :=
  eq_of_answers (by decide)
theorem test_enc : exec (.enc 0x61) coded =
    .next { coded with epos := 1, eout := [true, false], ports := [.enc true, .enc false] } :=
  eq_of_answers (by decide)
theorem test_enc_missing : exec (.enc 0x7A)
    { coded with epos := 1, eout := [true, false], ports := [.enc true, .enc false] } = .next missing :=
  eq_of_answers (by decide)
theorem test_dbeg : exec .dbeg { midWalk with dpos := 3, dout := [0x61] } = .next built :=
  eq_of_answers (by decide)
theorem test_dec_internal : exec (.dec true) built = .next midWalk :=
  eq_of_answers (by decide)
theorem test_dec_leaf : exec (.dec false) midWalk =
    .next { built with dpos := 2, dout := [0x61], ports := [.dec 0x61] } :=
  eq_of_answers (by decide)
theorem test_dend : exec .dend { finished with ddone := false } = .next finished :=
  eq_of_answers (by decide)
theorem test_dend_malformed : exec .dend midWalk =
    .next { midWalk with err := .malformed, errPos := 1, errCmd := 0x9000 } :=
  eq_of_answers (by decide)
theorem test_rdr_status : exec (.rdr 0) { onceCoded with ddone := true } =
    .next ({ onceCoded with ddone := true }.emitRsp 0x1A) :=
  eq_of_answers (by decide +kernel)
theorem test_rdr_faulted : exec (.rdr 4) missing = .next (missing.emitRsp 0x607A) :=
  eq_of_answers (by decide +kernel)
theorem test_rdf : exec (.rdf 0x62) counted = .next (counted.emitRsp 3) :=
  eq_of_answers (by decide +kernel)
theorem test_rdf_absent : exec (.rdf 0x7A) counted = .next (counted.emitRsp 0) :=
  eq_of_answers (by decide +kernel)
theorem test_rdc : exec (.rdc 0x61) coded = .next (coded.emitRsp 0x10005) :=
  eq_of_answers (by decide +kernel)
theorem test_rdc_beforeGen : exec (.rdc 0x61) built = .next (built.emitRsp 0) :=
  eq_of_answers (by decide +kernel)
theorem test_rdn_internal : exec (.rdn 257) built = .next (built.emitRsp 0x708018801) :=
  eq_of_answers (by decide +kernel)
theorem test_rdn_leaf : exec (.rdn 0x61) built = .next (built.emitRsp 0x20FFFFD87) :=
  eq_of_answers (by decide +kernel)
theorem test_lst : exec .lst { coded with lout := [⟨0x61, 2, 1⟩] } = .next ({ coded with lout := [] }.emitLsts
    [⟨0x61, 2, 1⟩, ⟨0x62, 1, 0⟩, ⟨0x63, 2, 3⟩]) :=
  eq_of_answers (by decide +kernel)
theorem test_lst_word : (ListRecord.mk 0x63 2 3).word = 0x60263 := by decide +kernel

theorem test_step_illegal : step (State.reset.withFetchWord 16 0xFFFF) =
    .next { State.reset with err := .illegal, errCmd := 0xFFFF } :=
  eq_of_answers (by decide)
theorem test_step_illegalFirst : step (noneBuilt.withFetchWord 16 0x2161) =
    .next { noneBuilt with err := .illegal, errCmd := 0x2161 } :=
  eq_of_answers (by decide)
theorem test_step_refused : step (missing.withFetchWord 16 0x6061) = .next missing :=
  eq_of_answers (by decide)
theorem test_step_rst : step { missing with input := [.rst] } =
    .next { State.reset with ports := [.enc true, .enc false] } :=
  eq_of_answers (by decide)

/-! ### Witnesses: for every statement that has hypotheses, values that meet them -/

theorem test_witness_DecodeOfEncodeIsTheCommand :
    Instr.wellFormed (.rdr 11) = true ∧ Instr.wellFormed (.rdn 511) = true := by decide

theorem test_witness_EncodeOfDecodeIsTheWord : decode 0xA00B = .ok (.rdr 11) := by decide

theorem test_witness_OpcodeMapDecidesTheCommand :
    decode 0xA00B = .ok (.rdr 11) ∧ opcodeRow (.rdr 0) ∈ opcodeTable ∧ (opcodeRow (.rdr 0)).admits 0xA00B = true := by
  decide

theorem test_witness_IllegalWordsAreExactlyThese :
    (IllegalEncoding 0x0000 ∧ IllegalEncoding 0x0FFF ∧ IllegalEncoding 0xF000 ∧ IllegalEncoding 0xFFFF) ∧
    (IllegalEncoding 0x1001 ∧ IllegalEncoding 0x2100 ∧ IllegalEncoding 0x8002 ∧ IllegalEncoding 0xA00C ∧
      IllegalEncoding 0xA010 ∧ IllegalEncoding 0xD200) ∧
    (¬ IllegalEncoding 0x1000 ∧ ¬ IllegalEncoding 0x20FF ∧ ¬ IllegalEncoding 0x8001 ∧ ¬ IllegalEncoding 0xA00B ∧
      ¬ IllegalEncoding 0xD1FF) ∧
    State.reset.err = .none ∧ missing.err ≠ .none := by
  refine ⟨⟨?_, ?_, ?_, ?_⟩, ⟨?_, ?_, ?_, ?_, ?_, ?_⟩, ⟨?_, ?_, ?_, ?_, ?_⟩, rfl, by decide⟩ <;>
    (unfold IllegalEncoding; dsimp only; decide)

theorem test_witness_StepRunsTheDecodedCommand :
    (State.reset.present 0x1000).input = .cmd 0x1000 :: [] ∧ decode 0x1000 = .ok .clr ∧
    (State.reset.present 0).input = .cmd 0 :: [] ∧ decode 0 = .error .reservedOpcode := by decide

theorem test_witness_StepOnResetAndOnNothing :
    { missing with input := [.rst] }.input = .rst :: [] ∧ State.reset.input = [] := by decide

theorem test_witness_ResetValueOfEveryState : exec .clr missing = .next missing.clear := rfl

theorem test_witness_FaultedBlockRefuses :
    missing.err ≠ .none ∧ (∀ i, decode 0x6061 = .ok i → runsWhileFaulted i = false) ∧
    ∀ i, decode 0xA00C = .ok i → runsWhileFaulted i = false := by
  refine ⟨by decide, fun i h => ?_, fun i h => ?_⟩
  · obtain rfl : .enc 0x61 = i := Except.ok.inj ((show decode 0x6061 = .ok (.enc 0x61) by decide).symm.trans h)
    rfl
  · rw [show decode 0xA00C = .error .reservedRegister by decide] at h
    cases h

theorem test_witness_OutOfSequenceCommandsOnlyLatch :
    built.err = .none ∧ built.phase ≠ .count ∧ built.phase ≠ .coded ∧
    State.reset.err = .none ∧ State.reset.phase ≠ .built ∧ State.reset.phase = .count ∧
    finished.err = .none ∧ finished.ddone = true := by decide

theorem test_witness_PhaseChangesOnlyByThese :
    exec .clr built = .next built.clear ∧ exec .bld counted = .next built ∧ exec .gen built = .next coded :=
  ⟨rfl, test_bld, test_gen⟩

theorem test_witness_ErrorLatchChangesNothingElse :
    ∃ t, exec (.cnt 0x62) built = .next t ∧ built.err = .none ∧ t.err ≠ .none :=
  ⟨_, rfl, rfl, by decide⟩

theorem test_witness_ErrorCausesAndContext :
    (∃ t, exec (.rdr 12) State.reset = .next t ∧ State.reset.err = .none ∧ t.err = .illegal) ∧
    (∃ t, exec .bld built = .next t ∧ built.err = .none ∧ t.err = .sequence) ∧
    (∃ t, exec (.cnt 0x62) full = .next t ∧ full.err = .none ∧ t.err = .overflow) ∧
    (∃ t, exec (.enc 0x7A) coded = .next t ∧ coded.err = .none ∧ t.err = .missingCode) ∧
    (∃ t, exec (.dec true) onceBuilt = .next t ∧ onceBuilt.err = .none ∧ t.err = .malformed) ∧
    ∃ t, exec .dend midWalk = .next t ∧ midWalk.err = .none ∧ t.err = .malformed :=
  ⟨⟨_, rfl, rfl, rfl⟩, ⟨_, rfl, rfl, rfl⟩, ⟨_, rfl, rfl, rfl⟩, ⟨_, rfl, rfl, rfl⟩, ⟨_, rfl, rfl, rfl⟩, ⟨_, rfl, rfl, rfl⟩⟩

theorem test_witness_FirstErrorStaysUntilClr : ∃ t, exec (.rdr 1) missing = .next t ∧ missing.err ≠ .none :=
  ⟨_, rfl, by decide⟩

theorem test_witness_CntCountsOneByte :
    (built.err = .none ∧ built.phase ≠ .count) ∧
    (full.err = .none ∧ full.phase = .count ∧ full.total = 4294967295) ∧
    (nearlyFull.err = .none ∧ nearlyFull.phase = .count ∧ nearlyFull.total ≠ 4294967295) := by decide

theorem test_witness_CountsNeverWrap :
    FreqInv nearlyFull ∧ nearlyFull.err = .none ∧ nearlyFull.phase = .count ∧ nearlyFull.total.toNat < 2 ^ 32 - 1 :=
  ⟨nearly_freq, rfl, rfl, by decide⟩

theorem test_witness_CountPassCountsTheBytes :
    ([0x61, 0x62, 0x61] : List Sym).length ≤ 2 ^ 32 - 1 ∧
    ([0x61, 0x61, 0x62] : List Sym).Perm [0x61, 0x62, 0x61] := by decide

theorem test_witness_EveryStepKeepsTheFrequencyInvariant :
    FreqInv (nearlyFull.present 0x2061) ∧ ∃ t, step (nearlyFull.present 0x2061) = .next t :=
  ⟨⟨nearly_freq.1, nearly_freq.2⟩, _, rfl⟩

theorem test_witness_BldBuildsTheTreeAndStartsTheDecoder :
    (built.err = .none ∧ built.phase ≠ .count) ∧
    (State.reset.err = .none ∧ State.reset.phase = .count ∧ FreqInv State.reset ∧ State.reset.nsym = 0) ∧
    (onceCounted.err = .none ∧ onceCounted.phase = .count ∧ FreqInv onceCounted ∧ onceCounted.nsym = 1) ∧
    (counted.err = .none ∧ counted.phase = .count ∧ FreqInv counted ∧ 2 ≤ counted.nsym.toNat) ∧
    (allCounted.err = .none ∧ allCounted.phase = .count ∧ FreqInv allCounted ∧ allCounted.nsym.toNat = 256) :=
  ⟨by decide, ⟨rfl, rfl, none_freq, rfl⟩, ⟨rfl, rfl, once_freq, rfl⟩, ⟨rfl, rfl, counted_freq, by decide⟩,
    rfl, rfl, all_freq, rfl⟩

theorem test_witness_BldMakesALeafForEverySymbol :
    counted.err = .none ∧ counted.phase = .count ∧ exec .bld counted = .next built ∧ counted.freqAt 0x61 ≠ 0 ∧
    counted.freqAt 255 = 0 := ⟨rfl, rfl, test_bld, by decide, rfl⟩

theorem test_witness_BldHandlesDegenerateAlphabets :
    (State.reset.err = .none ∧ State.reset.phase = .count ∧ FreqInv State.reset ∧ State.reset.nsym = 0) ∧
    (onceCounted.err = .none ∧ onceCounted.phase = .count ∧ FreqInv onceCounted ∧ onceCounted.freqAt 0x61 ≠ 0 ∧
      onceCounted.nsym = 1) :=
  ⟨⟨rfl, rfl, none_freq, rfl⟩, rfl, rfl, once_freq, by decide, rfl⟩

theorem test_witness_BldMergesTheTwoLightestNodes :
    FreqInv counted ∧ counted.err = .none ∧ counted.phase = .count ∧ 2 ≤ counted.nsym.toNat ∧
    exec .bld counted = .next built ∧ 256 ≤ 254 + counted.nsym.toNat :=
  ⟨counted_freq, rfl, rfl, by decide, test_bld, by decide⟩

theorem pass_counted : execAll [.bld, .gen] counted = .next coded := by
  simp only [execAll, test_bld, test_gen]

theorem test_witness_TreeDependsOnlyOnFrequencies :
    ∃ t t', FreqInv counted ∧ FreqInv { counted with rsp := some 7 } ∧
      (∀ k, k < 256 → counted.freqAt k = { counted with rsp := some 7 }.freqAt k) ∧
      counted.err = .none ∧ counted.phase = .count ∧
      execAll (.bld :: .gen :: [0x62].map .enc) counted = .next t ∧
      execAll (.bld :: .gen :: [0x62].map .enc) { counted with rsp := some 7 } = .next t' :=
  ⟨{ coded with epos := 1, eout := [false], ports := [.enc false] },
    { coded with epos := 1, eout := [false], ports := [.enc false], rsp := some 7 },
    counted_freq, ⟨counted_freq.1, counted_freq.2⟩, fun _ _ => rfl, rfl, rfl, eq_of_answers (by decide +kernel),
    eq_of_answers (by decide +kernel)⟩

theorem test_witness_BldEstablishesTheTreeInvariant :
    FreqInv counted ∧ counted.err = .none ∧ counted.phase = .count ∧ counted.empty = false ∧ counted.single = false ∧
    exec .bld counted = .next built := ⟨counted_freq, rfl, rfl, rfl, rfl, test_bld⟩

theorem test_witness_GenGivesEveryLeafItsPath :
    (built.err = .none ∧ built.phase = .built ∧ Inv built ∧ built.freqAt 0x61 ≠ 0 ∧ built.freqAt 255 = 0) ∧
    (State.reset.err = .none ∧ State.reset.phase ≠ .built) :=
  ⟨⟨rfl, rfl, built_inv, by decide, rfl⟩, by decide⟩

theorem test_witness_PackedPathIsLeastSignificantFirst :
    ([] : List Digit).length ≤ 255 ∧ (List.replicate 255 true : List Digit).length ≤ 255 := by
  rw [List.length_replicate]
  decide

theorem test_witness_CodesArePrefixFree :
    Inv coded ∧ coded.phase = .coded ∧ (coded.codeAt 0x61).valid = true ∧ (coded.codeAt 0x63).valid = true ∧
    0x61 ≠ 0x63 := ⟨coded_inv, rfl, rfl, rfl, by decide⟩

theorem test_witness_KraftSumOfTheCode :
    (Inv coded ∧ coded.phase = .coded ∧ 2 ≤ coded.nsym.toNat) ∧
    (Inv onceCoded ∧ onceCoded.phase = .coded ∧ onceCoded.nsym = 1) ∧
    (Inv noneCoded ∧ noneCoded.phase = .coded ∧ noneCoded.nsym = 0) :=
  ⟨⟨coded_inv, rfl, by decide⟩, ⟨once_inv, rfl, rfl⟩, none_inv, rfl, rfl⟩

theorem test_witness_WeightedLengthIsTheInternalWeight :
    Inv coded ∧ coded.phase = .coded ∧ 2 ≤ coded.nsym.toNat := ⟨coded_inv, rfl, by decide⟩

theorem test_witness_CodeHasMinimalWeightedLength :
    FreqInv counted ∧ counted.err = .none ∧ counted.phase = .count ∧ execAll [.bld, .gen] counted = .next coded ∧
    PrefixFreeCode (symbols counted.freq)
      (fun k => if k = 0x61 then [false] else if k = 0x62 then [true, false] else [true, true]) := by
  refine ⟨counted_freq, rfl, rfl, pass_counted, ?_⟩
  rw [show symbols counted.freq = [0x61, 0x62, 0x63] by decide +kernel]
  unfold PrefixFreeCode
  decide

theorem test_witness_LstListsTheCodesInOrder :
    (coded.err = .none ∧ coded.phase = .coded ∧ Inv coded) ∧ built.err = .none ∧ built.phase ≠ .coded :=
  ⟨⟨rfl, rfl, coded_inv⟩, by decide⟩

theorem test_witness_EbegRestartsTheEncodedStream :
    (coded.err = .none ∧ coded.phase = .coded) ∧ built.err = .none ∧ built.phase ≠ .coded := by decide

theorem test_witness_EncEmitsTheCodeOfTheByte :
    (built.err = .none ∧ built.phase ≠ .coded) ∧
    (coded.err = .none ∧ coded.phase = .coded ∧ (coded.codeAt 0x7A).valid = false) ∧
    (coded.codeAt 0x61).valid = true := by decide

theorem test_witness_EncodePassConcatenatesTheCodes :
    coded.err = .none ∧ coded.phase = .coded ∧
    (∀ b ∈ ([0x61, 0x62, 0x63] : List Sym), (coded.codeAt b.toNat).valid = true) ∧
    (coded.codeAt 0x7A).valid = false := by decide

theorem test_witness_OneSymbolInputGetsTheCodeZero : 1 ≤ 1 ∧ 1 ≤ 2 ^ 32 - 1 ∧ 2 ^ 32 - 1 ≤ 2 ^ 32 - 1 := by decide

theorem test_witness_DbegRestartsTheDecoder :
    finished.err = .none ∧ finished.phase ≠ .count ∧ State.reset.err = .none ∧ State.reset.phase = .count := by decide

theorem test_witness_DecConsumesOneBit :
    (State.reset.err = .none ∧ State.reset.phase = .count) ∧ (finished.err = .none ∧ finished.ddone = true) ∧
    (noneBuilt.err = .none ∧ noneBuilt.phase ≠ .count ∧ noneBuilt.ddone = false ∧ noneBuilt.root = 511) ∧
    (onceBuilt.err = .none ∧ onceBuilt.phase ≠ .count ∧ onceBuilt.ddone = false ∧ onceBuilt.root ≠ 511 ∧
      onceBuilt.dcur ≠ 511 ∧ (onceBuilt.nodeAt onceBuilt.dcur.toNat).right = 511) ∧
    (built.err = .none ∧ built.phase ≠ .count ∧ built.ddone = false ∧ built.root ≠ 511 ∧ built.dcur ≠ 511 ∧
      (built.nodeAt built.dcur.toNat).left = 0x62 ∧ (built.nodeAt 0x62).leaf = true ∧
      (built.nodeAt built.dcur.toNat).right = 256 ∧ (built.nodeAt 256).leaf = false) := by decide

theorem test_witness_DendChecksTheLeafBoundary :
    (State.reset.err = .none ∧ State.reset.phase = .count) ∧ (finished.err = .none ∧ finished.ddone = true) ∧
    (built.err = .none ∧ built.phase ≠ .count ∧ built.ddone = false ∧ built.dcur = built.root) ∧
    (midWalk.err = .none ∧ midWalk.phase ≠ .count ∧ midWalk.ddone = false ∧ midWalk.dcur ≠ midWalk.root) := by decide

theorem test_witness_OnlyDecAppendsALeafSymbol :
    (∃ t, exec (.dec false) built = .next t ∧ t.dout = [0x62]) ∧
    ∃ t, exec (.enc 0x61) coded = .next t ∧ ∀ bit, Instr.enc 0x61 ≠ .dec bit :=
  ⟨⟨_, rfl, rfl⟩, _, rfl, by decide⟩

theorem test_witness_ClosedStreamStaysUntilDbegOrClr :
    finished.ddone = true ∧ finished.phase ≠ .count ∧ finished.err = .none ∧
    (∃ t, exec .gen finished = .next t) ∧ (∃ t, exec .dbeg finished = .next t) ∧ (∃ t, exec .clr finished = .next t) ∧
    ∃ t, step { finished with input := [.rst] } = .next t :=
  ⟨rfl, by decide, rfl, ⟨_, rfl⟩, ⟨_, rfl⟩, ⟨_, rfl⟩, _, rfl⟩

theorem test_witness_DecodingRecoversWhatWasEncoded :
    Inv coded ∧ coded.err = .none ∧ coded.phase = .coded ∧
    ∀ b ∈ ([0x61, 0x62, 0x63] : List Sym), (coded.codeAt b.toNat).valid = true :=
  ⟨coded_inv, rfl, rfl, by decide⟩

theorem test_witness_PipelineRoundTrip :
    ([0x61, 0x61, 0x62] : List Sym).length ≤ 2 ^ 32 - 1 ∧
    ∀ b ∈ ([0x62, 0x61, 0x62] : List Sym), b ∈ ([0x61, 0x61, 0x62] : List Sym) := by decide

theorem test_witness_TruncatedStreamIsMalformed :
    Inv coded ∧ coded.err = .none ∧ coded.phase = .coded ∧
    (∀ b ∈ ([0x62] : List Sym), (coded.codeAt b.toNat).valid = true) ∧ (coded.codeAt 0x61).valid = true ∧
    coded.codeOf 0x61 = [true] ++ [false] ∧ ([true] : List Digit) ≠ [] ∧ ([false] : List Digit) ≠ [] :=
  ⟨coded_inv, rfl, rfl, by decide, by decide, by decide, by decide, by decide⟩

theorem test_witness_RdrReadsEveryRegister :
    12 ≤ (12 : BitVec 4).toNat ∧ 12 ≤ (15 : BitVec 4).toNat ∧ State.reset.err = .none ∧ missing.err ≠ .none := by decide

theorem test_witness_RdnReadsANode : (511 : Idx) = 511 ∧ (510 : Idx) ≠ 511 ∧ (0 : Idx) ≠ 511 := by decide

theorem test_witness_ReadBackChangesOnlyTheResponse :
    ∃ t, isReadBack (.rdr 11) = true ∧ Instr.wellFormed (.rdr 11) = true ∧ isReadBack (.rdn 511) = true ∧
      Instr.wellFormed (.rdn 511) = true ∧ exec (.rdn 511) missing = .next t := ⟨_, rfl, rfl, rfl, rfl, rfl⟩

theorem test_witness_TablesChangeOnlyInTheirPhase :
    ∃ t, exec (.dec true) built = .next t ∧ built.phase ≠ .count := ⟨_, rfl, by decide⟩

theorem test_witness_RegistersChangeOnlyByTheirCommands :
    (∃ t, exec (.cnt 0x61) State.reset = .next t ∧ t.total ≠ State.reset.total) ∧
    (∃ t, exec (.enc 0x61) coded = .next t ∧ t.epos ≠ coded.epos) ∧
    (∃ t, exec (.dec true) built = .next t ∧ t.dcur ≠ built.dcur) ∧
    (∃ t, exec .dend built = .next t ∧ t.ddone ≠ built.ddone) ∧
    (∃ t, exec .lst coded = .next t ∧ t.lout ≠ coded.lout) ∧
    ∃ t, exec (.rdr 0) built = .next t ∧ t.rsp ≠ built.rsp :=
  ⟨⟨_, rfl, by decide⟩, ⟨_, rfl, by decide⟩, ⟨_, rfl, by decide⟩, ⟨_, rfl, by decide⟩,
    ⟨_, rfl, by decide +kernel⟩, ⟨_, rfl, by decide⟩⟩

theorem test_witness_OneCommandEmitsOnOneStream : ∃ t, exec (.enc 0x61) coded = .next t := ⟨_, rfl⟩

theorem test_witness_EveryStepKeepsTheTablesCanonical :
    Memory.wf (State.reset.present 0x2061) = true ∧ ∃ t, step (State.reset.present 0x2061) = .next t :=
  ⟨by decide, _, rfl⟩

theorem coded_inv_present (w : Word) : Inv (coded.present w) :=
  ⟨coded_inv.1, ⟨counted_freq.1, counted_freq.2⟩, coded_inv.3, coded_inv.4,
    fun _ => ⟨built_tree.1, built_tree.2, built_tree.3, built_tree.4, built_tree.5, built_tree.6, built_tree.7,
      built_tree.8, built_tree.9⟩,
    coded_inv.6, fun _ => ⟨coded_codes.1, coded_codes.2, coded_codes.3, coded_codes.4, coded_codes.5⟩,
    coded_inv.8, coded_inv.9⟩

theorem test_witness_EveryStepKeepsTheInvariants :
    Inv (coded.present 0x6061) ∧ ∃ t, step (coded.present 0x6061) = .next t := ⟨coded_inv_present _, _, rfl⟩

theorem test_witness_EveryStepIsTaken : Inv (coded.present 0x8001) := coded_inv_present _

/-- A node that is its own child: a state that no run reaches. -/
def looping : State :=
  { State.reset with phase := .built, root := 256, node := [(256, ⟨true, false, 0, 0, 256, 511⟩)] }

theorem test_witness_ModelFaultsOutsideTheInvariants :
    ({ State.reset with nsym := 1 }.err = .none ∧ { State.reset with nsym := 1 }.phase = .count ∧
      { State.reset with nsym := 1 }.nsym.toNat ≠ (symbols { State.reset with nsym := 1 }.freq).length) ∧
    (looping.err = .none ∧ looping.phase = .built ∧ deriveCodes looping = none) ∧
    (looping.phase ≠ .count ∧ looping.ddone = false ∧ looping.root ≠ 511 ∧ looping.dcur = 511) :=
  ⟨⟨rfl, rfl, by decide +kernel⟩, ⟨rfl, rfl, by decide +kernel⟩, by decide⟩

end Sys2Proof.Tests
end

section
/-! The step function, one equation for each thing the host can present (spec/20_memory.md R49), and what taking it
leaves of the invariants. -/

namespace Sys2Proof.Machine

variable {s : State}

/-! ### The cases of a step -/

theorem step_of_idle (h : s.input = []) : step s = .next s := by
  simp [step, State.takeInput, h]

theorem step_of_rst {rest : List HostInput} (h : s.input = .rst :: rest) :
    step s = .next { s with input := rest }.resetPin := by
  simp [step, State.takeInput, h]

theorem step_of_legal {w : Word} {rest : List HostInput} {i : Instr} (h : s.input = .cmd w :: rest)
    (hd : decode w = .ok i) : step s = exec i { s with input := rest } := by
  simp [step, State.takeInput, h, hd]

theorem step_of_illegal {w : Word} {rest : List HostInput} {e : Illegal} (h : s.input = .cmd w :: rest)
    (hd : decode w = .error e) : step s = illegalWord w { s with input := rest } := by
  simp [step, State.takeInput, h, hd]

/-! ### No invariant speaks of what the host presents -/

theorem FreqInv.withInput (h : FreqInv s) (l : List HostInput) : FreqInv { s with input := l } := { h with }

theorem TreeInv.withInput (h : TreeInv s) (l : List HostInput) : TreeInv { s with input := l } := { h with }

theorem CodeInv.withInput (h : CodeInv s) (l : List HostInput) : CodeInv { s with input := l } := { h with }

theorem Inv.withInput (h : Inv s) (l : List HostInput) : Inv { s with input := l } :=
  { h with
    freq := h.freq.withInput l
    tree := fun hp => (h.tree hp).withInput l
    codes := fun hp => (h.codes hp).withInput l }

end Sys2Proof.Machine
end

section
/-! Every command answers a next state where the invariants hold (spec/00_scope.md R5): the three places where the model
can fault are each ruled out by the invariant that its fault names. -/

namespace Sys2Proof.Machine

variable {s : State}

/-! ### The order of checks -/

/-- The gate answers where the command's own rule does; that rule is asked only in a state that admits the command. -/
theorem gate_answers {i : Instr} {run : Result} (h : s.err = .none → legal i s = true → ∃ t, run = .next t) :
    ∃ t, gate i s run = .next t := by
  by_cases he : s.err = .none
  · cases hl : legal i s with
    | false => exact ⟨_, gate_sequence i s run he hl⟩
    | true => rw [gate_ready i s run he hl]; exact h he hl
  · exact ⟨_, gate_refused i s run he⟩

theorem illegalWord_answers (w : Word) (s : State) : ∃ t, illegalWord w s = .next t := by
  unfold illegalWord
  split <;> exact ⟨_, rfl⟩

/-! ### The commands that no fault stops -/

theorem execCnt_answers (sym : Sym) (s : State) : ∃ t, execCnt sym s = .next t :=
  gate_answers fun _ _ => by split <;> exact ⟨_, rfl⟩

theorem execEnc_answers (sym : Sym) (s : State) : ∃ t, execEnc sym s = .next t :=
  gate_answers fun _ _ => by dsimp only; split <;> exact ⟨_, rfl⟩

theorem execDend_answers (s : State) : ∃ t, execDend s = .next t :=
  gate_answers fun _ _ => by split <;> exact ⟨_, rfl⟩

theorem execRdr_answers (reg : BitVec 4) (s : State) : ∃ t, execRdr reg s = .next t := by
  unfold execRdr
  split
  · exact ⟨_, rfl⟩
  · exact illegalWord_answers _ s

theorem execRdn_answers (idx : Idx) (s : State) : ∃ t, execRdn idx s = .next t := by
  unfold execRdn
  split <;> exact ⟨_, rfl⟩

/-! ### BLD: NSYM is the number of symbols (R29) -/

theorem execBld_answers (hf : FreqInv s) : ∃ t, execBld s = .next t :=
  gate_answers fun _ _ => ⟨_, if_pos hf.nsym_eq⟩

/-! ### GEN: the walk of a tree ends (R109) -/

/-- A node index that is not NIL is the index of an entry of NODE. -/
theorem toNat_le_of_ne_nil {i : Idx} (h : i ≠ Config.nil) : i.toNat ≤ 510 := by
  have hnil : i.toNat ≠ 511 := fun hc => h (BitVec.eq_of_toNat_eq hc)
  omega

theorem deriveCodes_isSome (hf : FreqInv s) (ht : TreeInv s) : ∃ codes, deriveCodes s = some codes := by
  refine walk_isSome s.node (fun i _ hv hl => ?_) _ _ _ _ ?_
  · have hchild := treeInv_child hf ht i.toNat ⟨hv, hl⟩
    refine ⟨(hchild true).1, fun b => ?_⟩
    rcases (hchild b).2.2 with ⟨hnil, _, _⟩ | ⟨_, hsmaller⟩
    · exact .inl hnil
    · exact .inr hsmaller
  · rcases treeInv_root hf ht with ⟨hnil, _⟩ | ⟨hroot, ⟨hvalid, _⟩, _⟩
    · exact .inl hnil
    · exact .inr ⟨hvalid, toNat_le_of_ne_nil hroot⟩

theorem execGen_answers (hf : FreqInv s) (ht : s.phase ≠ .count → TreeInv s) : ∃ t, execGen s = .next t :=
  gate_answers fun _ hl => by
    have hp : s.phase = .built := by simpa [legal, phaseAdmits, ddoneAdmits] using hl
    obtain ⟨codes, hcodes⟩ := deriveCodes_isSome hf (ht (by simp [hp]))
    exact ⟨_, by rw [hcodes]⟩

/-! ### DEC: where there is a tree the cursor is on one of its nodes (R32) -/

theorem CursorInv.dcur_ne_nil (hc : CursorInv s) (hf : FreqInv s) (ht : TreeInv s) (hroot : s.root ≠ Config.nil) :
    s.dcur ≠ Config.nil := by
  rcases hc with heq | ⟨_, _, _, hint⟩
  · rwa [heq]
  · intro hnil
    have hle : s.dcur.toNat ≤ 510 := (treeInv_child hf ht _ hint true).2.1
    rw [hnil] at hle
    exact absurd hle (by decide)

theorem execDec_answers (bit : Digit) (hf : FreqInv s) (ht : s.phase ≠ .count → TreeInv s)
    (hc : s.phase ≠ .count → CursorInv s) : ∃ t, execDec bit s = .next t :=
  gate_answers fun _ hl => by
    have hp : s.phase ≠ .count ∧ s.ddone = false := by simpa [legal, phaseAdmits, ddoneAdmits] using hl
    split
    · exact ⟨_, rfl⟩
    · next hroot =>
      have hcur := (hc hp.1).dcur_ne_nil hf (ht hp.1) hroot
      rw [State.nodeOf, if_neg hcur]
      dsimp only
      split <;> exact ⟨_, rfl⟩

/-! ### Every command, and every step -/

theorem exec_answers (i : Instr) (h : Inv s) : ∃ t, exec i s = .next t := by
  cases i with
  | clr => exact ⟨_, rfl⟩
  | cnt sym => exact execCnt_answers sym s
  | bld => exact execBld_answers h.freq
  | gen => exact execGen_answers h.freq h.tree
  | ebeg => exact gate_answers fun _ _ => ⟨_, rfl⟩
  | enc sym => exact execEnc_answers sym s
  | dbeg => exact gate_answers fun _ _ => ⟨_, rfl⟩
  | dec bit => exact execDec_answers bit h.freq h.tree h.cursor
  | dend => exact execDend_answers s
  | rdr reg => exact execRdr_answers reg s
  | rdf sym => exact ⟨_, rfl⟩
  | rdc sym => exact ⟨_, rfl⟩
  | rdn idx => exact execRdn_answers idx s
  | lst => exact gate_answers fun _ _ => ⟨_, rfl⟩

/-- Settles O58, by the cases of what the host presents: a command answers by `exec_answers`, in a state that differs
from `s` only in `input`, which no invariant reads. -/
theorem everyStepIsTaken : Obligations.EveryStepIsTaken := by
  intro s h
  cases hin : s.input with
  | nil => exact ⟨_, step_of_idle hin⟩
  | cons x rest =>
    cases x with
    | rst => exact ⟨_, step_of_rst hin⟩
    | cmd w =>
      cases hd : decode w with
      | ok i => rw [step_of_legal hin hd]; exact exec_answers i (h.withInput rest)
      | error e => rw [step_of_illegal hin hd]; exact illegalWord_answers w _

end Sys2Proof.Machine
end

section
/-! What a command that answers makes of the state, one named case for each way it can answer: the cases of
`exec_cases`, with every raised error in one case and without the conditions on ERR. -/

namespace Sys2Proof.Machine

/-- `Effect i s t`: the command `i` can take the state `s` to `t`. -/
inductive Effect : Instr → State → State → Prop where
  /-- Refused while faulted (R192). -/
  | kept (i : Instr) (s : State) : Effect i s s
  /-- An error raised, whatever its cause (R190). -/
  | raised (i : Instr) (s : State) (e : ErrCode) (sym : Sym) (pos : Pos) (he : e ≠ .none) :
      Effect i s (s.raise e sym pos (encode i))
  /-- CLR (R81). -/
  | cleared (s : State) : Effect .clr s s.clear
  /-- A read-back (R170). -/
  | answered (i : Instr) (s : State) (w : Response) (hi : isReadBack i = true) : Effect i s (s.emitRsp w)
  /-- CNT (R91). -/
  | counted (s : State) (sym : Sym) (hp : s.phase = .count) (hm : s.total ≠ Config.cntMax) :
      Effect (.cnt sym) s (s.countSym sym)
  /-- BLD (R101). -/
  | built (s : State) (hp : s.phase = .count) : Effect .bld s s.buildTree.startDecoder
  /-- GEN (R121). -/
  | coded (s : State) (codes : List (Nat × Code)) (hp : s.phase = .built) (hc : deriveCodes s = some codes) :
      Effect .gen s { s with code := codes, phase := .coded }.startEncoder
  /-- EBEG (R136). -/
  | encoderStarted (s : State) (hp : s.phase = .coded) : Effect .ebeg s s.startEncoder
  /-- ENC of a symbol with a code (R137). -/
  | encoded (s : State) (sym : Sym) (hp : s.phase = .coded) (hv : (s.codeAt sym.toNat).valid = true) :
      Effect (.enc sym) s { s with
        eout := s.eout ++ s.codeOf sym.toNat
        ports := s.ports ++ (s.codeOf sym.toNat).map .enc
        epos := sat64 (s.epos.toNat + 1) }
  /-- DBEG (R151). -/
  | decoderStarted (s : State) (hp : s.phase ≠ .count) : Effect .dbeg s s.startDecoder
  /-- DEC to a leaf (R152). -/
  | emitted (s : State) (bit : Digit) (c : Idx) (hp : s.phase ≠ .count) (hd : s.ddone = false)
      (hr : s.root ≠ Config.nil) (hc : (s.nodeAt s.dcur.toNat).child bit = c) (hn : c ≠ Config.nil)
      (hl : (s.nodeAt c.toNat).leaf = true) :
      Effect (.dec bit) s { s with
        dout := s.dout ++ [(s.nodeAt c.toNat).sym]
        ports := s.ports ++ [.dec (s.nodeAt c.toNat).sym]
        dpos := sat64 (s.dpos.toNat + 1)
        dcur := s.root }
  /-- DEC to a child that is no leaf (R152). -/
  | descended (s : State) (bit : Digit) (c : Idx) (hp : s.phase ≠ .count) (hd : s.ddone = false)
      (hr : s.root ≠ Config.nil) (hc : (s.nodeAt s.dcur.toNat).child bit = c) (hn : c ≠ Config.nil)
      (hl : (s.nodeAt c.toNat).leaf = false) :
      Effect (.dec bit) s { s with dpos := sat64 (s.dpos.toNat + 1), dcur := c }
  /-- DEND at a leaf boundary (R153). -/
  | ended (s : State) (hp : s.phase ≠ .count) (hc : s.dcur = s.root) : Effect .dend s { s with ddone := true }
  /-- LST (R125). -/
  | listed (s : State) (hp : s.phase = .coded) :
      Effect .lst s { s with lout := listing s, ports := s.ports ++ (listing s).map .lst }

variable {i : Instr} {s t : State}

theorem TurnedAway.effect (h : TurnedAway i s t) : Effect i s t := by
  rcases h with ⟨-, rfl⟩ | ⟨-, -, rfl⟩
  · exact .kept i t
  · exact .raised i s _ _ _ nofun

/-- DEC's step of the walk ends at a leaf or goes on below (R152). -/
theorem Effect.walkTo {bit : Digit} {c : Idx} (hp : s.phase ≠ .count) (hd : s.ddone = false)
    (hr : s.root ≠ Config.nil) (hc : (s.nodeAt s.dcur.toNat).child bit = c) (hn : c ≠ Config.nil) :
    Effect (.dec bit) s (s.walkTo c (s.nodeAt c.toNat)) := by
  unfold State.walkTo
  split
  · next hl => exact .emitted s bit c hp hd hr hc hn hl
  · next hl => exact .descended s bit c hp hd hr hc hn (Bool.eq_false_iff.2 hl)

/-- A command that answers has one of these effects. -/
theorem exec_effect (h : exec i s = .next t) : Effect i s t := by
  rcases exec_cases h with h | ⟨rfl, rfl⟩ | ⟨hi, w, rfl⟩ | ⟨-, h⟩
  · exact h.effect
  · exact .cleared s
  · exact .answered i s w hi
  · rcases h with ⟨-, rfl⟩ | ⟨sym, rfl, hp, h⟩ | ⟨rfl, hp, -, rfl⟩ | ⟨rfl, hp, codes, hc, rfl⟩ | ⟨rfl, hp, rfl⟩ |
      ⟨sym, rfl, hp, h⟩ | ⟨rfl, hp, rfl⟩ | ⟨bit, rfl, hp, hd, h⟩ | ⟨rfl, hp, -, h⟩ | ⟨rfl, hp, rfl⟩
    · exact .raised i s _ _ _ nofun
    · rcases h with ⟨-, rfl⟩ | ⟨hm, rfl⟩
      · exact .raised _ s _ _ _ nofun
      · exact .counted s sym hp hm
    · exact .built s hp
    · exact .coded s codes hp hc
    · exact .encoderStarted s hp
    · rcases h with ⟨hv, rfl⟩ | ⟨-, rfl⟩
      · rw [State.emitEncs_eq]
        exact .encoded s sym hp hv
      · exact .raised _ s _ _ _ nofun
    · exact .decoderStarted s hp
    · rcases h with ⟨rfl, -⟩ | ⟨hr, -, hn, rfl⟩
      · exact .raised _ s _ _ _ nofun
      · exact .walkTo hp hd hr rfl hn
    · rcases h with ⟨hc, rfl⟩ | ⟨-, rfl⟩
      · exact .ended s hp hc
      · exact .raised _ s _ _ _ nofun
    · exact .listed s hp

/-- A property of states is kept by every step if it does not depend on what the host presents, holds after CLR, and is
kept by every raised error and by every command. -/
theorem step_keeps {P : State → Prop} (hinput : ∀ (s : State) l, P s → P { s with input := l })
    (hclear : ∀ s : State, P s.clear)
    (hraise : ∀ (s : State) e sym pos cmd, e ≠ .none → P s → P (s.raise e sym pos cmd))
    (hexec : ∀ i s t, P s → exec i s = .next t → P t) (hs : P s) (h : step s = .next t) : P t := by
  rcases step_cases h with ⟨-, rfl⟩ | ⟨s', -, rfl, rfl | ⟨i, h⟩ | ⟨w, h⟩⟩
  · exact hs
  · exact hclear _
  · exact hexec i _ t (hinput s _ hs) h
  · rcases illegalWord_cases h with ⟨-, rfl⟩ | ⟨-, rfl⟩
    · exact hinput s _ hs
    · exact hraise _ _ _ _ _ nofun (hinput s _ hs)

end Sys2Proof.Machine
end

section
/-! Which command may change what (spec/10_state.md): PHASE, the registers and the logs. -/

namespace Sys2Proof.Machine

/-- Settles O12, by the effects of a command: only CLR, BLD and GEN write PHASE. -/
theorem phaseChangesOnlyByThese : Obligations.PhaseChangesOnlyByThese := by
  intro i s t h
  cases exec_effect h with
  | cleared => exact .inr (.inl ⟨rfl, rfl⟩)
  | built _ hp => exact .inr (.inr (.inl ⟨rfl, hp, rfl⟩))
  | coded _ _ hp _ => exact .inr (.inr (.inr ⟨rfl, hp, rfl⟩))
  | _ => exact .inl rfl

/-- Settles O53, by the effects of a command: each writes only the registers its rule names. -/
theorem registersChangeOnlyByTheirCommands : Obligations.RegistersChangeOnlyByTheirCommands := by
  intro i s t h hi
  cases exec_effect h with
  | cleared => exact absurd rfl hi
  | answered _ _ _ hr => simp [hr]
  | _ => simp

end Sys2Proof.Machine
end

section
/-! The reset state (spec/10_state.md R28) and the states in which the model stops (log entries 6, 7 and 8). -/

namespace Sys2Proof.Machine

/-- Settles O8: CLR in any state leaves the values of the reset state, and each of them is the table's. -/
theorem resetValueOfEveryState : Obligations.ResetValueOfEveryState := by
  intro t ht
  have hclear : ∃ s : State, t = s.clear := by
    rcases ht with rfl | ⟨s, h⟩
    · exact ⟨State.reset, rfl⟩
    · cases h; exact ⟨s, rfl⟩
  obtain ⟨s, rfl⟩ := hclear
  simp [State.freqAt, State.nodeAt, State.codeAt, Node.zero, Code.zero]

/-- Settles O59: each command passes the checks before its own rule, and that rule faults. -/
theorem modelFaultsOutsideTheInvariants : Obligations.ModelFaultsOutsideTheInvariants := by
  intro s he
  refine ⟨fun hp hn => ?_, fun hp hw => ?_, fun hp hd hr hc bit => ?_⟩
  · refine (gate_ready _ s _ he ?_).trans (if_neg hn)
    simp [legal, phaseAdmits, ddoneAdmits, hp]
  · refine (gate_ready _ s _ he ?_).trans ?_
    · simp [legal, phaseAdmits, ddoneAdmits, hp]
    · simp only [hw]
  · refine (gate_ready _ s _ he ?_).trans ((if_neg hr).trans ?_)
    · simp [legal, phaseAdmits, ddoneAdmits, hp, hd]
    · simp only [State.nodeOf, if_pos hc]

end Sys2Proof.Machine
end

section
/-! Every step keeps the frequency invariant (spec/10_state.md R29): counting one byte adds one to the sum of the table
and, for a new symbol, one to the size of the alphabet. -/

namespace Sys2Proof.Machine

/-! ### One write to the frequency table -/

/-- Sums over the symbols of two functions that agree but at one symbol differ by the difference there. -/
theorem sum_symbols_update {f g : Nat → Nat} {x : Nat} (hx : x < 256) (h : ∀ k, k ≠ x → f k = g k) :
    ((List.range Config.nSym).map f).sum + g x = ((List.range Config.nSym).map g).sum + f x := by
  have hmem : x ∈ List.range Config.nSym := List.mem_range.2 hx
  have hrest : ((List.range Config.nSym).erase x).map f = ((List.range Config.nSym).erase x).map g :=
    List.map_congr_left fun k hk => h k ((List.nodup_range.mem_erase_iff).1 hk).1
  rw [← List.sum_map_erase f hmem, ← List.sum_map_erase g hmem, hrest]
  omega

theorem freqSum_write (freq : List (Nat × Count)) {x : Nat} (v : Count) (hx : x < 256) :
    freqSum (Table.write 0#32 freq x v) + (Table.read 0#32 freq x).toNat = freqSum freq + v.toNat := by
  have h := sum_symbols_update (f := fun k => (Table.read 0#32 (Table.write 0#32 freq x v) k).toNat)
    (g := fun k => (Table.read 0#32 freq k).toNat) hx fun k hk => by rw [Table.read_write_other _ _ _ _ _ hk]
  rwa [Table.read_write_same] at h

/-- The size of the alphabet as a sum over all symbols. -/
theorem length_symbols_eq_sum (freq : List (Nat × Count)) :
    (symbols freq).length =
      ((List.range Config.nSym).map fun k => if Table.read 0#32 freq k = 0 then 0 else 1).sum := by
  rw [sum_range_eq_sum_symbols freq _ fun k hk => if_pos hk,
    List.map_congr_left fun k hk => if_neg ((mem_symbols freq k).1 hk).2]
  simp

/-- A symbol that gets a count joins the alphabet unless it was in it. -/
theorem length_symbols_write (freq : List (Nat × Count)) {x : Nat} {v : Count} (hx : x < 256) (hv : v ≠ 0) :
    (symbols (Table.write 0#32 freq x v)).length =
      (symbols freq).length + if Table.read 0#32 freq x = 0 then 1 else 0 := by
  have h := sum_symbols_update
    (f := fun k => if Table.read 0#32 (Table.write 0#32 freq x v) k = 0 then 0 else 1)
    (g := fun k => if Table.read 0#32 freq k = 0 then 0 else 1) hx fun k hk => by
      rw [Table.read_write_other _ _ _ _ _ hk]
  rw [Table.read_write_same, if_neg hv] at h
  rw [length_symbols_eq_sum, length_symbols_eq_sum]
  by_cases hz : Table.read 0#32 freq x = 0
  · rw [if_pos hz] at h ⊢
    omega
  · rw [if_neg hz] at h ⊢
    omega

theorem read_le_freqSum (freq : List (Nat × Count)) {x : Nat} (hx : x < 256) :
    (Table.read 0#32 freq x).toNat ≤ freqSum freq :=
  List.le_sum_of_mem (List.mem_map.2 ⟨x, List.mem_range.2 hx, rfl⟩)

/-! ### CNT -/

/-- CNT keeps the frequency invariant: below CNT_MAX none of its three additions wraps (R92). -/
theorem FreqInv.countSym {s : State} (h : FreqInv s) (sym : Sym) (hm : s.total ≠ Config.cntMax) :
    FreqInv (s.countSym sym) := by
  have hx : sym.toNat < 256 := sym.isLt
  have htotal : s.total.toNat + 1 < 2 ^ 32 := by
    have : s.total.toNat ≠ 2 ^ 32 - 1 := fun hc => hm (BitVec.eq_of_toNat_eq hc)
    omega
  have hcount : (s.freqAt sym.toNat).toNat + 1 < 2 ^ 32 :=
    Nat.lt_of_le_of_lt (Nat.succ_le_succ (h.total_eq ▸ read_le_freqSum s.freq hx)) htotal
  have hv : (s.freqAt sym.toNat + 1).toNat = (s.freqAt sym.toNat).toNat + 1 := BitVec.toNat_add_of_lt hcount
  have hv0 : s.freqAt sym.toNat + 1 ≠ 0 := fun hc => Nat.succ_ne_zero _ (hv.symm.trans (congrArg BitVec.toNat hc))
  constructor
  · have hsum : freqSum (s.countSym sym).freq + (s.freqAt sym.toNat).toNat = _ := freqSum_write s.freq _ hx
    rw [hv, ← h.total_eq] at hsum
    have ht : (s.total + 1).toNat = s.total.toNat + 1 := BitVec.toNat_add_of_lt htotal
    rw [State.countSym_total, ht]
    omega
  · have hlen : (symbols (s.countSym sym).freq).length =
        (symbols s.freq).length + if s.freqAt sym.toNat = 0 then 1 else 0 := length_symbols_write s.freq hx hv0
    have hnsym : s.nsym.toNat + 1 < 2 ^ 9 :=
      Nat.lt_of_le_of_lt (Nat.succ_le_succ (h.nsym_eq ▸ symbols_length_le s.freq)) (by decide)
    rw [State.countSym_nsym, hlen, ← h.nsym_eq]
    by_cases hz : s.freqAt sym.toNat = 0
    · rw [if_pos hz, if_pos hz]
      exact BitVec.toNat_add_of_lt hnsym
    · rw [if_neg hz, if_neg hz]
      rfl

/-! ### Every command, and every step -/

theorem FreqInv.clear (s : State) : FreqInv s.clear := by
  have h : freqSum [] = 0 ∧ (symbols []).length = 0 := by decide +kernel
  exact ⟨h.1.symm, h.2.symm⟩

theorem exec_keeps_freqInv {i : Instr} {s t : State} (hf : FreqInv s) (h : exec i s = .next t) : FreqInv t := by
  cases exec_effect h with
  | cleared => exact .clear s
  | counted _ sym _ hm => exact hf.countSym sym hm
  | _ => exact ⟨hf.total_eq, hf.nsym_eq⟩

/-- Settles O19: CNT keeps the invariant by `FreqInv.countSym`, CLR and reset establish it, and nothing else writes what
it speaks of. -/
theorem everyStepKeepsTheFrequencyInvariant : Obligations.EveryStepKeepsTheFrequencyInvariant := fun _ _ hf h =>
  step_keeps (P := FreqInv) (fun _ l h => h.withInput l) FreqInv.clear (fun _ _ _ _ _ _ h => ⟨h.total_eq, h.nsym_eq⟩)
    (fun _ _ _ => exec_keeps_freqInv) hf h

end Sys2Proof.Machine
end

section
/-! BLD establishes the tree invariant (spec/10_state.md R30), for each of the three kinds of alphabet: none, one symbol
(R103, R104), and two or more, where the invariant of the finished merge loop says it (R105, R108). -/

namespace Sys2Proof.Machine

/-! ### The shape of the finished merge loop -/

variable {freq : List (Nat × Count)} {nodes : List (Nat × Node)} {k : Nat} {A : List Nat}

/-- The internal nodes are the nodes made so far. -/
theorem LoopInv.isInternal_iff (h : LoopInv freq nodes k A) (j : Nat) : isInternal nodes j ↔ 256 ≤ j ∧ j < k := by
  constructor
  · rintro ⟨hv, hl⟩
    rcases (h.valid j).1 hv with ⟨hj, hfr⟩ | hj
    · rw [h.leaf j hj hfr] at hl; cases hl
    · exact hj
  · intro hj
    obtain ⟨x, y, -, hm, -⟩ := h.merged j hj.1 hj.2
    exact ⟨(h.valid j).2 (.inr hj), by rw [hm]; rfl⟩

/-- A node is over two different nodes that were active when it was made. -/
theorem LoopInv.children (h : LoopInv freq nodes k A) {j : Nat} (hj : 256 ≤ j) (hjk : j < k) (hk : k ≤ 511) :
    let n := Table.read Node.zero nodes j
    n.sym = 0 ∧ n.left ≠ n.right ∧ activeAt nodes j n.left.toNat ∧ activeAt nodes j n.right.toNat := by
  obtain ⟨x, y, hne, hm, ⟨hx, -⟩, ⟨⟨hy, -⟩, -⟩⟩ := h.merged j hj hjk
  have hxn : (BitVec.ofNat 9 x).toNat = x := toNat_ofNat_idx (by have := hx.1; omega)
  have hyn : (BitVec.ofNat 9 y).toNat = y := toNat_ofNat_idx (by have := hy.1; omega)
  rw [hm]
  refine ⟨rfl, fun hc => hne ?_, by simpa only [internalNode, hxn] using hx, by simpa only [internalNode, hyn] using hy⟩
  rw [← hxn, ← hyn]
  exact congrArg BitVec.toNat hc

/-- A child was active when its parent was made. -/
theorem LoopInv.activeAt_of_isChild (h : LoopInv freq nodes k A) (hk : k ≤ 511) {p i : Nat} (hc : isChild nodes p i) :
    256 ≤ p ∧ p < k ∧ activeAt nodes p i := by
  obtain ⟨hp, hpk⟩ := (h.isInternal_iff p).1 hc.1
  obtain ⟨-, -, hl, hr⟩ := h.children hp hpk hk
  rcases hc.2 with rfl | rfl
  · exact ⟨hp, hpk, hl⟩
  · exact ⟨hp, hpk, hr⟩

/-- No node has two parents: the second would have been made over a node that was no longer active. -/
theorem LoopInv.parent_unique (h : LoopInv freq nodes k A) (hk : k ≤ 511) {p q i : Nat} (hp : isChild nodes p i)
    (hq : isChild nodes q i) : p = q := by
  obtain ⟨hp256, -, -, -, hnp⟩ := h.activeAt_of_isChild hk hp
  obtain ⟨hq256, -, -, -, hnq⟩ := h.activeAt_of_isChild hk hq
  rcases Nat.lt_trichotomy p q with hlt | heq | hgt
  · exact absurd hp (hnq p hp256 hlt)
  · exact heq
  · exact absurd hq (hnp q hq256 hgt)

/-- A valid node that is no longer active has a parent. -/
theorem LoopInv.exists_parent (h : LoopInv freq nodes k A) {i : Nat} (hv : (Table.read Node.zero nodes i).valid = true)
    (hi : i ∉ A) : ∃ p, isChild nodes p i := by
  by_contra hno
  have hik : i < k := by have := (h.valid i).1 hv; have := h.low; omega
  exact hi ((h.active i).2 ⟨hik, hv, fun p _ _ hc => hno ⟨p, hc⟩⟩)

/-! ### The table of a one-symbol alphabet -/

section

variable (h1 : symbols freq = [k])
include h1

theorem mem_alphabet_of_oneSymbol (j : Nat) : (j < 256 ∧ Table.read 0#32 freq j ≠ 0) ↔ j = k := by
  rw [← mem_symbols, h1, List.mem_singleton]

/-- The synthetic root, the leaf of the symbol, and nothing else (R104). -/
theorem read_buildNodes_of_oneSymbol (j : Nat) :
    Table.read Node.zero (buildNodes freq) j =
      if j = 256 then internalNode (BitVec.ofNat 9 k) Config.nil (Table.read 0#32 freq k)
      else if j = k then leafNode k (Table.read 0#32 freq k) else Node.zero := by
  have hleaf : Table.read Node.zero (leaves freq) j =
      if j = k then leafNode k (Table.read 0#32 freq k) else Node.zero := by
    rw [read_leaves]
    by_cases hj : j = k
    · rw [if_pos ((mem_alphabet_of_oneSymbol h1 j).2 hj), if_pos hj, hj]
    · rw [if_neg fun hc => hj ((mem_alphabet_of_oneSymbol h1 j).1 hc), if_neg hj]
  rw [buildNodes, h1, ← hleaf]
  exact Table.read_write _ _ _ _ _

theorem root_of_oneSymbol : Table.read Node.zero (buildNodes freq) 256 =
    internalNode (BitVec.ofNat 9 k) Config.nil (Table.read 0#32 freq k) :=
  (read_buildNodes_of_oneSymbol h1 256).trans (if_pos rfl)

theorem leaf_of_oneSymbol : Table.read Node.zero (buildNodes freq) k = leafNode k (Table.read 0#32 freq k) := by
  have hk : k < 256 := ((mem_alphabet_of_oneSymbol h1 k).2 rfl).1
  rw [read_buildNodes_of_oneSymbol h1, if_neg (by omega), if_pos rfl]

theorem valid_of_oneSymbol (j : Nat) :
    (Table.read Node.zero (buildNodes freq) j).valid = true ↔ j = k ∨ j = 256 := by
  constructor
  · intro hv
    by_contra hc
    rw [read_buildNodes_of_oneSymbol h1, if_neg fun h => hc (.inr h), if_neg fun h => hc (.inl h)] at hv
    cases hv
  · rintro (rfl | rfl)
    · rw [leaf_of_oneSymbol h1]; rfl
    · rw [root_of_oneSymbol h1]; rfl

/-- The one parent is the synthetic root; its children are the leaf and NIL. -/
theorem isChild_of_oneSymbol (p j : Nat) : isChild (buildNodes freq) p j ↔ p = 256 ∧ (j = k ∨ j = 511) := by
  have hk : k < 256 := ((mem_alphabet_of_oneSymbol h1 k).2 rfl).1
  have hroot := fun j => isChild_internalNode (y := 511) (by omega : k < 512) (by decide) (root_of_oneSymbol h1) j
  constructor
  · intro hc
    obtain rfl | rfl := (valid_of_oneSymbol h1 p).1 hc.1.1
    · have hl := hc.1.2
      rw [leaf_of_oneSymbol h1] at hl
      cases hl
    · exact ⟨rfl, (hroot j).1 hc⟩
  · rintro ⟨rfl, hj⟩
    exact (hroot j).2 hj

end

/-! ### The registers -/

theorem toNat_rootOf {n : Nat} (h2 : 2 ≤ n) (hn : n ≤ 256) : (rootOf n).toNat = 254 + n := by
  rw [rootOf, if_neg (by omega), if_neg (by omega), toNat_ofNat_idx (by omega)]

theorem toNat_internalCount {n : Nat} (h2 : 2 ≤ n) (hn : n ≤ 256) : (internalCount n).toNat = n - 1 := by
  rw [internalCount, if_neg (by omega), toNat_ofNat_idx (by omega)]

/-! ### The tree of each kind of alphabet -/

variable {s : State}

/-- No symbol: no node and no tree (R103). -/
theorem treeInv_buildTree_of_noSymbol (hf : FreqInv s) (hs : s.single = false) (h0 : symbols s.freq = []) :
    TreeInv s.buildTree := by
  have hn : s.nsym = 0 := BitVec.eq_of_toNat_eq (by rw [hf.nsym_eq, h0]; rfl)
  have hnone : ∀ j, ¬ (j < 256 ∧ Table.read 0#32 s.freq j ≠ 0) := fun j hj => by
    have := (mem_symbols s.freq j).2 hj
    rw [h0] at this
    cases this
  have hzero : ∀ j, s.buildTree.nodeAt j = Node.zero := fun j => by
    rw [State.nodeAt, State.buildTree_node, buildNodes, h0]
    exact (read_leaves s.freq j).trans (if_neg (hnone j))
  have hvalid : ∀ j, (s.buildTree.nodeAt j).valid = false := fun j => by rw [hzero]; rfl
  have hroot : s.buildTree.root = Config.nil := by rw [State.buildTree_root, hn]; rfl
  exact
    { noSymbol := fun _ => ⟨hroot, by rw [State.buildTree_nint, hn]; rfl, by simp [hn], by simp [hn, hs], hvalid⟩
      oneSymbol := fun k hk => by rw [State.buildTree_freq, h0] at hk; cases hk
      manySymbols := fun h2 => by rw [State.buildTree_nsym, hn] at h2; exact absurd h2 (by decide)
      leaf := fun k hk hfk => absurd ⟨hk, hfk⟩ (hnone k)
      internal := fun j _ hv => by rw [hvalid] at hv; cases hv
      invalid := fun j _ => hzero j
      oneParent := fun j hv => by rw [hvalid] at hv; cases hv
      rootNoChild := fun hr => absurd hroot hr
      rootWeight := fun hr => absurd hroot hr }

/-- One symbol: its leaf below the synthetic root (R104). -/
theorem treeInv_buildTree_of_oneSymbol (hf : FreqInv s) (he : s.empty = false) {k : Nat} (h1 : symbols s.freq = [k]) :
    TreeInv s.buildTree := by
  have hn : s.nsym = 1 := BitVec.eq_of_toNat_eq (by rw [hf.nsym_eq, h1]; rfl)
  have hk : k < 256 := ((mem_alphabet_of_oneSymbol h1 k).2 rfl).1
  have hroot : s.buildTree.nodeAt 256 = internalNode (BitVec.ofNat 9 k) Config.nil (s.freqAt k) :=
    root_of_oneSymbol h1
  have hleaf : s.buildTree.nodeAt k = leafNode k (s.freqAt k) := leaf_of_oneSymbol h1
  have hvalid : ∀ j, (s.buildTree.nodeAt j).valid = true ↔ j = k ∨ j = 256 := valid_of_oneSymbol h1
  have hchild : ∀ p j, isChild s.buildTree.node p j ↔ p = 256 ∧ (j = k ∨ j = 511) := isChild_of_oneSymbol h1
  have hr : s.buildTree.root = 256 := by rw [State.buildTree_root, hn]; rfl
  have hr256 : s.buildTree.root.toNat = 256 := by rw [hr]; rfl
  exact
    { noSymbol := fun h0 => by rw [State.buildTree_nsym, hn] at h0; cases h0
      oneSymbol := fun k' hk' => by
        obtain rfl : k = k' := (List.cons.inj (h1.symm.trans hk')).1
        exact ⟨hr, by rw [State.buildTree_nint, hn]; rfl, by simp [hn], by simp [hn, he], hroot, hvalid⟩
      manySymbols := fun h2 => by rw [State.buildTree_nsym, hn] at h2; exact absurd h2 (by decide)
      leaf := fun j hj hfj => by obtain rfl := (mem_alphabet_of_oneSymbol h1 j).1 ⟨hj, hfj⟩; exact hleaf
      internal := fun j hj hv => by
        obtain rfl : j = 256 := ((hvalid j).1 hv).resolve_left (by omega)
        have hw : childWeight s.buildTree.node (BitVec.ofNat 9 k) = (s.freqAt k).toNat := by
          rw [childWeight, if_neg (ofNat_idx_ne_nil (by omega)), toNat_ofNat_idx (by omega)]
          exact congrArg (fun n => n.weight.toNat) hleaf
        rw [hroot]
        exact ⟨rfl, rfl, hw.symm⟩
      invalid := fun j hv => by
        have hj : ¬ (j = k ∨ j = 256) := fun hc => by rw [(hvalid j).2 hc] at hv; cases hv
        refine (read_buildNodes_of_oneSymbol h1 j).trans ?_
        rw [if_neg fun h => hj (.inr h), if_neg fun h => hj (.inl h)]
      oneParent := fun j hv hj => by
        obtain rfl : j = k := ((hvalid j).1 hv).resolve_right fun hc => hj (hc.trans hr256.symm)
        exact ⟨256, (hchild _ _).2 ⟨rfl, .inl rfl⟩, fun p hp => ((hchild p _).1 hp).1⟩
      rootNoChild := fun _ p hp => by
        rw [hr256, hchild] at hp
        omega
      rootWeight := fun _ => by
        rw [hr256, hroot]
        refine BitVec.eq_of_toNat_eq (Eq.trans ?_ hf.total_eq.symm)
        rw [freqSum_eq_symbols, h1, List.map_singleton, List.sum_singleton]
        rfl }

/-- Two or more symbols: the finished merge loop, with the root alone active (R105, R108). -/
theorem treeInv_buildTree_of_manySymbols (hf : FreqInv s) (he : s.empty = false) (hs : s.single = false)
    (h2 : 2 ≤ (symbols s.freq).length) : TreeInv s.buildTree := by
  have hloop := buildNodes_loop (hf.total_eq ▸ s.total.isLt) h2
  have hle := symbols_length_le s.freq
  rw [← hf.nsym_eq] at hloop h2 hle
  have hk : 255 + s.nsym.toNat ≤ 511 := by omega
  have hr : s.buildTree.root.toNat = 254 + s.nsym.toNat := toNat_rootOf h2 hle
  have hroot : ∀ i, i ∈ [254 + s.nsym.toNat] ↔ i = s.buildTree.root.toNat := fun i => by
    rw [List.mem_singleton, hr]
  have hn0 : decide (s.nsym = 0) = false := decide_eq_false fun hc => by rw [hc] at h2; exact absurd h2 (by decide)
  have hn1 : decide (s.nsym = 1) = false := decide_eq_false fun hc => by rw [hc] at h2; exact absurd h2 (by decide)
  have hlt : ∀ j, 256 ≤ j → (s.buildTree.nodeAt j).valid = true → j < 255 + s.nsym.toNat := fun j hj hv => by
    have := (hloop.valid j).1 hv
    omega
  exact
    { noSymbol := fun h0 => by rw [State.buildTree_nsym] at h0; omega
      oneSymbol := fun k hk => by
        have := congrArg List.length hk
        rw [State.buildTree_freq, ← hf.nsym_eq, List.length_singleton] at this
        omega
      manySymbols := fun _ => by
        refine ⟨hr, toNat_internalCount h2 hle, ?_, ?_, fun j => (hloop.valid j).trans ?_, fun j hj hj' => ?_⟩
        · rw [State.buildTree_empty, hn0, he]; rfl
        · rw [State.buildTree_single, hn1, hs]; rfl
        · rw [show j < 255 + s.nsym.toNat ↔ j ≤ 254 + s.nsym.toNat by omega]; rfl
        · have hjk : j < 255 + s.nsym.toNat := by rw [State.buildTree_nsym] at hj'; omega
          obtain ⟨-, hne, ⟨hl, hlv, -⟩, ⟨hr, hrv, -⟩⟩ := hloop.children hj hjk hk
          exact ⟨hl, hr, hne, hlv, hrv⟩
      leaf := hloop.leaf
      internal := fun j hj hv => by
        have hjk := hlt j hj hv
        exact ⟨((hloop.isInternal_iff j).2 ⟨hj, hjk⟩).2, (hloop.children hj hjk hk).1, hloop.exact j hj hjk⟩
      invalid := hloop.invalid
      oneParent := fun j hv hj => by
        obtain ⟨p, hp⟩ := hloop.exists_parent hv fun hc => hj ((hroot j).1 hc)
        exact ⟨p, hp, fun q hq => hloop.parent_unique hk hq hp⟩
      rootNoChild := fun _ p hp => by
        obtain ⟨hp256, hpk, -⟩ := hloop.activeAt_of_isChild hk hp
        exact ((hloop.active _).1 ((hroot _).2 rfl)).2.2 p hp256 hpk hp
      rootWeight := fun _ => BitVec.eq_of_toNat_eq (by
        have hw := hloop.weights
        rw [List.map_singleton, List.sum_singleton, ← hf.total_eq, ← hr] at hw
        exact hw) }

theorem treeInv_buildTree (hf : FreqInv s) (he : s.empty = false) (hs : s.single = false) : TreeInv s.buildTree := by
  cases h : symbols s.freq with
  | nil => exact treeInv_buildTree_of_noSymbol hf hs h
  | cons k l =>
    cases l with
    | nil => exact treeInv_buildTree_of_oneSymbol hf he h
    | cons => exact treeInv_buildTree_of_manySymbols hf he hs (by simp [h])

theorem TreeInv.startDecoder (h : TreeInv s) : TreeInv s.startDecoder := { h with }

/-- Settles O25: what BLD leaves, by the kind of alphabet; making the decoder ready touches nothing of the tree. -/
theorem bldEstablishesTheTreeInvariant : Obligations.BldEstablishesTheTreeInvariant := by
  intro s t hf hne hp he hs h
  rcases execBld_cases h with (⟨hc, -⟩ | ⟨-, hl, -⟩) | ⟨-, -, -, rfl⟩
  · exact absurd hne hc
  · simp [legal, phaseAdmits, ddoneAdmits, hp] at hl
  · exact (treeInv_buildTree hf he hs).startDecoder

end Sys2Proof.Machine
end

section
/-! The reset state meets the invariants of spec/10_state.md R29 to R32, and every step keeps them. -/

namespace Sys2Proof.Machine

variable {s t : State}

/-! ### What the invariants do not read -/

/-- The invariants do not read the positions, the logs, what the host presents and what has left the ports. -/
theorem Inv.of_sameTree (h : Inv s)
    (ht : t = { s with
      epos := t.epos, dpos := t.dpos, eout := t.eout, dout := t.dout, lout := t.lout, rsp := t.rsp
      input := t.input, ports := t.ports }) : Inv t := by
  rw [ht]
  exact
    { h with
      freq := { h.freq with }
      tree := fun hp => { h.tree hp with }
      codes := fun hp => { h.codes hp with } }

/-- An error latched, with any context (R14). -/
theorem Inv.raise (h : Inv s) {e : ErrCode} (he : e ≠ .none) (sym : Sym) (pos : Pos) (cmd : Word) :
    Inv (s.raise e sym pos cmd) :=
  { h with
    freq := { h.freq with }
    noError := fun hc => absurd hc he
    tree := fun hp => { h.tree hp with }
    codes := fun hp => { h.codes hp with } }

/-! ### Reset and CLR -/

/-- Settles O56, by the values of R28: a session starts in COUNT, where no tree and no code is asked for. -/
theorem resetMeetsTheInvariants : Obligations.ResetMeetsTheInvariants where
  tables := Memory.wf_reset
  freq := FreqInv.clear State.reset
  noError _ := ⟨rfl, rfl, rfl⟩
  fresh _ := ⟨rfl, rfl, rfl, rfl, rfl, rfl, rfl⟩
  tree hp := absurd rfl hp
  noCodes _ := rfl
  codes hp := nomatch hp
  cursor hp := absurd rfl hp
  done hd := nomatch hd

theorem Inv.clear (s : State) : Inv s.clear := Inv.of_sameTree resetMeetsTheInvariants rfl

/-! ### CNT and BLD -/

/-- CNT counts in a session that has no tree yet. -/
theorem Inv.countSym (h : Inv s) (sym : Sym) (hp : s.phase = .count) (hm : s.total ≠ Config.cntMax) :
    Inv (s.countSym sym) := by
  obtain ⟨hfreq, hnode, hcode⟩ := (Memory.wf_iff s).1 h.tables
  exact
    { h with
      tables := (Memory.wf_iff _).2 ⟨Table.wf_write _ _ _ _ _ hfreq sym.isLt, hnode, hcode⟩
      freq := h.freq.countSym sym hm
      tree := fun hc => absurd hp hc
      codes := fun hc => nomatch hp.symm.trans hc
      cursor := fun hc => absurd hp hc }

/-- BLD, in a session that has no tree yet. -/
theorem Inv.buildTree (h : Inv s) (hp : s.phase = .count) : Inv s.buildTree.startDecoder := by
  obtain ⟨hfreq, -, hcode⟩ := (Memory.wf_iff s).1 h.tables
  obtain ⟨-, -, -, -, hempty, hsingle, -⟩ := h.fresh hp
  exact
    { tables := (Memory.wf_iff _).2 ⟨hfreq, wf_buildNodes s.freq, hcode⟩
      freq := { h.freq with }
      noError := h.noError
      fresh := nofun
      tree := fun _ => (treeInv_buildTree h.freq hempty hsingle).startDecoder
      noCodes := fun _ => h.noCodes (by simp [hp])
      codes := nofun
      cursor := fun _ => .inl rfl
      done := nofun }

/-! ### GEN -/

/-- The walk from the root writes, for each symbol of the alphabet, the path to its leaf, and nothing else. -/
theorem deriveCodes_spec (hf : FreqInv s) (ht : TreeInv s) {codes : List (Nat × Code)}
    (h : deriveCodes s = some codes) (k : Nat) :
    (∃ p, 1 ≤ p.length ∧ p.length ≤ 255 ∧ k < 256 ∧ s.freqAt k ≠ 0 ∧
        follow s.node s.root p = some (BitVec.ofNat 9 k) ∧ Table.read Code.zero codes k = codeOfPath p) ∨
      (¬ (k < 256 ∧ s.freqAt k ≠ 0) ∧ Table.read Code.zero codes k = Code.zero) := by
  rcases walk_spec _ _ _ _ _ _ h k with ⟨p, hp, hlen, hread⟩ | ⟨hno, hread⟩
  · have hroot : s.root ≠ Config.nil := by cases p <;> exact hp.1
    obtain ⟨-, ⟨hvalid, hleaf⟩, -⟩ := (treeInv_root hf ht).resolve_left fun hc => hroot hc.1
    obtain ⟨hfollow, hk, hfk⟩ := follow_of_leafPath hf ht p k s.root (fun _ => hvalid) hp
    refine .inl ⟨p, ?_, hlen, hk, hfk, hfollow, hread⟩
    cases p with
    | nil => exact nomatch hleaf.symm.trans hp.2.1
    | cons b p => exact Nat.succ_pos _
  · refine .inr ⟨fun ⟨hk, hfk⟩ => ?_, hread⟩
    have hmem : k ∈ symbols s.freq := (mem_symbols s.freq k).2 ⟨hk, hfk⟩
    obtain ⟨hroot, -, -⟩ := (treeInv_root hf ht).resolve_left fun hc => by rw [hc.2] at hmem; cases hmem
    obtain ⟨p, hp⟩ := reach hf ht 511 k (by omega) (by rw [ht.leaf k hk hfk]; rfl) (by omega) hroot
    exact hno p (leafPath_of_follow ht p k hk hfk s.root hp)

/-- The bits of a code above its length are 0 (R123). -/
theorem getLsbD_pack_of_length_le {p : List Digit} {i : Nat} (hi : p.length ≤ i) : (pack p).getLsbD i = false := by
  by_cases h : i < 256
  · rw [getLsbD_pack p i h, List.getD_eq_default _ _ hi]
  · exact BitVec.getLsbD_of_ge _ _ (by omega)

theorem codeInv_of_deriveCodes (hf : FreqInv s) (ht : TreeInv s) {codes : List (Nat × Code)}
    (h : deriveCodes s = some codes) (hc : s.code = codes) : CodeInv s := by
  subst hc
  have hvalid : ∀ k, (s.codeAt k).valid = true → ∃ p, 1 ≤ p.length ∧ p.length ≤ 255 ∧ k < 256 ∧ s.freqAt k ≠ 0 ∧
      follow s.node s.root p = some (BitVec.ofNat 9 k) ∧ s.codeAt k = codeOfPath p := fun k hv =>
    (deriveCodes_spec hf ht h k).resolve_right fun hz => by
      rw [State.codeAt, hz.2] at hv
      cases hv
  have hzero : ∀ k, (s.codeAt k).valid = false → s.codeAt k = Code.zero := fun k hv => by
    rcases deriveCodes_spec hf ht h k with ⟨p, -, -, -, -, -, hread⟩ | ⟨-, hread⟩
    · rw [State.codeAt, hread] at hv
      cases hv
    · exact hread
  have hlen : ∀ p : List Digit, p.length ≤ 255 → (codeOfPath p).len.toNat = p.length := fun p hp =>
    toNat_ofNat_idx (by omega)
  constructor
  case valid_iff =>
    intro k
    constructor
    · intro hv
      obtain ⟨-, -, -, hk, hfk, -⟩ := hvalid k hv
      exact ⟨hk, hfk⟩
    · intro hk
      rcases deriveCodes_spec hf ht h k with ⟨p, -, -, -, -, -, hread⟩ | ⟨hno, -⟩
      · exact congrArg Code.valid hread
      · exact absurd hk hno
  case path =>
    intro k hv
    obtain ⟨p, -, hp, -, -, hfollow, hread⟩ := hvalid k hv
    rw [State.codeOf, hread, digits_codeOfPath p (by omega)]
    exact hfollow
  case length =>
    intro k hv
    obtain ⟨p, hp1, hp, -, -, -, hread⟩ := hvalid k hv
    rw [hread, hlen p hp]
    exact ⟨hp1, hp⟩
  case unused =>
    intro k i hi
    cases hv : (s.codeAt k).valid with
    | false => rw [hzero k hv]; exact BitVec.getLsbD_zero
    | true =>
      obtain ⟨p, -, hp, -, -, -, hread⟩ := hvalid k hv
      rw [hread, hlen p hp] at hi
      rw [hread]
      exact getLsbD_pack_of_length_le hi
  case invalid => exact hzero

/-- GEN, in a session that has a tree and no codes yet. -/
theorem Inv.generateCodes (h : Inv s) (hp : s.phase = .built) {codes : List (Nat × Code)}
    (hc : deriveCodes s = some codes) : Inv { s with code := codes, phase := .coded }.startEncoder := by
  obtain ⟨hfreq, hnode, -⟩ := (Memory.wf_iff s).1 h.tables
  have hphase : s.phase ≠ .count := by simp [hp]
  have ht := h.tree hphase
  exact
    { tables := (Memory.wf_iff _).2 ⟨hfreq, hnode, wf_deriveCodes hc⟩
      freq := { h.freq with }
      noError := h.noError
      fresh := nofun
      tree := fun _ => { ht with }
      noCodes := fun hne => absurd rfl hne
      codes := fun _ => codeInv_of_deriveCodes { h.freq with } { ht with } hc rfl
      cursor := fun _ => h.cursor hphase
      done := h.done }

/-! ### The decoder -/

/-- A move of the decoder's cursor, or a new DDONE, where there is a tree. -/
theorem Inv.withCursor (h : Inv s) (hp : s.phase ≠ .count) {c : Idx} {d : Bool} (hc : CursorInv { s with dcur := c })
    (hd : d = true → c = s.root) : Inv { s with dcur := c, ddone := d } :=
  { h with
    freq := { h.freq with }
    fresh := fun hc => absurd hc hp
    tree := fun hp => { h.tree hp with }
    codes := fun hp => { h.codes hp with }
    cursor := fun _ => hc
    done := hd }

/-- Where there is a tree the cursor is on one of its internal nodes, and a path leads there. -/
theorem CursorInv.path (hc : CursorInv s) (hf : FreqInv s) (ht : TreeInv s) (hr : s.root ≠ Config.nil) :
    isInternal s.node s.dcur.toNat ∧ ∃ p, follow s.node s.root p = some s.dcur := by
  rcases hc with heq | ⟨p, -, hp, hint⟩
  · obtain ⟨-, hint, -⟩ := (treeInv_root hf ht).resolve_left fun hc => hr hc.1
    exact ⟨heq ▸ hint, [], by rw [heq]; rfl⟩
  · exact ⟨hint, p, hp⟩

/-- DEC keeps the cursor invariant: the child of a node of the tree, where it is no leaf, is an internal node one digit
further from the root. -/
theorem CursorInv.descend (hcur : CursorInv s) (hf : FreqInv s) (ht : TreeInv s) (hr : s.root ≠ Config.nil)
    {bit : Digit} {c : Idx} (hc : (s.nodeAt s.dcur.toNat).child bit = c) (hn : c ≠ Config.nil)
    (hl : (s.nodeAt c.toNat).leaf = false) : CursorInv { s with dcur := c } := by
  obtain ⟨hint, p, hp⟩ := hcur.path hf ht hr
  have hstep : follow s.node s.dcur [bit] = some c :=
    (if_pos ⟨hcur.dcur_ne_nil hf ht hr, hint⟩).trans (congrArg some hc)
  subst hc
  obtain ⟨-, -, hvalid⟩ := ((treeInv_child hf ht _ hint bit).2.2).resolve_left fun h => hn h.1
  refine .inr ⟨p ++ [bit], by simp, ?_, hvalid, hl⟩
  rw [follow_append, hp]
  exact hstep

/-! ### Every command, and every step -/

theorem exec_keeps_inv {i : Instr} (h : Inv s) (ht : exec i s = .next t) : Inv t := by
  cases exec_effect ht with
  | kept => exact h
  | raised _ _ e sym pos he => exact h.raise he sym pos _
  | cleared => exact .clear s
  | answered => exact h.of_sameTree rfl
  | counted _ sym hp hm => exact h.countSym sym hp hm
  | built _ hp => exact h.buildTree hp
  | coded _ codes hp hc => exact h.generateCodes hp hc
  | encoderStarted => exact h.of_sameTree rfl
  | encoded => exact h.of_sameTree rfl
  | decoderStarted _ hp => exact (h.withCursor hp (c := s.root) (d := false) (.inl rfl) nofun).of_sameTree rfl
  | emitted _ _ _ hp => exact (h.withCursor hp (c := s.root) (d := s.ddone) (.inl rfl) fun _ => rfl).of_sameTree rfl
  | descended _ bit c hp hd hr hc hn hl =>
    have hcursor := (h.cursor hp).descend h.freq (h.tree hp) hr hc hn hl
    exact (h.withCursor hp (d := s.ddone) hcursor fun hc => nomatch hd.symm.trans hc).of_sameTree rfl
  | ended _ hp hc => exact h.withCursor hp (h.cursor hp) fun _ => hc
  | listed => exact h.of_sameTree rfl

/-- Settles O57, by the effects of a command: CLR and reset establish the invariants, CNT, BLD and GEN keep them in
their phase, the decoder keeps its cursor on the tree, and nothing else writes what they speak of. -/
theorem everyStepKeepsTheInvariants : Obligations.EveryStepKeepsTheInvariants := fun _ _ hs h =>
  step_keeps (P := Inv) (fun _ l h => h.withInput l) Inv.clear (fun _ _ sym pos cmd he h => h.raise he sym pos cmd)
    (fun _ _ _ => exec_keeps_inv) hs h

end Sys2Proof.Machine
end

section
/-! Commands in order (spec/20_memory.md): a step runs the decoded command (R49), a command emits on one stream (R52),
and the tables change only in their phase (R54) and keep their canonical form (R40). -/

namespace Sys2Proof.Machine

variable {s t : State}

/-- Settles O6, by the two cases of a step that takes a word. -/
theorem stepRunsTheDecodedCommand : Obligations.StepRunsTheDecodedCommand := fun _ _ _ hin =>
  ⟨fun _ hd => step_of_legal hin hd, fun _ hd => step_of_illegal hin hd⟩

/-- Settles O52, by the effects of a command: CNT, BLD and GEN alone write a table or its registers, in their phase. -/
theorem tablesChangeOnlyInTheirPhase : Obligations.TablesChangeOnlyInTheirPhase := by
  intro i s t h hi
  cases exec_effect h with
  | cleared => exact absurd rfl hi
  | counted _ _ hp => exact ⟨fun hc => absurd hp hc, fun _ => ⟨rfl, rfl, rfl, rfl, rfl⟩, fun _ => rfl⟩
  | built _ hp => exact ⟨fun hc => absurd hp hc, fun hc => absurd ⟨rfl, hp⟩ hc, fun _ => rfl⟩
  | coded _ _ hp =>
    exact ⟨fun _ => ⟨rfl, rfl, rfl⟩, fun _ => ⟨rfl, rfl, rfl, rfl, rfl⟩, fun hc => absurd ⟨rfl, hp⟩ hc⟩
  | _ => exact ⟨fun _ => ⟨rfl, rfl, rfl⟩, fun _ => ⟨rfl, rfl, rfl, rfl, rfl⟩, fun _ => rfl⟩

/-- Settles O54, by the effects of a command: four of them write the ports, each on its own stream. -/
theorem oneCommandEmitsOnOneStream : Obligations.OneCommandEmitsOnOneStream := by
  intro i s t h
  cases exec_effect h with
  | encoded _ sym => exact .inr (.inl ⟨sym, rfl, rfl, rfl⟩)
  | emitted _ bit => exact .inr (.inr (.inl ⟨⟨bit, rfl⟩, _, rfl, rfl⟩))
  | listed => exact .inr (.inr (.inr (.inl ⟨rfl, rfl⟩)))
  | answered _ _ w hr => exact .inr (.inr (.inr (.inr ⟨hr, w, rfl, rfl⟩)))
  | _ => exact .inl rfl

/-- CNT writes below the size of FREQ, BLD and GEN replace a table by a canonical one, and CLR empties all three. -/
theorem exec_keeps_wf {i : Instr} (hs : Memory.wf s = true) (h : exec i s = .next t) : Memory.wf t = true := by
  obtain ⟨hfreq, hnode, hcode⟩ := (Memory.wf_iff s).1 hs
  cases exec_effect h with
  | cleared => exact Memory.wf_reset
  | counted _ sym => exact (Memory.wf_iff _).2 ⟨Table.wf_write _ _ _ _ _ hfreq sym.isLt, hnode, hcode⟩
  | built => exact (Memory.wf_iff _).2 ⟨hfreq, wf_buildNodes s.freq, hcode⟩
  | coded _ _ _ hc => exact (Memory.wf_iff _).2 ⟨hfreq, hnode, wf_deriveCodes hc⟩
  | _ => exact hs

/-- Settles O55, by `step_keeps`: neither the host's input nor a raised error touches a table, and CLR empties them. -/
theorem everyStepKeepsTheTablesCanonical : Obligations.EveryStepKeepsTheTablesCanonical := fun _ _ hs h =>
  step_keeps (P := fun s => Memory.wf s = true) (fun _ _ hs => hs) (fun _ => Memory.wf_reset)
    (fun _ _ _ _ _ _ hs => hs) (fun _ _ _ => exec_keeps_wf) hs h

end Sys2Proof.Machine
end

section
/-! The encoding of the commands (spec/30_encoding.md): the fields of a format's word (R60 to R66), the word that a
format's decoder accepts, and from these decoding and encoding as inverses (R70), the opcode map (R67), the illegal
words (R68), and the layout of a listing word (R76). -/

namespace Sys2Proof.Machine

variable {w : Word} {i : Instr} {op : BitVec 4}

/-! ### A format's word by its fields (R60 to R65) -/

/-- A bit vector is the concatenation of two parts when its fields are those parts. -/
theorem append_eq_iff {n k : Nat} {hi : BitVec n} {lo : BitVec k} {v : BitVec (n + k)} :
    hi ++ lo = v ↔ v.extractLsb' k n = hi ∧ v.extractLsb' 0 k = lo := by
  constructor
  · rintro rfl
    exact ⟨BitVec.extractLsb'_append_eq_left, BitVec.extractLsb'_append_eq_right⟩
  · rintro ⟨rfl, rfl⟩
    exact BitVec.extractLsb'_append_extractLsb'

/-- The same for three parts, as a format lays them out: opcode, must-be-zero bits, operand. -/
theorem append_append_eq_iff {n m k : Nat} {hi : BitVec n} {mid : BitVec m} {lo : BitVec k} {v : BitVec (n + m + k)} :
    (hi ++ mid) ++ lo = v ↔ v.extractLsb' (k + m) n = hi ∧ v.extractLsb' k m = mid ∧ v.extractLsb' 0 k = lo := by
  rw [append_eq_iff, eq_comm, ← BitVec.extractLsb'_append_extractLsb'_eq_extractLsb' rfl, append_eq_iff,
    BitVec.extractLsb'_append_eq_left, BitVec.extractLsb'_append_eq_right, and_assoc]

theorem wordN_eq_iff : wordN op = w ↔ opField w = op ∧ argField w = 0 := append_eq_iff

theorem wordS_eq_iff {sym : Sym} :
    wordS op sym = w ↔ opField w = op ∧ w.extractLsb' 8 4 = 0 ∧ symField w = sym := append_append_eq_iff

theorem ofBool_bitField (w : Word) : BitVec.ofBool (bitField w) = w.extractLsb' 0 1 := by
  rw [bitField, ← BitVec.setWidth_one, BitVec.setWidth_eq_extractLsb' (by decide)]

theorem wordB_eq_iff {bit : Digit} :
    wordB op bit = w ↔ opField w = op ∧ w.extractLsb' 1 11 = 0 ∧ bitField w = bit := by
  rw [← BitVec.ofBool_eq_iff_eq, ofBool_bitField]
  exact append_append_eq_iff

theorem wordR_eq_iff {reg : BitVec 4} :
    wordR op reg = w ↔ opField w = op ∧ w.extractLsb' 4 8 = 0 ∧ regField w = reg := append_append_eq_iff

theorem wordX_eq_iff {idx : Idx} :
    wordX op idx = w ↔ opField w = op ∧ w.extractLsb' 9 3 = 0 ∧ idxField w = idx := append_append_eq_iff

@[simp] theorem opField_wordN (op : BitVec 4) : opField (wordN op) = op := (wordN_eq_iff.1 rfl).1

@[simp] theorem opField_wordS (op : BitVec 4) (sym : Sym) : opField (wordS op sym) = op := (wordS_eq_iff.1 rfl).1

@[simp] theorem opField_wordB (op : BitVec 4) (bit : Digit) : opField (wordB op bit) = op := (wordB_eq_iff.1 rfl).1

@[simp] theorem opField_wordR (op reg : BitVec 4) : opField (wordR op reg) = op := (wordR_eq_iff.1 rfl).1

@[simp] theorem opField_wordX (op : BitVec 4) (idx : Idx) : opField (wordX op idx) = op := (wordX_eq_iff.1 rfl).1

/-! ### What a format's decoder accepts (R61 to R65): the words of the format, and no others -/

theorem decodeN_eq_ok_iff {c : Instr} : decodeN c w = .ok i ↔ c = i ∧ wordN (opField w) = w := by
  simp [decodeN, wordN_eq_iff, ite_eq_iff, and_comm]

theorem decodeS_eq_ok_iff {f : Sym → Instr} :
    decodeS f w = .ok i ↔ ∃ sym, f sym = i ∧ wordS (opField w) sym = w := by
  simp [decodeS, wordS_eq_iff, ite_eq_iff, and_comm]

theorem decodeB_eq_ok_iff {f : Digit → Instr} :
    decodeB f w = .ok i ↔ ∃ bit, f bit = i ∧ wordB (opField w) bit = w := by
  simp [-Bool.exists_bool, decodeB, wordB_eq_iff, ite_eq_iff, and_comm]

theorem decodeR_eq_ok_iff {f : BitVec 4 → Instr} :
    decodeR f w = .ok i ↔ ∃ reg, regExists reg = true ∧ f reg = i ∧ wordR (opField w) reg = w := by
  simp [decodeR, wordR_eq_iff, ite_eq_iff, and_comm, and_left_comm]

theorem decodeX_eq_ok_iff {f : Idx → Instr} :
    decodeX f w = .ok i ↔ ∃ idx, f idx = i ∧ wordX (opField w) idx = w := by
  simp [decodeX, wordX_eq_iff, ite_eq_iff, and_comm]

/-! ### Decoding and encoding are inverse (R70) -/

/-- The opcode of the command's word picks its own format's decoder, which reads the operand back. -/
theorem decode_encode (hi : i.wellFormed = true) : decode (encode i) = .ok i := by
  cases i with
  | cnt | enc | rdf | rdc => simp [encode, decode, decodeS_eq_ok_iff]
  | dec => simp [encode, decode, decodeB_eq_ok_iff]
  | rdr reg =>
    have hreg : regExists reg = true := hi
    simp [encode, decode, decodeR_eq_ok_iff, hreg]
  | rdn => simp [encode, decode, decodeX_eq_ok_iff]
  | _ => simp [encode, decode, decodeN_eq_ok_iff]

/-- The opcode that picks a format's decoder is the opcode of the word that this decoder accepts. -/
theorem encode_of_decode (h : decode w = .ok i) : i.wellFormed = true ∧ encode i = w := by
  have hop {n : Nat} (hn : (opField w).toNat = n) : opField w = BitVec.ofNat 4 n := by
    rw [← hn, BitVec.ofNat_toNat, BitVec.setWidth_eq]
  unfold decode at h
  split at h
  case h_1 hn | h_3 hn | h_4 hn | h_5 hn | h_7 hn | h_9 hn | h_14 hn =>
    obtain ⟨rfl, hw⟩ := decodeN_eq_ok_iff.1 h
    rw [hop hn] at hw
    exact ⟨rfl, hw⟩
  case h_2 hn | h_6 hn | h_11 hn | h_12 hn =>
    obtain ⟨sym, rfl, hw⟩ := decodeS_eq_ok_iff.1 h
    rw [hop hn] at hw
    exact ⟨rfl, hw⟩
  case h_8 hn =>
    obtain ⟨bit, rfl, hw⟩ := decodeB_eq_ok_iff.1 h
    rw [hop hn] at hw
    exact ⟨rfl, hw⟩
  case h_10 hn =>
    obtain ⟨reg, hreg, rfl, hw⟩ := decodeR_eq_ok_iff.1 h
    rw [hop hn] at hw
    exact ⟨hreg, hw⟩
  case h_13 hn =>
    obtain ⟨idx, rfl, hw⟩ := decodeX_eq_ok_iff.1 h
    rw [hop hn] at hw
    exact ⟨rfl, hw⟩
  case h_15 => cases h

/-- Settles O2, by `decode_encode`. -/
theorem decodeOfEncodeIsTheCommand : Obligations.DecodeOfEncodeIsTheCommand := fun _ => decode_encode

/-- Settles O3, by `encode_of_decode`. -/
theorem encodeOfDecodeIsTheWord : Obligations.EncodeOfDecodeIsTheWord := fun _ _ => encode_of_decode

/-! ### The opcode map (R67) -/

/-- A word is the pattern's high part and its own low part, where the mask covers the high part and the match holds. -/
theorem append_of_masked {n k : Nat} {hi : BitVec n} {v : BitVec (n + k)}
    (h : v &&& (BitVec.allOnes n ++ 0#k) = hi ++ 0#k) : hi ++ v.extractLsb' 0 k = v := by
  obtain ⟨hhi, -⟩ := append_eq_iff.1 h.symm
  rw [BitVec.extractLsb'_and, BitVec.extractLsb'_append_eq_left, BitVec.and_allOnes] at hhi
  exact append_eq_iff.2 ⟨hhi, rfl⟩

/-- The command of `c`'s row with its operand read from `w` (R66). -/
def withOperand (c : Instr) (w : Word) : Instr :=
  match c with
  | .cnt _ => .cnt (symField w)
  | .enc _ => .enc (symField w)
  | .dec _ => .dec (bitField w)
  | .rdr _ => .rdr (regField w)
  | .rdf _ => .rdf (symField w)
  | .rdc _ => .rdc (symField w)
  | .rdn _ => .rdn (idxField w)
  | .clr | .bld | .gen | .ebeg | .dbeg | .dend | .lst => c

theorem opcodeRow_withOperand (c : Instr) (w : Word) : opcodeRow (withOperand c w) = opcodeRow c := by
  cases c <;> rfl

theorem OpcodeRow.admits_iff {r : OpcodeRow} :
    r.admits w = true ↔ w &&& r.mask = r.pattern ∧ (r.mnemonic = "RDR" → regExists (regField w) = true) := by
  simp [OpcodeRow.admits, Classical.or_iff_not_imp_left]

theorem wellFormed_withOperand {c : Instr} (h : (opcodeRow c).admits w = true) :
    (withOperand c w).wellFormed = true := by
  cases c with
  | rdr => exact (OpcodeRow.admits_iff.1 h).2 rfl
  | _ => rfl

/-- A word that meets the mask and match of a row is the row's pattern with the operand read from it. -/
theorem encode_withOperand {c : Instr} (h : w &&& (opcodeRow c).mask = (opcodeRow c).pattern) :
    encode (withOperand c w) = w := by
  cases c with
  | cnt | enc | rdf | rdc => exact append_of_masked (n := 8) (k := 8) h
  | dec =>
    rw [withOperand, encode, wordB, ofBool_bitField]
    exact append_of_masked (n := 15) (k := 1) h
  | rdr => exact append_of_masked (n := 12) (k := 4) h
  | rdn => exact append_of_masked (n := 7) (k := 9) h
  | _ => exact h.symm.trans BitVec.and_allOnes

theorem opcodeRow_mem (i : Instr) : opcodeRow i ∈ opcodeTable := by
  cases i <;> simp [opcodeTable, opcodeRow]

/-- A well-formed command's word is a word of the command's row: `Laws.TableRow.Statement`, for every command. -/
theorem opcodeRow_admits_encode (hi : i.wellFormed = true) : (opcodeRow i).admits (encode i) = true := by
  refine Eq.trans ?_ hi
  cases i with
  | clr => exact Laws.TableRow.clr
  | cnt sym => exact Laws.TableRow.cnt sym
  | bld => exact Laws.TableRow.bld
  | gen => exact Laws.TableRow.gen
  | ebeg => exact Laws.TableRow.ebeg
  | enc sym => exact Laws.TableRow.enc sym
  | dbeg => exact Laws.TableRow.dbeg
  | dec bit => exact Laws.TableRow.dec bit
  | dend => exact Laws.TableRow.dend
  | rdr reg => exact Laws.TableRow.rdr reg
  | rdf sym => exact Laws.TableRow.rdf sym
  | rdc sym => exact Laws.TableRow.rdc sym
  | rdn idx => exact Laws.TableRow.rdn idx
  | lst => exact Laws.TableRow.lst

/-- Settles O4: a legal word is its command's word, which its row admits; an admitted word is the word of the row's
command with the operand read from it, and decodes to that command. -/
theorem opcodeMapDecidesTheCommand : Obligations.OpcodeMapDecidesTheCommand := by
  refine ⟨rfl, fun w i hd => ?_, fun w r hr hw => ?_⟩
  · obtain ⟨hi, rfl⟩ := encode_of_decode hd
    exact ⟨opcodeRow_mem i, opcodeRow_admits_encode hi⟩
  · obtain ⟨c, -, rfl⟩ := List.mem_map.1 hr
    have hd := decode_encode (wellFormed_withOperand hw)
    rw [encode_withOperand (OpcodeRow.admits_iff.1 hw).1] at hd
    exact ⟨withOperand c w, hd, opcodeRow_withOperand c w⟩

/-! ### The illegal words (R68) -/

theorem toNat_opField (w : Word) : (opField w).toNat = w.toNat / 4096 := by
  rw [opField, BitVec.extractLsb'_toNat, Nat.shiftRight_eq_div_pow]
  omega

/-- A field of must-be-zero bits by the number that R68's list gives it. -/
theorem field_eq_zero_iff {k n : Nat} : w.extractLsb' k n = 0 ↔ w.toNat % 2 ^ (k + n) / 2 ^ k = 0 := by
  rw [← BitVec.toNat_inj, BitVec.extractLsb'_toNat, Nat.shiftRight_eq_div_pow, Nat.pow_add,
    Nat.mod_mul_right_div_self]
  rfl

theorem decodeN_eq_error_iff {c : Instr} : (∃ r, decodeN c w = .error r) ↔ w.toNat % 4096 ≠ 0 := by
  have hz : argField w = 0 ↔ w.toNat % 4096 / 1 = 0 := field_eq_zero_iff
  rw [Nat.div_one] at hz
  simp [decodeN, ite_eq_iff, ← hz]

theorem decodeS_eq_error_iff {f : Sym → Instr} : (∃ r, decodeS f w = .error r) ↔ w.toNat % 4096 / 256 ≠ 0 := by
  have hz : w.extractLsb' 8 4 = 0 ↔ w.toNat % 4096 / 256 = 0 := field_eq_zero_iff
  simp [decodeS, ite_eq_iff, ← hz]

theorem decodeB_eq_error_iff {f : Digit → Instr} : (∃ r, decodeB f w = .error r) ↔ w.toNat % 4096 / 2 ≠ 0 := by
  have hz : w.extractLsb' 1 11 = 0 ↔ w.toNat % 4096 / 2 = 0 := field_eq_zero_iff
  simp [decodeB, ite_eq_iff, ← hz]

theorem decodeR_eq_error_iff {f : BitVec 4 → Instr} :
    (∃ r, decodeR f w = .error r) ↔ w.toNat % 4096 / 16 ≠ 0 ∨ 12 ≤ w.toNat % 4096 % 16 := by
  have hz : w.extractLsb' 4 8 = 0 ↔ w.toNat % 4096 / 16 = 0 := field_eq_zero_iff
  have hreg : regExists (regField w) = true ↔ ¬ 12 ≤ w.toNat % 4096 % 16 := by
    rw [regExists, decide_eq_true_iff, regField, BitVec.extractLsb'_toNat, Nat.shiftRight_zero]
    omega
  simp only [decodeR, hz, hreg]
  by_cases hw : w.toNat % 4096 / 16 = 0
  · simp [hw, ite_eq_iff]
  · simp [hw]

theorem decodeX_eq_error_iff {f : Idx → Instr} : (∃ r, decodeX f w = .error r) ↔ w.toNat % 4096 / 512 ≠ 0 := by
  have hz : w.extractLsb' 9 3 = 0 ↔ w.toNat % 4096 / 512 = 0 := field_eq_zero_iff
  simp [decodeX, ite_eq_iff, ← hz]

/-- The opcode is one of sixteen numbers; each picks no format, or the format whose illegal words R68 lists for it. -/
theorem decode_eq_error_iff (w : Word) : (∃ r, decode w = .error r) ↔ IllegalEncoding w := by
  have hop : w.toNat / 4096 < 16 := by have := w.isLt; omega
  rw [decode, toNat_opField, IllegalEncoding]
  generalize w.toNat / 4096 = n at hop
  interval_cases n <;>
    simp [decodeN_eq_error_iff, decodeS_eq_error_iff, decodeB_eq_error_iff, decodeR_eq_error_iff,
      decodeX_eq_error_iff]

theorem illegalWord_raises {s : State} (w : Word) (he : s.err = .none) :
    illegalWord w s = .next (s.raise .illegal 0 0 w) := by
  simp [illegalWord, (State.faulted_eq_false s).2 he]

theorem illegalWord_refused {s : State} (w : Word) (he : s.err ≠ .none) : illegalWord w s = .next s := by
  simp [illegalWord, (State.faulted_eq_true s).2 he]

/-- Settles O5, by `decode_eq_error_iff` and the two things an illegal word can do. -/
theorem illegalWordsAreExactlyThese : Obligations.IllegalWordsAreExactlyThese := by
  refine fun w => ⟨decode_eq_error_iff w, fun hw s => ?_⟩
  obtain ⟨r, hd⟩ := (decode_eq_error_iff w).2 hw
  have hstep : step (s.present w) = illegalWord w s := step_of_illegal rfl hd
  rw [hstep]
  exact ⟨illegalWord_raises w, illegalWord_refused w⟩

/-! ### Words written out (R71, R76) -/

/-- Settles O1: eighteen closed words, which the decoder computes. -/
theorem decodingOfWrittenOutWords : Obligations.DecodingOfWrittenOutWords := by
  unfold Obligations.DecodingOfWrittenOutWords
  decide

/-- Settles O51: SYM and LEN lie in the low part of the concatenation, and BITS above its 17 bits. -/
theorem listingWordLayout : Obligations.ListingWordLayout := by
  intro r
  refine ⟨?_, ?_, fun i hi => ?_⟩
  · rw [ListRecord.word, BitVec.extractLsb'_append_eq_of_add_le (by decide), BitVec.extractLsb'_append_eq_right]
  · rw [ListRecord.word, BitVec.extractLsb'_append_eq_of_add_le (by decide), BitVec.extractLsb'_append_eq_left]
  · have hlo : ¬ 17 + i < 9 + 8 := by omega
    rw [ListRecord.word, BitVec.getLsbD_append, if_neg hlo, Nat.add_sub_cancel_left]

end Sys2Proof.Machine
end

section
/-! Session control (spec/40_session.md): what CLR does. -/

namespace Sys2Proof.Machine

/-- CLR passes no check: it answers in every state, faulted ones included (R81). -/
theorem exec_clr (s : State) : exec .clr s = .next s.clear := rfl

/-- Settles O9: 0x1000 is legal and decodes to CLR, so it is CLR's one word (R70); `State.clear` takes all but the input
and the ports from the reset state, which is the table of R28. -/
theorem clrStartsANewSession : Obligations.ClrStartsANewSession := by
  refine ⟨?_, fun s => ?_⟩
  · obtain ⟨hclr, -⟩ := decodingOfWrittenOutWords
    exact (encode_of_decode hclr).2
  · rw [exec_clr, State.clear, State.reset]

end Sys2Proof.Machine
end

section
/-! Runs of several commands. -/

namespace Sys2Proof.Machine

variable {s t : State}

theorem execAll_cons {i : Instr} (h : exec i s = .next t) (is : List Instr) :
    execAll (i :: is) s = execAll is t := by
  rw [execAll, h]

theorem execAll_cons_eq_next {i : Instr} {is : List Instr} (h : execAll (i :: is) s = .next t) :
    ∃ u, exec i s = .next u ∧ execAll is u = .next t := by
  rw [execAll] at h
  split at h
  · next u hu => exact ⟨u, hu, h⟩
  · cases h
  · cases h

/-- What every command keeps holds after every run. -/
theorem execAll_keeps {P : State → Prop} (hexec : ∀ i s t, P s → exec i s = .next t → P t) {is : List Instr}
    (hs : P s) (h : execAll is s = .next t) : P t := by
  induction is generalizing s with
  | nil => cases h; exact hs
  | cons i is ih =>
    obtain ⟨u, hu, h⟩ := execAll_cons_eq_next h
    exact ih (hexec i s u hs hu) h

end Sys2Proof.Machine
end

section
/-! The frequency counter (spec/41_frequency_counter.md): what CNT does (R91), why its additions never wrap (R92), and
what a whole count pass leaves, whatever the order of the bytes (R90). -/

namespace Sys2Proof.Machine

variable {s : State} {sym : Sym}

/-! ### CNT -/

theorem legal_cnt (sym : Sym) (s : State) : legal (.cnt sym) s = decide (s.phase = .count) := by
  simp [legal, phaseAdmits, ddoneAdmits]

theorem exec_cnt_out_of_phase (he : s.err = .none) (hp : s.phase ≠ .count) :
    exec (.cnt sym) s = .next (s.raise .sequence 0 0 (encode (.cnt sym))) :=
  gate_sequence _ _ _ he (by simp [legal_cnt, hp])

theorem exec_cnt_at_max (he : s.err = .none) (hp : s.phase = .count) (hm : s.total = Config.cntMax) :
    exec (.cnt sym) s = .next (s.raise .overflow 0 0 (encode (.cnt sym))) :=
  (gate_ready _ _ _ he (by simp [legal_cnt, hp])).trans (if_pos hm)

theorem exec_cnt_below_max (he : s.err = .none) (hp : s.phase = .count) (hm : s.total ≠ Config.cntMax) :
    exec (.cnt sym) s = .next (s.countSym sym) :=
  (gate_ready _ _ _ he (by simp [legal_cnt, hp])).trans (if_neg hm)

theorem State.countSym_freqAt (s : State) (sym : Sym) (k : Nat) :
    (s.countSym sym).freqAt k = if k = sym.toNat then s.freqAt k + 1 else s.freqAt k := by
  refine (Table.read_write _ _ _ _ _).trans ?_
  split
  · next hk => rw [hk]
  · rfl

/-- A format S word is the bitwise or of its opcode's part and its operand. -/
theorem encode_cnt (sym : Sym) : encode (.cnt sym) = 0x2000 ||| sym.setWidth 16 := by
  refine BitVec.eq_of_toNat_eq ?_
  have hlt : sym.toNat < 2 ^ 16 := Nat.lt_trans sym.isLt (by decide)
  rw [encode, wordS, BitVec.toNat_append, BitVec.toNat_or, BitVec.toNat_setWidth, Nat.mod_eq_of_lt hlt]
  rfl

/-- Settles O16: each clause is one way for the gate and CNT's own check to end. -/
theorem cntCountsOneByte : Obligations.CntCountsOneByte := fun sym =>
  ⟨encode_cnt sym, fun s he => ⟨exec_cnt_out_of_phase he, exec_cnt_at_max he, fun hp hm =>
    ⟨s.countSym sym, exec_cnt_below_max he hp hm, rfl, s.countSym_freqAt sym⟩⟩⟩

/-! ### The additions do not wrap (R92) -/

theorem total_ne_cntMax (h : s.total.toNat < 2 ^ 32 - 1) : s.total ≠ Config.cntMax :=
  fun hc => absurd (congrArg BitVec.toNat hc) (Nat.ne_of_lt h)

theorem toNat_total_countSym (sym : Sym) (h : s.total.toNat < 2 ^ 32 - 1) :
    (s.countSym sym).total.toNat = s.total.toNat + 1 :=
  BitVec.toNat_add_of_lt (Nat.add_lt_of_lt_sub h)

theorem FreqInv.freqAt_le_total (hf : FreqInv s) {k : Nat} (hk : k < 256) : (s.freqAt k).toNat ≤ s.total.toNat :=
  hf.total_eq ▸ read_le_freqSum s.freq hk

theorem FreqInv.nsym_le (hf : FreqInv s) : s.nsym.toNat ≤ 256 := hf.nsym_eq ▸ symbols_length_le s.freq

/-- Settles O17: FREQ[sym] is at most TOTAL, which is below 2^32 - 1, and NSYM is the size of an alphabet of bytes,
before CNT and after it. -/
theorem countsNeverWrap : Obligations.CountsNeverWrap := by
  intro s sym hf he hp hlt
  have hm := total_ne_cntMax hlt
  have hle : (s.freqAt sym.toNat).toNat ≤ s.total.toNat := hf.freqAt_le_total sym.isLt
  refine ⟨s.countSym sym, exec_cnt_below_max he hp hm, hle, ?_, toNat_total_countSym sym hlt, ?_,
    (hf.countSym sym hm).nsym_le⟩
  · rw [State.countSym_freqAt, if_pos rfl]
    exact BitVec.toNat_add_of_lt (Nat.add_lt_of_lt_sub (Nat.lt_of_le_of_lt hle hlt))
  · rw [State.countSym_nsym]
    split
    · exact BitVec.toNat_add_of_lt (Nat.lt_of_le_of_lt (Nat.succ_le_succ hf.nsym_le) (by decide))
    · rfl

/-! ### The count pass (R90) -/

/-- Every byte of a sequence counted, in order (R91). -/
def State.countAll (s : State) (bytes : List Sym) : State := bytes.foldl State.countSym s

@[simp] theorem State.countAll_nil (s : State) : s.countAll [] = s := rfl

@[simp] theorem State.countAll_cons (s : State) (b : Sym) (bytes : List Sym) :
    s.countAll (b :: bytes) = (s.countSym b).countAll bytes := rfl

@[simp] theorem State.countAll_err (s : State) (bytes : List Sym) : (s.countAll bytes).err = s.err := by
  induction bytes generalizing s with
  | nil => rfl
  | cons b bytes ih => exact ih (s.countSym b)

@[simp] theorem State.countAll_phase (s : State) (bytes : List Sym) : (s.countAll bytes).phase = s.phase := by
  induction bytes generalizing s with
  | nil => rfl
  | cons b bytes ih => exact ih (s.countSym b)

/-- A run of CNT commands that TOTAL leaves room for counts every byte. -/
theorem execAll_cnts {bytes : List Sym} (he : s.err = .none) (hp : s.phase = .count)
    (hlen : s.total.toNat + bytes.length ≤ 2 ^ 32 - 1) : execAll (bytes.map .cnt) s = .next (s.countAll bytes) := by
  induction bytes generalizing s with
  | nil => rfl
  | cons b bytes ih =>
    rw [List.length_cons] at hlen
    have hlt : s.total.toNat < 2 ^ 32 - 1 := by omega
    rw [List.map_cons, execAll_cons (exec_cnt_below_max he hp (total_ne_cntMax hlt))]
    refine ih he hp ?_
    rw [toNat_total_countSym b hlt]
    omega

theorem State.toNat_total_countAll {bytes : List Sym} (hlen : s.total.toNat + bytes.length ≤ 2 ^ 32 - 1) :
    (s.countAll bytes).total.toNat = s.total.toNat + bytes.length := by
  induction bytes generalizing s with
  | nil => rfl
  | cons b bytes ih =>
    rw [List.length_cons] at hlen ⊢
    have hstep := toNat_total_countSym (s := s) b (by omega)
    rw [State.countAll_cons, ih (by omega), hstep]
    omega

/-- Each entry counts the occurrences of its byte, as a count of 32 bits. -/
theorem State.countAll_freqAt (s : State) (bytes : List Sym) (b : Sym) :
    (s.countAll bytes).freqAt b.toNat = s.freqAt b.toNat + BitVec.ofNat 32 (bytes.count b) := by
  induction bytes generalizing s with
  | nil => simp
  | cons a bytes ih =>
    rw [State.countAll_cons, ih, State.countSym_freqAt, List.count_cons]
    by_cases h : a = b
    · subst h
      simp [BitVec.ofNat_add, BitVec.add_assoc, BitVec.add_comm 1#32]
    · simp [h, BitVec.toNat_inj, Ne.symm h]

/-- The alphabet of a table that counts a sequence is its set of distinct bytes. -/
theorem length_symbols_of_count {freq : List (Nat × Count)} {bytes : List Sym}
    (h : ∀ b : Sym, (Table.read 0#32 freq b.toNat).toNat = bytes.count b) :
    (symbols freq).length = bytes.dedup.length := by
  have hmem (b : Sym) : b.toNat ∈ symbols freq ↔ b ∈ bytes := by
    rw [mem_symbols, ← List.count_pos_iff, ← h b, Nat.pos_iff_ne_zero]
    exact (and_iff_right b.isLt).trans (not_congr BitVec.toNat_inj.symm)
  have hperm : (symbols freq).Perm (bytes.dedup.map BitVec.toNat) := by
    refine (List.perm_ext_iff_of_nodup (symbols_nodup freq)
      (bytes.nodup_dedup.map fun _ _ => BitVec.eq_of_toNat_eq)).2 fun k => ?_
    constructor
    · intro hk
      have hlt : k < 2 ^ 8 := ((mem_symbols freq k).1 hk).1
      have hb : (BitVec.ofNat 8 k).toNat = k := Nat.mod_eq_of_lt hlt
      exact List.mem_map.2 ⟨.ofNat 8 k, List.mem_dedup.2 ((hmem _).1 (hb.symm ▸ hk)), hb⟩
    · intro hk
      obtain ⟨b, hb, rfl⟩ := List.mem_map.1 hk
      exact (hmem b).2 (List.mem_dedup.1 hb)
  rw [hperm.length_eq, List.length_map]

/-! ### The order of the bytes -/

theorem wf_countSym (hs : Memory.wf s = true) (sym : Sym) : Memory.wf (s.countSym sym) = true := by
  obtain ⟨hfreq, hnode, hcode⟩ := (Memory.wf_iff s).1 hs
  exact (Memory.wf_iff _).2 ⟨Table.wf_write _ _ _ _ _ hfreq sym.isLt, hnode, hcode⟩

/-- Two bytes can be counted in either order: in a canonical table the two writes leave the same entries. -/
theorem State.countSym_comm (hs : Memory.wf s = true) (a b : Sym) :
    (s.countSym a).countSym b = (s.countSym b).countSym a := by
  by_cases hab : a = b
  · rw [hab]
  have hne : a.toNat ≠ b.toNat := fun h => hab (BitVec.eq_of_toNat_eq h)
  have hwf (c d : Sym) : Table.wf 0#32 Config.nSym ((s.countSym c).countSym d).freq = true :=
    ((Memory.wf_iff _).1 (wf_countSym (wf_countSym hs c) d)).1
  have hfreq : ((s.countSym a).countSym b).freq = ((s.countSym b).countSym a).freq := by
    refine Table.ext _ _ _ _ (hwf a b) (hwf b a) fun k => ?_
    show ((s.countSym a).countSym b).freqAt k = ((s.countSym b).countSym a).freqAt k
    simp only [State.countSym_freqAt]
    by_cases hka : k = a.toNat
    · simp [hka, hne]
    · simp [hka]
  have hnsym : ((s.countSym a).countSym b).nsym = ((s.countSym b).countSym a).nsym := by
    simp only [State.countSym_nsym, State.countSym_freqAt, if_neg hne, if_neg hne.symm]
    split <;> split <;> rfl
  exact congrArg₂ (fun f n => { s with freq := f, nsym := n, total := s.total + 1 + 1 }) hfreq hnsym

theorem State.countAll_perm {bytes bytes' : List Sym} (h : bytes'.Perm bytes) (hs : Memory.wf s = true) :
    s.countAll bytes' = s.countAll bytes := by
  induction h generalizing s with
  | nil => rfl
  | cons b _ ih => exact ih (wf_countSym hs b)
  | swap a b bytes => exact congrArg (State.countAll · bytes) (State.countSym_comm hs b a)
  | trans _ _ ih ih' => exact (ih hs).trans (ih' hs)

/-! ### A session's count pass -/

theorem execAll_clr_cnts (s : State) {bytes : List Sym} (hlen : bytes.length ≤ 2 ^ 32 - 1) :
    execAll (.clr :: bytes.map .cnt) s = .next (s.clear.countAll bytes) := by
  rw [execAll_cons (exec_clr s)]
  exact execAll_cnts rfl rfl ((Nat.zero_add _).trans_le hlen)

theorem toNat_freqAt_clear_countAll (s : State) {bytes : List Sym} (hlen : bytes.length ≤ 2 ^ 32 - 1) (b : Sym) :
    ((s.clear.countAll bytes).freqAt b.toNat).toNat = bytes.count b := by
  have hcount : bytes.count b < 2 ^ 32 := Nat.lt_of_le_of_lt (bytes.count_le_length.trans hlen) (by decide)
  have hzero : s.clear.freqAt b.toNat = 0#32 := rfl
  rw [State.countAll_freqAt, hzero, BitVec.zero_add, BitVec.toNat_ofNat, Nat.mod_eq_of_lt hcount]

/-- Settles O18: the pass ends in `countAll` of the cleared state. NSYM is the size of the alphabet there by R29, which
every command keeps, and the order does not matter because any two counts commute. -/
theorem countPassCountsTheBytes : Obligations.CountPassCountsTheBytes := by
  intro s bytes hlen
  have hrun := execAll_clr_cnts s hlen
  have hcount := toNat_freqAt_clear_countAll s hlen
  have hroom : s.clear.total.toNat + bytes.length ≤ 2 ^ 32 - 1 := (Nat.zero_add _).trans_le hlen
  have hfreq : FreqInv (s.clear.countAll bytes) :=
    execAll_keeps (fun _ _ _ => exec_keeps_freqInv) (FreqInv.clear s) (execAll_cnts rfl rfl hroom)
  refine ⟨_, hrun, by simp, by simp, hcount, ?_, ?_, fun bytes' hperm => ?_⟩
  · exact (State.toNat_total_countAll hroom).trans (Nat.zero_add _)
  · rw [hfreq.nsym_eq, length_symbols_of_count hcount]
  · rw [execAll_clr_cnts s (hperm.length_eq.trans_le hlen), State.countAll_perm hperm (s := s.clear) Memory.wf_reset]

end Sys2Proof.Machine
end

section
/-! BLD (spec/42_tree_builder.md): its registers, flags and decoder start (R101, R112), its leaves (R102), the two
degenerate alphabets (R103, R104) and the merge loop (R105 to R108). -/

namespace Sys2Proof.Machine

variable {s t : State}

/-! ### When BLD runs -/

theorem legal_bld (s : State) : legal .bld s = decide (s.phase = .count) := by
  simp [legal, phaseAdmits, ddoneAdmits]

theorem exec_bld_out_of_phase (he : s.err = .none) (hp : s.phase ≠ .count) :
    exec .bld s = .next (s.raise .sequence 0 0 (encode .bld)) :=
  gate_sequence _ _ _ he (by simp [legal_bld, hp])

theorem exec_bld (he : s.err = .none) (hp : s.phase = .count) (hf : FreqInv s) :
    exec .bld s = .next s.buildTree.startDecoder :=
  (gate_ready _ _ _ he (by simp [legal_bld, hp])).trans (if_pos hf.nsym_eq)

/-- Where BLD answers in COUNT it has built the tree; nothing but the model's own fault can come instead. -/
theorem eq_of_exec_bld (he : s.err = .none) (hp : s.phase = .count) (h : exec .bld s = .next t) :
    t = s.buildTree.startDecoder := by
  rcases execBld_cases h with (⟨hc, -⟩ | ⟨-, hl, -⟩) | ⟨-, -, -, rfl⟩
  · exact absurd he hc
  · simp [legal_bld, hp] at hl
  · rfl

/-! ### The registers and flags -/

theorem nsym_ne_of_two_le (h2 : 2 ≤ s.nsym.toNat) : s.nsym ≠ 0 ∧ s.nsym ≠ 1 := by
  constructor <;> intro hc <;> rw [hc] at h2 <;> exact absurd h2 (by decide)

/-- Settles O20: the gate decides whether BLD runs, and the three cases are those of `rootOf` and `internalCount`. -/
theorem bldBuildsTheTreeAndStartsTheDecoder : Obligations.BldBuildsTheTreeAndStartsTheDecoder := by
  refine ⟨by decide, fun s he => ⟨exec_bld_out_of_phase he, fun hp hf => ⟨_, exec_bld he hp hf, rfl, ?_, ?_, ?_⟩⟩⟩
  · intro h0
    simp [h0, rootOf, internalCount]
  · intro h1
    simp [h1, rootOf, internalCount]
  · intro h2
    obtain ⟨hn0, hn1⟩ := nsym_ne_of_two_le h2
    refine ⟨toNat_rootOf h2 hf.nsym_le, toNat_internalCount h2 hf.nsym_le, ?_, ?_⟩
    · exact (congrArg (s.empty || ·) (decide_eq_false hn0)).trans (Bool.or_false _)
    · exact (congrArg (s.single || ·) (decide_eq_false hn1)).trans (Bool.or_false _)

/-! ### The leaves (R102) -/

/-- A pass of the merge loop writes one entry, at the index of the new node. -/
theorem read_mergeStep_of_lt {nodes nodes' : List (Nat × Node)} {k j : Nat} {A A' : List Nat}
    (h : mergeStep nodes k A = some (nodes', A')) (hj : j < k) :
    Table.read Node.zero nodes' j = Table.read Node.zero nodes j := by
  unfold mergeStep at h
  split at h
  · cases h
  · split at h
    · cases h
    · cases h
      exact Table.read_write_other _ _ _ _ _ (Nat.ne_of_lt hj)

/-- The merge loop keeps the entries below the index of its first node. -/
theorem read_mergeLoop_of_lt (passes : Nat) {nodes : List (Nat × Node)} {k j : Nat} {A : List Nat} (hj : j < k) :
    Table.read Node.zero (mergeLoop passes nodes k A) j = Table.read Node.zero nodes j := by
  induction passes generalizing nodes k A with
  | zero => rfl
  | succ passes ih =>
    rw [mergeLoop]
    split
    · rfl
    · next nodes' A' hstep => exact (ih (Nat.lt_succ_of_lt hj)).trans (read_mergeStep_of_lt hstep hj)

/-- Below 256 BLD writes the leaves and nothing else, whatever the alphabet. -/
theorem read_buildNodes_of_lt (freq : List (Nat × Count)) {j : Nat} (hj : j < 256) :
    Table.read Node.zero (buildNodes freq) j = Table.read Node.zero (leaves freq) j := by
  unfold buildNodes
  split
  · rfl
  · exact Table.read_write_other _ _ _ _ _ (Nat.ne_of_lt hj)
  · exact read_mergeLoop_of_lt _ hj

/-- Settles O21: below 256 the table is that of the leaves, which `read_leaves` reads. -/
theorem bldMakesALeafForEverySymbol : Obligations.BldMakesALeafForEverySymbol := by
  intro s t he hp h k hk
  obtain rfl := eq_of_exec_bld he hp h
  have hread : s.buildTree.startDecoder.nodeAt k =
      if k < 256 ∧ s.freqAt k ≠ 0 then leafNode k (s.freqAt k) else Node.zero :=
    (read_buildNodes_of_lt s.freq hk).trans (read_leaves s.freq k)
  rw [hread]
  by_cases hfk : s.freqAt k = 0
  · rw [if_pos hfk, if_neg fun hc => hc.2 hfk, Node.zero]
  · rw [if_neg hfk, if_pos ⟨hk, hfk⟩, leafNode]

/-! ### The degenerate alphabets (R103, R104) -/

/-- An alphabet of one symbol, given by NSYM and the symbol. -/
theorem FreqInv.symbols_eq_singleton (hf : FreqInv s) (h1 : s.nsym = 1) {k : Nat} (hk : k < 256)
    (hfk : s.freqAt k ≠ 0) : symbols s.freq = [k] := by
  have hlen : (symbols s.freq).length = 1 := by rw [← hf.nsym_eq, h1]; rfl
  obtain ⟨a, ha⟩ := List.length_eq_one_iff.1 hlen
  have hmem : k ∈ symbols s.freq := (mem_symbols s.freq k).2 ⟨hk, hfk⟩
  rw [ha, List.mem_singleton] at hmem
  rw [ha, hmem]

/-- An empty alphabet has no node (R103). -/
theorem read_buildNodes_of_noSymbol {freq : List (Nat × Count)} (h0 : symbols freq = []) (j : Nat) :
    Table.read Node.zero (buildNodes freq) j = Node.zero := by
  rw [buildNodes, leaves, h0]
  rfl

/-- Settles O22: the empty table, and the table of the synthetic root as `read_buildNodes_of_oneSymbol` reads it. -/
theorem bldHandlesDegenerateAlphabets : Obligations.BldHandlesDegenerateAlphabets := by
  intro s he hp hf
  refine ⟨fun h0 => ⟨_, exec_bld he hp hf, rfl, he, ?_, ?_, ?_, fun j => ?_⟩,
    fun k hk hfk h1 => ⟨_, exec_bld he hp hf, rfl, he, ?_, ?_, ?_, ?_, ?_⟩⟩
  · simp [h0, rootOf]
  · simp [h0, internalCount]
  · simp [h0]
  · have hnone : symbols s.freq = [] := List.length_eq_zero_iff.1 (by rw [← hf.nsym_eq, h0]; rfl)
    exact congrArg Node.valid (read_buildNodes_of_noSymbol hnone j)
  · simp [h1, rootOf]
  · simp [h1, internalCount]
  · simp [h1]
  · exact root_of_oneSymbol (hf.symbols_eq_singleton h1 hk hfk)
  · exact valid_of_oneSymbol (hf.symbols_eq_singleton h1 hk hfk)

/-! ### The merge loop (R105 to R108) -/

/-- What BLD leaves over two or more symbols is a finished merge loop. -/
theorem FreqInv.buildNodes_loop (hf : FreqInv s) (h2 : 2 ≤ s.nsym.toNat) :
    LoopInv s.freq (buildNodes s.freq) (255 + s.nsym.toNat) [254 + s.nsym.toNat] := by
  rw [hf.nsym_eq] at h2 ⊢
  exact Machine.buildNodes_loop (hf.total_eq ▸ s.total.isLt) h2

/-- A child that is a node adds its own weight. -/
theorem childWeight_of_lt (nodes : List (Nat × Node)) {i : Idx} (h : i.toNat < 511) :
    childWeight nodes i = (weightAt nodes i.toNat).toNat :=
  if_neg fun hc => by rw [hc] at h; exact absurd h (by decide)

/-- A node of the merge loop over the two first of its active set, the first one left, with the exact sum (R107, R108). -/
theorem LoopInv.merges_two_first {freq : List (Nat × Count)} {nodes : List (Nat × Node)} {k : Nat} {A : List Nat}
    (h : LoopInv freq nodes k A) {j : Nat} (hj : 256 ≤ j) (hjk : j < k) (hk : k ≤ 511) :
    let x := (Table.read Node.zero nodes j).left.toNat
    let y := (Table.read Node.zero nodes j).right.toNat
    isFirst nodes (activeAt nodes j) x ∧ isFirst nodes (fun i => activeAt nodes j i ∧ i ≠ x) y ∧
      (weightAt nodes j).toNat = (weightAt nodes x).toNat + (weightAt nodes y).toNat := by
  obtain ⟨x, y, -, hm, hx, hy⟩ := h.merged j hj hjk
  have hxj : x < j := hx.1.1
  have hyj : y < j := hy.1.1.1
  have hleft : (Table.read Node.zero nodes j).left.toNat = x := by rw [hm]; exact toNat_ofNat_idx (by omega)
  have hright : (Table.read Node.zero nodes j).right.toNat = y := by rw [hm]; exact toNat_ofNat_idx (by omega)
  have hexact := h.exact j hj hjk
  rw [childWeight_of_lt nodes (by omega), childWeight_of_lt nodes (by omega), hleft, hright] at hexact
  simp only [hleft, hright]
  exact ⟨hx, hy, hexact⟩

/-- Settles O23, from the invariant of the finished merge loop. -/
theorem bldMergesTheTwoLightestNodes : Obligations.BldMergesTheTwoLightestNodes := by
  intro s t hf he hp h2 h
  obtain rfl := eq_of_exec_bld he hp h
  have hloop := hf.buildNodes_loop h2
  have hle := hf.nsym_le
  have hr : s.buildTree.startDecoder.root.toNat = 254 + s.nsym.toNat := toNat_rootOf h2 hle
  refine ⟨fun k hk hk' => ?_, fun k => ?_, hr, fun i => ?_⟩
  · have hlt : k < 255 + s.nsym.toNat := by omega
    obtain ⟨hx, hy, hw⟩ := hloop.merges_two_first hk hlt (by omega)
    obtain ⟨hvalid, hleaf⟩ := (hloop.isInternal_iff k).2 ⟨hk, hlt⟩
    exact ⟨hx, hy, hvalid, hleaf, (hloop.children hk hlt (by omega)).1, hw⟩
  · refine (hloop.valid k).trans ?_
    rw [show k < 255 + s.nsym.toNat ↔ k ≤ 254 + s.nsym.toNat by omega]
    rfl
  · rw [hr, ← List.mem_singleton]
    exact (hloop.active i).symm

end Sys2Proof.Machine
end

section
/-! Determinism (spec/42_tree_builder.md R111): what BLD, GEN and ENC make of a session is a function of FREQ. -/

namespace Sys2Proof.Machine

variable {s s' t t' : State}

/-! ### What BLD and GEN read -/

/-- The tree is a function of what FREQ reads, for any two forms of the table. -/
theorem buildNodes_congr {freq freq' : List (Nat × Count)}
    (h : ∀ k, k < 256 → Table.read 0#32 freq k = Table.read 0#32 freq' k) : buildNodes freq = buildNodes freq' := by
  have hleaves : leaves freq = leaves freq' := by
    rw [leaves, leaves, ← symbols_congr h]
    refine List.foldl_ext _ _ _ fun nodes k hk => ?_
    rw [h k ((mem_symbols freq k).1 hk).1]
  have hroot : ∀ k ∈ symbols freq, syntheticRoot freq k = syntheticRoot freq' k := fun k hk => by
    rw [syntheticRoot, syntheticRoot, hleaves, h k ((mem_symbols freq k).1 hk).1]
  rw [buildNodes, buildNodes, ← symbols_congr h, hleaves]
  cases hs : symbols freq with
  | nil => rfl
  | cons k l =>
    cases l with
    | nil => exact hroot k (by rw [hs]; exact List.mem_singleton_self k)
    | cons => rfl

/-- GEN reads the tree alone (R121). -/
theorem deriveCodes_congr (hnode : s.node = s'.node) (hroot : s.root = s'.root) : deriveCodes s = deriveCodes s' := by
  rw [deriveCodes, deriveCodes, hnode, hroot]

theorem legal_gen (s : State) : legal .gen s = decide (s.phase = .built) := by
  simp [legal, phaseAdmits, ddoneAdmits]

/-- Where GEN answers in BUILT it has derived the codes of the tree. -/
theorem eq_of_exec_gen (he : s.err = .none) (hp : s.phase = .built) (h : exec .gen s = .next t) :
    ∃ codes, deriveCodes s = some codes ∧ t = { s with code := codes, phase := .coded }.startEncoder := by
  rcases execGen_cases h with (⟨hc, -⟩ | ⟨-, hl, -⟩) | ⟨-, -, hcodes⟩
  · exact absurd he hc
  · simp [legal_gen, hp] at hl
  · exact hcodes

/-! ### What ENC does, by cases (R137, R138) -/

section

variable (sym : Sym)

theorem legal_enc (s : State) : legal (.enc sym) s = decide (s.phase = .coded) := by
  simp [legal, phaseAdmits, ddoneAdmits]

theorem exec_enc_refused (he : s.err ≠ .none) : exec (.enc sym) s = .next s := gate_refused _ _ _ he

theorem exec_enc_out_of_phase (he : s.err = .none) (hp : s.phase ≠ .coded) :
    exec (.enc sym) s = .next (s.raise .sequence 0 0 (encode (.enc sym))) :=
  gate_sequence _ _ _ he (by simp [legal_enc, hp])

theorem exec_enc_missing (he : s.err = .none) (hp : s.phase = .coded) (hv : (s.codeAt sym.toNat).valid = false) :
    exec (.enc sym) s = .next (s.raise .missingCode sym s.epos (encode (.enc sym))) :=
  (gate_ready _ _ _ he (by simp [legal_enc, hp])).trans (if_neg (by simp [hv]))

theorem exec_enc (he : s.err = .none) (hp : s.phase = .coded) (hv : (s.codeAt sym.toNat).valid = true) :
    exec (.enc sym) s = .next { s with
      eout := s.eout ++ s.codeOf sym.toNat
      ports := s.ports ++ (s.codeOf sym.toNat).map .enc
      epos := sat64 (s.epos.toNat + 1) } := by
  refine (gate_ready _ _ _ he (by simp [legal_enc, hp])).trans ((if_pos hv).trans ?_)
  rw [State.emitEncs_eq]
  rfl

end

/-! ### Sessions with equal FREQ -/

/-- Two sessions with the same tree, codes and encoded stream that the next command will treat alike. -/
structure SameStream (s s' : State) : Prop where
  err : s.err = s'.err
  phase : s.phase = s'.phase
  node : s.node = s'.node
  root : s.root = s'.root
  nint : s.nint = s'.nint
  code : s.code = s'.code
  eout : s.eout = s'.eout

/-- ENC reads and extends only what the two sessions share. -/
theorem SameStream.enc (hs : SameStream s s') (sym : Sym) (h : exec (.enc sym) s = .next t)
    (h' : exec (.enc sym) s' = .next t') : SameStream t t' := by
  have hcode : ∀ k, s.codeAt k = s'.codeAt k := fun k => by rw [State.codeAt, State.codeAt, hs.code]
  by_cases he : s.err = .none
  · have he' : s'.err = .none := hs.err ▸ he
    by_cases hp : s.phase = .coded
    · have hp' : s'.phase = .coded := hs.phase ▸ hp
      cases hv : (s.codeAt sym.toNat).valid with
      | false =>
        have hv' : (s'.codeAt sym.toNat).valid = false := hcode _ ▸ hv
        cases (exec_enc_missing sym he hp hv).symm.trans h
        cases (exec_enc_missing sym he' hp' hv').symm.trans h'
        exact { hs with err := rfl }
      | true =>
        have hv' : (s'.codeAt sym.toNat).valid = true := hcode _ ▸ hv
        have hbits : s.codeOf sym.toNat = s'.codeOf sym.toNat := congrArg Code.digits (hcode _)
        cases (exec_enc sym he hp hv).symm.trans h
        cases (exec_enc sym he' hp' hv').symm.trans h'
        exact { hs with eout := congrArg₂ (· ++ ·) hs.eout hbits }
    · cases (exec_enc_out_of_phase sym he hp).symm.trans h
      cases (exec_enc_out_of_phase sym he' (hs.phase ▸ hp)).symm.trans h'
      exact { hs with err := rfl }
  · cases (exec_enc_refused sym he).symm.trans h
    cases (exec_enc_refused sym (hs.err ▸ he)).symm.trans h'
    exact hs

theorem SameStream.encs (hs : SameStream s s') {bytes : List Sym} (h : execAll (bytes.map .enc) s = .next t)
    (h' : execAll (bytes.map .enc) s' = .next t') : SameStream t t' := by
  induction bytes generalizing s s' with
  | nil => cases h; cases h'; exact hs
  | cons b bytes ih =>
    obtain ⟨u, hu, h⟩ := execAll_cons_eq_next h
    obtain ⟨u', hu', h'⟩ := execAll_cons_eq_next h'
    exact ih (hs.enc b hu hu') h h'

/-- Settles O24: the trees agree by `buildNodes_congr` and R29, and from there every command treats the sessions alike. -/
theorem treeDependsOnlyOnFrequencies : Obligations.TreeDependsOnlyOnFrequencies := by
  intro s s' t t' bytes hf hf' hfreq he he' hp hp' h h'
  obtain ⟨u, hbld, h⟩ := execAll_cons_eq_next h
  obtain ⟨u', hbld', h'⟩ := execAll_cons_eq_next h'
  obtain rfl := eq_of_exec_bld he hp hbld
  obtain rfl := eq_of_exec_bld he' hp' hbld'
  obtain ⟨v, hgen, h⟩ := execAll_cons_eq_next h
  obtain ⟨v', hgen', h'⟩ := execAll_cons_eq_next h'
  obtain ⟨codes, hcodes, rfl⟩ := eq_of_exec_gen (s := s.buildTree.startDecoder) he rfl hgen
  obtain ⟨codes', hcodes', rfl⟩ := eq_of_exec_gen (s := s'.buildTree.startDecoder) he' rfl hgen'
  have hnsym : s.nsym = s'.nsym :=
    BitVec.eq_of_toNat_eq (by rw [hf.nsym_eq, hf'.nsym_eq, symbols_congr hfreq])
  have hnode : s.buildTree.startDecoder.node = s'.buildTree.startDecoder.node := buildNodes_congr hfreq
  have hroot : s.buildTree.startDecoder.root = s'.buildTree.startDecoder.root :=
    congrArg (fun n : BitVec 9 => rootOf n.toNat) hnsym
  have hnint : s.buildTree.startDecoder.nint = s'.buildTree.startDecoder.nint :=
    congrArg (fun n : BitVec 9 => internalCount n.toNat) hnsym
  have hcode : codes = codes' := Option.some.inj (hcodes.symm.trans ((deriveCodes_congr hnode hroot).trans hcodes'))
  have hstart : SameStream { s.buildTree.startDecoder with code := codes, phase := .coded }.startEncoder
      { s'.buildTree.startDecoder with code := codes', phase := .coded }.startEncoder :=
    { err := he.trans he'.symm, phase := rfl, node := hnode, root := hroot, nint := hnint, code := hcode, eout := rfl }
  have hend := hstart.encs h h'
  exact ⟨hend.node, hend.root, hend.nint, hend.code, hend.eout⟩

end Sys2Proof.Machine
end

section
/-! Depth in a tree that meets R30: a node is reached by one path only, and the weighted path length of the leaves is the
sum of the weights of the internal nodes (spec/42_tree_builder.md R110). -/

namespace Sys2Proof.Machine

variable {s : State}

/-! ### One path to each node -/

/-- The last step of a path is taken at a valid internal node. -/
theorem follow_snoc {nodes : List (Nat × Node)} {i j : Idx} {p : List Digit} {b : Digit} :
    follow nodes i (p ++ [b]) = some j ↔
      ∃ q, follow nodes i p = some q ∧ q ≠ Config.nil ∧ isInternal nodes q.toNat ∧
        (Table.read Node.zero nodes q.toNat).child b = j := by
  rw [follow_append, Option.bind_eq_some_iff]
  refine exists_congr fun q => and_congr_right fun _ => ?_
  simp only [follow]
  split
  · next hq => exact ⟨fun hj => ⟨hq.1, hq.2, Option.some.inj hj⟩, fun hj => congrArg some hj.2.2⟩
  · next hq => exact ⟨nofun, fun ⟨hn, hint, _⟩ => absurd ⟨hn, hint⟩ hq⟩

theorem isChild_child {nodes : List (Nat × Node)} {p : Nat} (hp : isInternal nodes p) (b : Digit) :
    isChild nodes p ((Table.read Node.zero nodes p).child b).toNat := by
  cases b
  · exact ⟨hp, .inl rfl⟩
  · exact ⟨hp, .inr rfl⟩

theorem Node.child_injective {n : Node} (h : n.left ≠ n.right) : Function.Injective n.child := by
  intro a b hab
  cases a <;> cases b
  · rfl
  · exact absurd hab h
  · exact absurd hab.symm h
  · rfl

theorem root_ne_nil_of_valid (hf : FreqInv s) (h : TreeInv s) {j : Nat} (hv : (s.nodeAt j).valid = true) :
    s.root ≠ Config.nil := by
  rcases treeInv_root hf h with ⟨-, hnone⟩ | ⟨hr, -, -⟩
  · obtain ⟨-, -, -, -, hinvalid⟩ := h.noSymbol (by rw [hf.nsym_eq, hnone]; rfl)
    rw [hinvalid j] at hv
    cases hv
  · exact hr

/-- The two children of an internal node differ; the synthetic root's are the leaf and NIL (R104). -/
theorem treeInv_left_ne_right (hf : FreqInv s) (h : TreeInv s) {j : Nat} (hj : isInternal s.node j) :
    (s.nodeAt j).left ≠ (s.nodeAt j).right := by
  obtain ⟨hj256, -, hleft⟩ := treeInv_child hf h j hj false
  obtain ⟨hleft, -⟩ := hleft.resolve_left fun ⟨_, _, hc⟩ => nomatch hc
  rcases hn : symbols s.freq with - | ⟨k, - | ⟨l, rest⟩⟩
  · obtain ⟨-, -, hne⟩ := (treeInv_root hf h).resolve_left fun ⟨hc, _⟩ => root_ne_nil_of_valid hf h hj.1 hc
    exact absurd hn hne
  · obtain ⟨-, -, -, -, hroot, hvalid⟩ := h.oneSymbol k hn
    have hk : k < 256 := ((mem_alphabet_of_oneSymbol hn k).2 rfl).1
    obtain rfl : j = 256 := ((hvalid j).1 hj.1).resolve_left (by omega)
    rw [hroot] at hleft ⊢
    exact hleft
  · obtain ⟨-, -, -, -, hvalid, hkids⟩ := h.manySymbols (by rw [hf.nsym_eq, hn]; simp)
    obtain ⟨-, hj'⟩ := ((hvalid j).1 hj.1).resolve_left fun ⟨hc, _⟩ => by omega
    obtain ⟨-, -, hne, -⟩ := hkids j hj256 hj'
    exact hne

/-- No step leads back to the root. -/
theorem ne_root_of_follow_snoc (h : TreeInv s) (hr : s.root ≠ Config.nil) {p : List Digit} {b : Digit} {j : Idx}
    (hp : follow s.node s.root (p ++ [b]) = some j) : j ≠ s.root := by
  rintro rfl
  obtain ⟨i, -, -, hint, hc⟩ := follow_snoc.1 hp
  exact h.rootNoChild hr _ (hc ▸ isChild_child hint b)

/-- A node is reached from the root by one path only: its parent is unique (R30), and so is the digit that leads from the
parent to it. -/
theorem follow_unique (hf : FreqInv s) (h : TreeInv s) {p q : List Digit} {j : Idx}
    (hv : (s.nodeAt j.toNat).valid = true) (hp : follow s.node s.root p = some j)
    (hq : follow s.node s.root q = some j) : p = q := by
  have hroot := root_ne_nil_of_valid hf h hv
  induction p using List.reverseRecOn generalizing q j with
  | nil =>
    rcases List.eq_nil_or_concat q with rfl | ⟨q, b, rfl⟩
    · rfl
    · rw [List.concat_eq_append] at hq
      exact absurd (Option.some.inj hp).symm (ne_root_of_follow_snoc h hroot hq)
  | append_singleton p a ih =>
    rcases List.eq_nil_or_concat q with rfl | ⟨q, b, rfl⟩
    · exact absurd (Option.some.inj hq).symm (ne_root_of_follow_snoc h hroot hp)
    · rw [List.concat_eq_append] at hq ⊢
      obtain ⟨i, hi, -, hint, hc⟩ := follow_snoc.1 hp
      obtain ⟨i', hi', -, hint', hc'⟩ := follow_snoc.1 hq
      have hne : j.toNat ≠ s.root.toNat := fun he => ne_root_of_follow_snoc h hroot hp (BitVec.eq_of_toNat_eq he)
      obtain rfl : i = i' := BitVec.eq_of_toNat_eq ((h.oneParent j.toNat hv hne).unique
        (hc ▸ isChild_child hint a) (hc' ▸ isChild_child hint' b))
      obtain rfl : a = b := Node.child_injective (treeInv_left_ne_right hf h hint) (hc.trans hc'.symm)
      exact congrArg (· ++ [a]) (ih hint.1 hi hi')

/-! ### Depth -/

/-- How far the node of index `j` is below the root: the length of a path to it. -/
noncomputable def State.depth (s : State) (j : Nat) : Nat :=
  sInf {n | ∃ p, follow s.node s.root p = some (BitVec.ofNat 9 j) ∧ p.length = n}

theorem depth_eq_length (hf : FreqInv s) (h : TreeInv s) {j : Idx} {p : List Digit}
    (hv : (s.nodeAt j.toNat).valid = true) (hp : follow s.node s.root p = some j) : s.depth j.toNat = p.length := by
  have hj : BitVec.ofNat 9 j.toNat = j := by rw [BitVec.ofNat_toNat, BitVec.setWidth_eq]
  have hset : {n | ∃ p, follow s.node s.root p = some (BitVec.ofNat 9 j.toNat) ∧ p.length = n} = {p.length} := by
    refine Set.ext fun n => ⟨?_, ?_⟩
    · rintro ⟨q, hq, rfl⟩
      rw [follow_unique hf h hv hp (hj ▸ hq)]
      rfl
    · rintro rfl
      exact ⟨p, hj.symm ▸ hp, rfl⟩
  rw [State.depth, hset, csInf_singleton]

theorem depth_root (hf : FreqInv s) (h : TreeInv s) (hv : (s.nodeAt s.root.toNat).valid = true) :
    s.depth s.root.toNat = 0 :=
  depth_eq_length hf h (p := []) hv rfl

/-- A child is one further from the root than its parent. -/
theorem depth_child (hf : FreqInv s) (h : TreeInv s) {j : Nat} (hj : isInternal s.node j) (b : Digit)
    (hv : (s.nodeAt ((s.nodeAt j).child b).toNat).valid = true) :
    s.depth ((s.nodeAt j).child b).toNat = s.depth j + 1 := by
  have hj511 : j < 511 := Nat.lt_succ_of_le (treeInv_child hf h j hj b).2.1
  obtain ⟨p, hp⟩ := reach hf h 511 j (by omega) hj.1 hj511 (root_ne_nil_of_valid hf h hj.1)
  have hidx : (BitVec.ofNat 9 j).toNat = j := toNat_ofNat_idx (by omega)
  have hdepth := depth_eq_length hf h (by rw [hidx]; exact hj.1) hp
  rw [hidx] at hdepth
  rw [hdepth, depth_eq_length hf h (p := p ++ [b]) hv, List.length_append, List.length_singleton]
  exact follow_snoc.2 ⟨_, hp, ofNat_idx_ne_nil hj511, by rwa [hidx], by rw [hidx]; rfl⟩

/-! ### Sums over the nodes of a tree with two or more symbols -/

/-- The indices of the internal nodes over `n` symbols, `NODE[256]` to `NODE[254 + n]` (R105). -/
def internalIndices (n : Nat) : Finset Nat := Finset.Ico 256 (255 + n)

/-- The indices of the valid nodes: the alphabet and the internal nodes. -/
def nodeIndices (freq : List (Nat × Count)) : Finset Nat :=
  (symbols freq).toFinset ∪ internalIndices (symbols freq).length

theorem disjoint_symbols_internalIndices (freq : List (Nat × Count)) :
    Disjoint (symbols freq).toFinset (internalIndices (symbols freq).length) :=
  Finset.disjoint_left.2 fun k hk hk' => by
    have hk256 := ((mem_symbols _ _).1 (List.mem_toFinset.1 hk)).1
    have hk'256 := (Finset.mem_Ico.1 hk').1
    omega

section

variable (hf : FreqInv s) (h : TreeInv s) (h2 : 2 ≤ s.nsym.toNat)
include hf h h2

theorem isInternal_iff_mem (j : Nat) : isInternal s.node j ↔ j ∈ internalIndices s.nsym.toNat := by
  obtain ⟨-, -, -, -, hvalid, -⟩ := h.manySymbols h2
  rw [internalIndices, Finset.mem_Ico]
  constructor
  · intro hj
    have hj256 := (treeInv_child hf h j hj true).1
    have := ((hvalid j).1 hj.1).resolve_left fun hc => by omega
    omega
  · intro hj
    have hv : (s.nodeAt j).valid = true := (hvalid j).2 (.inr ⟨hj.1, by omega⟩)
    exact ⟨hv, (h.internal j hj.1 hv).1⟩

theorem valid_iff_mem (j : Nat) : (s.nodeAt j).valid = true ↔ j ∈ nodeIndices s.freq := by
  obtain ⟨-, -, -, -, hvalid, -⟩ := h.manySymbols h2
  rw [hvalid, nodeIndices, internalIndices, Finset.mem_union, List.mem_toFinset, mem_symbols, Finset.mem_Ico,
    ← hf.nsym_eq, show j ≤ 254 + s.nsym.toNat ↔ j < 255 + s.nsym.toNat by omega]
  rfl

theorem mem_children_iff {p : Nat} (hp : p ∈ internalIndices s.nsym.toNat) (j : Nat) :
    j ∈ ({(s.nodeAt p).left.toNat, (s.nodeAt p).right.toNat} : Finset Nat) ↔ isChild s.node p j := by
  rw [Finset.mem_insert, Finset.mem_singleton, isChild, and_iff_right ((isInternal_iff_mem hf h h2 p).2 hp),
    eq_comm, eq_comm (b := BitVec.toNat (s.nodeAt p).right)]
  rfl

/-- The children of the internal nodes are the valid nodes but the root. -/
theorem exists_parent_iff (j : Nat) :
    (∃ p, isChild s.node p j) ↔ j ≠ s.root.toNat ∧ (s.nodeAt j).valid = true := by
  obtain ⟨-, -, -, -, hvalid, hkids⟩ := h.manySymbols h2
  constructor
  · rintro ⟨p, hp⟩
    have hmem := (isInternal_iff_mem hf h h2 p).1 hp.1
    rw [internalIndices, Finset.mem_Ico] at hmem
    obtain ⟨-, -, -, hleft, hright⟩ := hkids p hmem.1 (by omega)
    refine ⟨fun hc => ?_, ?_⟩
    · exact h.rootNoChild (root_ne_nil_of_valid hf h hp.1.1) p (hc ▸ hp)
    · rcases hp.2 with rfl | rfl
      · exact hleft
      · exact hright
  · rintro ⟨hr, hv⟩
    exact (h.oneParent j hv hr).exists

/-- Every node but the root is a child of one internal node: a sum over the children is one over the nodes. -/
theorem sum_children (g : Nat → Nat) :
    ∑ p ∈ internalIndices s.nsym.toNat, (g (s.nodeAt p).left.toNat + g (s.nodeAt p).right.toNat) =
      ∑ j ∈ (nodeIndices s.freq).erase s.root.toNat, g j := by
  have hne : ∀ p ∈ internalIndices s.nsym.toNat, (s.nodeAt p).left.toNat ≠ (s.nodeAt p).right.toNat := fun p hp hc =>
    treeInv_left_ne_right hf h ((isInternal_iff_mem hf h h2 p).2 hp) (BitVec.eq_of_toNat_eq hc)
  have hchild := @mem_children_iff s hf h h2
  calc ∑ p ∈ internalIndices s.nsym.toNat, (g (s.nodeAt p).left.toNat + g (s.nodeAt p).right.toNat)
      = ∑ p ∈ internalIndices s.nsym.toNat, ∑ j ∈ {(s.nodeAt p).left.toNat, (s.nodeAt p).right.toNat}, g j :=
        Finset.sum_congr rfl fun p hp => (Finset.sum_pair (hne p hp)).symm
    _ = ∑ j ∈ (internalIndices s.nsym.toNat).biUnion
          fun p => {(s.nodeAt p).left.toNat, (s.nodeAt p).right.toNat}, g j := by
        refine (Finset.sum_biUnion fun p hp q hq hpq => Finset.disjoint_left.2 fun j hj hj' => hpq ?_).symm
        have hpj := (hchild hp j).1 hj
        obtain ⟨hr, hv⟩ := (exists_parent_iff hf h h2 j).1 ⟨p, hpj⟩
        exact (h.oneParent j hv hr).unique hpj ((hchild hq j).1 hj')
    _ = ∑ j ∈ (nodeIndices s.freq).erase s.root.toNat, g j := by
        refine Finset.sum_congr (Finset.ext fun j => ?_) fun _ _ => rfl
        rw [Finset.mem_biUnion, Finset.mem_erase, ← valid_iff_mem hf h h2, ← exists_parent_iff hf h h2]
        refine exists_congr fun p => ⟨fun ⟨hp, hj⟩ => (hchild hp j).1 hj, fun hj => ?_⟩
        have hp := (isInternal_iff_mem hf h h2 p).1 hj.1
        exact ⟨hp, (hchild hp j).2 hj⟩

/-- The children of an internal node share its weight, one further from the root (R108). -/
theorem weight_mul_succ_depth {p : Nat} (hp : p ∈ internalIndices s.nsym.toNat) :
    (weightAt s.node p).toNat * (s.depth p + 1) =
      (weightAt s.node (s.nodeAt p).left.toNat).toNat * s.depth (s.nodeAt p).left.toNat +
        (weightAt s.node (s.nodeAt p).right.toNat).toNat * s.depth (s.nodeAt p).right.toNat := by
  obtain ⟨-, -, -, -, -, hkids⟩ := h.manySymbols h2
  have hle := hf.nsym_le
  have hint := (isInternal_iff_mem hf h h2 p).2 hp
  rw [internalIndices, Finset.mem_Ico] at hp
  obtain ⟨hl, hr, -, hlv, hrv⟩ := hkids p hp.1 (by omega)
  obtain ⟨-, -, hw⟩ := h.internal p hp.1 hint.1
  have hdl : s.depth (s.nodeAt p).left.toNat = s.depth p + 1 := depth_child hf h hint false hlv
  have hdr : s.depth (s.nodeAt p).right.toNat = s.depth p + 1 := depth_child hf h hint true hrv
  rw [childWeight_of_lt _ (by omega), childWeight_of_lt _ (by omega)] at hw
  rw [hdl, hdr, ← add_mul]
  exact congrArg (· * (s.depth p + 1)) hw

/-- The weighted path length of the alphabet is the sum of the internal weights: weight times depth, summed over all
nodes but the root, counts every internal weight once more than summed over the internal nodes. -/
theorem sum_weight_mul_depth :
    ∑ k ∈ (symbols s.freq).toFinset, (weightAt s.node k).toNat * s.depth k =
      ∑ j ∈ internalIndices s.nsym.toNat, (weightAt s.node j).toNat := by
  obtain ⟨-, hroot, -⟩ := (treeInv_root hf h).resolve_left fun ⟨_, hc⟩ => by
    rw [hf.nsym_eq, hc] at h2
    exact absurd h2 (by decide)
  have htotal : ∑ p ∈ internalIndices s.nsym.toNat, (weightAt s.node p).toNat * (s.depth p + 1) =
      ∑ k ∈ (symbols s.freq).toFinset, (weightAt s.node k).toNat * s.depth k +
        ∑ p ∈ internalIndices s.nsym.toNat, (weightAt s.node p).toNat * s.depth p := by
    rw [Finset.sum_congr rfl fun p hp => weight_mul_succ_depth hf h h2 hp,
      sum_children hf h h2 fun j => (weightAt s.node j).toNat * s.depth j,
      Finset.sum_erase _ (by rw [depth_root hf h hroot.1, Nat.mul_zero]), nodeIndices,
      Finset.sum_union (disjoint_symbols_internalIndices _), ← hf.nsym_eq]
  simp only [Nat.mul_succ, Finset.sum_add_distrib] at htotal
  omega

end

/-! ### The weighted length of the codes -/

/-- The weighted length is a sum over the alphabet (R110). -/
theorem weightedLength_eq_sum (freq : List (Nat × Count)) (length : Nat → Nat) :
    weightedLength freq length =
      ∑ k ∈ (symbols freq).toFinset, (Table.read 0#32 freq k).toNat * length k := by
  rw [List.sum_toFinset _ (symbols_nodup freq)]
  exact sum_range_eq_sum_symbols freq _ fun k hk => by rw [hk]; exact Nat.zero_mul _

/-- Where the codes are the paths to the leaves, the length of a symbol's code is the depth of its leaf (R31). -/
theorem CodeInv.len_eq_depth (hf : FreqInv s) (h : TreeInv s) (hc : CodeInv s) {k : Nat} (hk : k < 256)
    (hfk : s.freqAt k ≠ 0) : (s.codeAt k).len.toNat = s.depth k := by
  have hidx : (BitVec.ofNat 9 k).toNat = k := toNat_ofNat_idx (by omega)
  have hpath := hc.path k ((hc.valid_iff k).2 ⟨hk, hfk⟩)
  have hdepth := depth_eq_length hf h (by rw [hidx, h.leaf k hk hfk]; rfl) hpath
  rw [hidx, State.codeOf, length_digits] at hdepth
  exact hdepth.symm

theorem weightedLength_eq_internalWeight (hf : FreqInv s) (h : TreeInv s) (hc : CodeInv s) (h2 : 2 ≤ s.nsym.toNat) :
    weightedLength s.freq (fun k => (s.codeAt k).len.toNat) =
      ∑ j ∈ internalIndices s.nsym.toNat, (weightAt s.node j).toNat := by
  rw [weightedLength_eq_sum, ← sum_weight_mul_depth hf h h2]
  refine Finset.sum_congr rfl fun k hk => ?_
  obtain ⟨hk, hfk⟩ := (mem_symbols _ _).1 (List.mem_toFinset.1 hk)
  have hw : weightAt s.node k = s.freqAt k := congrArg Node.weight (h.leaf k hk hfk)
  rw [hc.len_eq_depth hf h hk hfk, hw]
  rfl

/-- The internal weights, listed by NINT. -/
theorem sum_internalWeight (h : TreeInv s) (h2 : 2 ≤ s.nsym.toNat) :
    ∑ j ∈ internalIndices s.nsym.toNat, (weightAt s.node j).toNat =
      ((List.range s.nint.toNat).map (fun j => (s.nodeAt (256 + j)).weight.toNat)).sum := by
  obtain ⟨-, hnint, -⟩ := h.manySymbols h2
  rw [internalIndices, Finset.sum_Ico_eq_sum_range, show 255 + s.nsym.toNat - 256 = s.nint.toNat by omega]
  rfl

/-- Settles O30: both sides are the sum of the internal weights, the left one by `sum_weight_mul_depth`. -/
theorem weightedLengthIsTheInternalWeight : Obligations.WeightedLengthIsTheInternalWeight := by
  intro s hs hp h2
  have ht := hs.tree (by simp [hp])
  rw [weightedLength_eq_internalWeight hs.freq ht (hs.codes hp) h2, sum_internalWeight ht h2]

end Sys2Proof.Machine
end

section
/-! The lengths of the codes that spec/42_tree_builder.md R110 compares: Kraft's inequality, and the two steps of the
optimality proof, that the two lightest symbols may share the greatest length, and that they may be merged. -/

namespace Sys2Proof.Machine

open InformationTheory

/-! ### Kraft's inequality -/

/-- `Σ 2^(−length)` over a set of symbols (R127). -/
noncomputable def kraftSum (A : Finset Nat) (length : Nat → Nat) : ℝ := ∑ i ∈ A, (1 / 2 : ℝ) ^ length i

/-- The weighted length of a set of symbols (R110). -/
def codeCost (A : Finset Nat) (weight length : Nat → Nat) : Nat := ∑ i ∈ A, weight i * length i

theorem kraftSum_erase_add {A : Finset Nat} {x : Nat} (hx : x ∈ A) (length : Nat → Nat) :
    kraftSum (A.erase x) length + (1 / 2) ^ length x = kraftSum A length :=
  Finset.sum_erase_add A _ hx

theorem kraftSum_congr {A : Finset Nat} {length length' : Nat → Nat} (h : ∀ i ∈ A, length i = length' i) :
    kraftSum A length = kraftSum A length' :=
  Finset.sum_congr rfl fun i hi => by rw [h i hi]

theorem kraftSum_pos {A : Finset Nat} {x : Nat} (hx : x ∈ A) (length : Nat → Nat) : 0 < kraftSum A length :=
  Finset.sum_pos (fun _ _ => by positivity) ⟨x, hx⟩

/-- Concatenations of code words read in one way only: the first word of two that agree begins the other, so they are the
same word. -/
theorem PrefixFreeCode.uniquelyDecodable {alphabet : List Nat} {code : Nat → List Digit}
    (h : PrefixFreeCode alphabet code) : UniquelyDecodable (code '' {a | a ∈ alphabet}) := by
  obtain ⟨hne, hpre⟩ := h
  intro L
  induction L with
  | nil =>
    rintro (- | ⟨w, M⟩) - hM hflat
    · rfl
    · obtain ⟨⟨a, ha, rfl⟩, -⟩ := List.forall_mem_cons.1 hM
      exact absurd (List.append_eq_nil_iff.1 hflat.symm).1 (hne a ha)
  | cons w L ih =>
    rintro (- | ⟨w', M⟩) hL hM hflat
    · obtain ⟨⟨a, ha, rfl⟩, -⟩ := List.forall_mem_cons.1 hL
      exact absurd (List.append_eq_nil_iff.1 hflat).1 (hne a ha)
    · obtain ⟨⟨a, ha, rfl⟩, hL'⟩ := List.forall_mem_cons.1 hL
      obtain ⟨⟨b, hb, rfl⟩, hM'⟩ := List.forall_mem_cons.1 hM
      rw [List.flatten_cons, List.flatten_cons] at hflat
      have hab : a = b := by
        by_contra hab
        have hb' : code b <+: code a ++ L.flatten := hflat ▸ List.prefix_append _ _
        rcases List.prefix_or_prefix_of_prefix (List.prefix_append (code a) L.flatten) hb' with hc | hc
        · exact hpre a ha b hb hab hc
        · exact hpre b hb a ha (Ne.symm hab) hc
      subst hab
      rw [ih M hL' hM' (List.append_cancel_left hflat)]

/-- Kraft's inequality, by Mathlib's theorem of Kraft and McMillan. -/
theorem PrefixFreeCode.kraftSum_le_one {alphabet : List Nat} {code : Nat → List Digit}
    (h : PrefixFreeCode alphabet code) : kraftSum alphabet.toFinset (fun k => (code k).length) ≤ 1 := by
  have hinj : Set.InjOn code alphabet.toFinset := fun a ha b hb hab => by
    by_contra hne
    exact h.2 a (List.mem_toFinset.1 ha) b (List.mem_toFinset.1 hb) hne (hab ▸ List.prefix_rfl)
  have hkraft := kraft_mcmillan_inequality (S := alphabet.toFinset.image code) (by
    rw [Finset.coe_image, List.coe_toFinset]
    exact h.uniquelyDecodable)
  rwa [Finset.sum_image hinj, Fintype.card_bool] at hkraft

/-- What is left of 1 after a Kraft sum below 1 makes room for another word as long as the longest. -/
theorem kraftSum_add_le_one {A : Finset Nat} {length : Nat → Nat} {m : Nat} (hm : ∀ i ∈ A, length i ≤ m)
    (hlt : kraftSum A length < 1) : kraftSum A length + (1 / 2) ^ m ≤ 1 := by
  have hscaled : kraftSum A length * 2 ^ m = ((∑ i ∈ A, 2 ^ (m - length i) : Nat) : ℝ) := by
    rw [kraftSum, Finset.sum_mul, Nat.cast_sum]
    refine Finset.sum_congr rfl fun i hi => ?_
    rw [Nat.cast_pow, Nat.cast_ofNat, pow_sub₀ _ two_ne_zero (hm i hi), one_div, inv_pow, mul_comm]
  have hpos : (0 : ℝ) < 2 ^ m := by positivity
  have hnat : ∑ i ∈ A, 2 ^ (m - length i) < 2 ^ m := by
    have := mul_lt_mul_of_pos_right hlt hpos
    rw [hscaled, one_mul] at this
    exact_mod_cast this
  refine le_of_mul_le_mul_right ?_ hpos
  rw [add_mul, hscaled, one_mul, ← mul_pow, one_div, inv_mul_cancel₀ two_ne_zero, one_pow]
  exact_mod_cast hnat

/-! ### Lengths exchanged -/

/-- A sum over a set with two of its members set apart. -/
theorem sum_eq_add_add_sum_erase {M : Type} [AddCommMonoid M] {A : Finset Nat} {x y : Nat} (hx : x ∈ A)
    (hy : y ∈ A.erase x) (g : Nat → M) : ∑ i ∈ A, g i = g x + (g y + ∑ i ∈ (A.erase x).erase y, g i) := by
  rw [Finset.add_sum_erase _ _ hy, Finset.add_sum_erase _ _ hx]

/-- Two symbols exchange their lengths. -/
def swapLengths (length : Nat → Nat) (x a : Nat) : Nat → Nat := length ∘ Equiv.swap x a

section

variable {A : Finset Nat} {weight length : Nat → Nat} {x y a : Nat}

@[simp] theorem swapLengths_left : swapLengths length x a x = length a := congrArg length (Equiv.swap_apply_left x a)

theorem swapLengths_of_ne {i : Nat} (hx : i ≠ x) (ha : i ≠ a) : swapLengths length x a i = length i :=
  congrArg length (Equiv.swap_apply_of_ne_of_ne hx ha)

theorem swap_mem_iff (hx : x ∈ A) (ha : a ∈ A) (i : Nat) : Equiv.swap x a i ∈ A ↔ i ∈ A := by
  rw [Equiv.swap_apply_def]
  split
  · next h => simp [h, hx, ha]
  · split
    · next h => simp [h, hx, ha]
    · rfl

theorem kraftSum_swapLengths (hx : x ∈ A) (ha : a ∈ A) : kraftSum A (swapLengths length x a) = kraftSum A length :=
  Finset.sum_equiv (Equiv.swap x a) (fun i => (swap_mem_iff hx ha i).symm) fun _ _ => rfl

/-- Giving the greater length to the lighter of two costs no more. -/
theorem codeCost_swapLengths_le (hx : x ∈ A) (ha : a ∈ A) (hw : weight x ≤ weight a) (hl : length x ≤ length a) :
    codeCost A weight (swapLengths length x a) ≤ codeCost A weight length := by
  by_cases hxa : a = x
  · rw [hxa, swapLengths, Equiv.swap_self]
    exact Nat.le_refl _
  · have ha' : a ∈ A.erase x := Finset.mem_erase.2 ⟨hxa, ha⟩
    have hrest : ∀ i ∈ (A.erase x).erase a, weight i * swapLengths length x a i = weight i * length i := fun i hi => by
      obtain ⟨hia, hi⟩ := Finset.mem_erase.1 hi
      rw [swapLengths_of_ne (Finset.ne_of_mem_erase hi) hia]
    have hpair := mul_add_mul_le_mul_add_mul hw hl
    rw [codeCost, codeCost, sum_eq_add_add_sum_erase hx ha', sum_eq_add_add_sum_erase hx ha',
      Finset.sum_congr rfl hrest, swapLengths_left,
      show swapLengths length x a a = length x from congrArg length (Equiv.swap_apply_right x a)]
    omega

/-- An exchange that gives `x` the greatest length of the set. -/
theorem swapLengths_le_left (hx : x ∈ A) (ha : a ∈ A) (hmax : ∀ i ∈ A, length i ≤ length a) :
    ∀ i ∈ A, swapLengths length x a i ≤ swapLengths length x a x := fun i hi => by
  rw [swapLengths_left]
  exact hmax _ ((swap_mem_iff hx ha i).2 hi)

/-! ### The two lightest are the longest -/

variable (hx : x ∈ A) (hy : y ∈ A.erase x) (hwx : ∀ i ∈ A, weight x ≤ weight i)
  (hwy : ∀ i ∈ A.erase x, weight y ≤ weight i)
include hx hy hwx hwy

/-- Some lengths that cost no more give the lightest the greatest length, and the second the greatest of the rest. -/
theorem exists_longest_on_lightest (length : Nat → Nat) : ∃ length' : Nat → Nat,
    kraftSum A length' = kraftSum A length ∧ codeCost A weight length' ≤ codeCost A weight length ∧
      length' y ≤ length' x ∧ ∀ i ∈ A.erase x, length' i ≤ length' y := by
  obtain ⟨a, ha, hamax⟩ := A.exists_max_image length ⟨x, hx⟩
  have hfirst := swapLengths_le_left hx ha hamax
  obtain ⟨b, hb, hbmax⟩ := (A.erase x).exists_max_image (swapLengths length x a) ⟨y, hy⟩
  have hyA := Finset.mem_of_mem_erase hy
  have hbA := Finset.mem_of_mem_erase hb
  refine ⟨swapLengths (swapLengths length x a) y b, ?_, ?_, ?_, swapLengths_le_left hy hb hbmax⟩
  · rw [kraftSum_swapLengths hyA hbA, kraftSum_swapLengths hx ha]
  · exact (codeCost_swapLengths_le hyA hbA (hwy b hb) (hbmax y hy)).trans
      (codeCost_swapLengths_le hx ha (hwx a ha) (hamax x hx))
  · rw [swapLengths_left, swapLengths_of_ne (Finset.ne_of_mem_erase hy).symm (Finset.ne_of_mem_erase hb).symm]
    exact hfirst b hbA

/-- Some lengths that cost no more are equal, and not 0, on the two lightest: the lightest's length is cut down to the
second's, for which Kraft's inequality leaves room. -/
theorem exists_equal_on_lightest (hk : kraftSum A length ≤ 1) : ∃ (length' : Nat → Nat) (m : Nat),
    kraftSum A length' ≤ 1 ∧ codeCost A weight length' ≤ codeCost A weight length ∧
      length' x = m + 1 ∧ length' y = m + 1 := by
  obtain ⟨longest, hkraft, hcost, hle, hmax⟩ := exists_longest_on_lightest hx hy hwx hwy length
  let cut := Function.update longest x (longest y)
  have hcutx : cut x = longest y := Function.update_self ..
  have hcut : ∀ i ∈ A.erase x, cut i = longest i := fun i hi =>
    Function.update_of_ne (Finset.ne_of_mem_erase hi) ..
  have hsum : kraftSum A cut = kraftSum (A.erase x) longest + (1 / 2) ^ longest y := by
    rw [← kraftSum_erase_add hx, kraftSum_congr hcut, hcutx]
  have hroom : kraftSum (A.erase x) longest < 1 := by
    have hpos : (0 : ℝ) < (1 / 2) ^ longest x := by positivity
    have := kraftSum_erase_add hx longest
    linarith
  have hcut1 : kraftSum A cut ≤ 1 := hsum ▸ kraftSum_add_le_one hmax hroom
  have hcutCost : codeCost A weight cut ≤ codeCost A weight longest := by
    refine Finset.sum_le_sum fun i hi => Nat.mul_le_mul_left _ ?_
    by_cases hix : i = x
    · rw [hix, hcutx]
      exact hle
    · exact (hcut i (Finset.mem_erase.2 ⟨hix, hi⟩)).le
  cases hm : longest y with
  | zero =>
    rw [hsum, hm, pow_zero] at hcut1
    have := kraftSum_pos hy longest
    linarith
  | succ m => exact ⟨cut, m, hcut1, hcutCost.trans hcost, hcutx.trans hm, (hcut y hy).trans hm⟩

end

/-! ### The two lightest merged -/

/-- No lengths that meet Kraft's inequality have a weighted length below `cost`. -/
def CostAtLeast (A : Finset Nat) (weight : Nat → Nat) (cost : Nat) : Prop :=
  ∀ length : Nat → Nat, kraftSum A length ≤ 1 → cost ≤ codeCost A weight length

/-- One merge of the two lightest, `x` and `y`, into `z`: a bound for the set with `z` gives one for the set before it. -/
theorem CostAtLeast.merge {A : Finset Nat} {weight : Nat → Nat} {x y z cost : Nat} (hx : x ∈ A) (hy : y ∈ A.erase x)
    (hwx : ∀ i ∈ A, weight x ≤ weight i) (hwy : ∀ i ∈ A.erase x, weight y ≤ weight i) (hz : z ∉ A)
    (hw : weight z = weight x + weight y) (h : CostAtLeast (insert z ((A.erase x).erase y)) weight cost) :
    CostAtLeast A weight (cost + weight z) := by
  intro length hk
  obtain ⟨equal, m, hequal, hcost, hlx, hly⟩ := exists_equal_on_lightest hx hy hwx hwy hk
  let merged := Function.update equal z m
  have hzrest : z ∉ (A.erase x).erase y := fun hc => hz (Finset.mem_of_mem_erase (Finset.mem_of_mem_erase hc))
  have hmergedz : merged z = m := Function.update_self ..
  have hmerged : ∀ i ∈ (A.erase x).erase y, merged i = equal i := fun i hi =>
    Function.update_of_ne (ne_of_mem_of_not_mem hi hzrest) ..
  have hkraft : kraftSum (insert z ((A.erase x).erase y)) merged = kraftSum A equal := by
    rw [kraftSum, Finset.sum_insert hzrest, hmergedz, kraftSum, sum_eq_add_add_sum_erase hx hy, hlx, hly,
      Finset.sum_congr rfl fun i hi => by rw [hmerged i hi], pow_succ]
    ring
  have hmergedCost : codeCost (insert z ((A.erase x).erase y)) weight merged + weight z = codeCost A weight equal := by
    rw [codeCost, Finset.sum_insert hzrest, hmergedz, codeCost, sum_eq_add_add_sum_erase hx hy, hlx, hly,
      Finset.sum_congr rfl fun i hi => by rw [hmerged i hi], hw]
    ring
  have := h merged (hkraft.trans_le hequal)
  omega

end Sys2Proof.Machine
end

section
/-! BLD's code is optimal (spec/42_tree_builder.md R110): each pass of the merge loop merges the two lightest nodes of the
active set, so the internal weights from that pass on bound the cost of every code for that set. -/

namespace Sys2Proof.Machine

/-! ### The active set of a finished table -/

open Classical in
/-- The active set when the node of index `k` is made, as a finite set (R105). -/
noncomputable def activeSet (nodes : List (Nat × Node)) (k : Nat) : Finset Nat :=
  (Finset.range k).filter (activeAt nodes k)

open Classical in
theorem mem_activeSet {nodes : List (Nat × Node)} {k i : Nat} : i ∈ activeSet nodes k ↔ activeAt nodes k i := by
  rw [activeSet, Finset.mem_filter, Finset.mem_range]
  exact and_iff_right_of_imp fun h => h.1

/-- The element that `extract_min` takes is a lightest one. -/
theorem isFirst.weight_le {nodes : List (Nat × Node)} {A : Nat → Prop} {x i : Nat} (h : isFirst nodes A x) (hi : A i) :
    (weightAt nodes x).toNat ≤ (weightAt nodes i).toNat := by
  by_cases hix : i = x
  · rw [hix]
  · have := (lighter_iff nodes x i).1 (h.2 i hi hix)
    omega

section

variable {freq : List (Nat × Count)} {nodes : List (Nat × Node)} {k : Nat} {A : List Nat}
  (h : LoopInv freq nodes k A)
include h

/-- The loop starts with the alphabet. -/
theorem LoopInv.activeSet_start : activeSet nodes 256 = (symbols freq).toFinset := by
  ext i
  rw [mem_activeSet, List.mem_toFinset, mem_symbols, activeAt, h.valid]
  constructor
  · rintro ⟨hi, hv, -⟩
    exact hv.resolve_right fun hc => by omega
  · intro hi
    exact ⟨hi.1, .inl hi, fun p hp hp' => absurd hp (by show ¬ 256 ≤ p; omega)⟩

variable (hk : k ≤ 511)
include hk

/-- A pass takes the two children of the new node out of the active set and puts the new node in. -/
theorem LoopInv.activeSet_succ {j : Nat} (hj : 256 ≤ j) (hjk : j < k) :
    activeSet nodes (j + 1) = insert j (((activeSet nodes j).erase (Table.read Node.zero nodes j).left.toNat).erase
      (Table.read Node.zero nodes j).right.toNat) := by
  have hint := (h.isInternal_iff j).2 ⟨hj, hjk⟩
  ext i
  rw [Finset.mem_insert, Finset.mem_erase, Finset.mem_erase, mem_activeSet, mem_activeSet]
  constructor
  · rintro ⟨hi, hv, hp⟩
    have hchild := hp j hj (Nat.lt_succ_self j)
    rcases Nat.lt_succ_iff_lt_or_eq.1 hi with hij | rfl
    · exact .inr ⟨fun hc => hchild ⟨hint, .inr hc.symm⟩, fun hc => hchild ⟨hint, .inl hc.symm⟩, hij, hv,
        fun p hp256 hpj => hp p hp256 (Nat.lt_succ_of_lt hpj)⟩
    · exact .inl rfl
  · rintro (rfl | ⟨hright, hleft, hi, hv, hp⟩)
    · refine ⟨Nat.lt_succ_self i, hint.1, fun p _ hpi hc => ?_⟩
      obtain ⟨-, -, hip, -⟩ := h.activeAt_of_isChild hk hc
      omega
    · refine ⟨Nat.lt_succ_of_lt hi, hv, fun p hp256 hpj hc => ?_⟩
      rcases Nat.lt_succ_iff_lt_or_eq.1 hpj with hpj | rfl
      · exact hp p hp256 hpj hc
      · rcases hc.2 with hc | hc
        · exact hleft hc.symm
        · exact hright hc.symm

/-- The weights of the nodes made from index `j` on bound the cost of every code for the active set of that time. -/
theorem LoopInv.costAtLeast (passes : Nat) {j : Nat} (hj : 256 ≤ j) (hjk : j + passes = k) :
    CostAtLeast (activeSet nodes j) (fun i => (weightAt nodes i).toNat)
      (∑ i ∈ Finset.Ico j k, (weightAt nodes i).toNat) := by
  induction passes generalizing j with
  | zero =>
    intro length _
    rw [Finset.Ico_eq_empty (by omega), Finset.sum_empty]
    exact Nat.zero_le _
  | succ passes ih =>
    have hlt : j < k := by omega
    obtain ⟨hx, hy, hw⟩ := h.merges_two_first hj hlt hk
    have hrest := ih (j := j + 1) (by omega) (by omega)
    rw [h.activeSet_succ hk hj hlt] at hrest
    have hmem : ∀ i, i ∈ (activeSet nodes j).erase (Table.read Node.zero nodes j).left.toNat ↔
        activeAt nodes j i ∧ i ≠ (Table.read Node.zero nodes j).left.toNat := fun i => by
      rw [Finset.mem_erase, mem_activeSet, and_comm]
    rw [Finset.sum_eq_sum_Ico_succ_bot hlt, add_comm]
    exact hrest.merge (mem_activeSet.2 hx.1) ((hmem _).2 hy.1) (fun i hi => hx.weight_le (mem_activeSet.1 hi))
      (fun i hi => hy.weight_le ((hmem i).1 hi)) (fun hc => Nat.lt_irrefl j (mem_activeSet.1 hc).1) hw

end

/-! ### The weighted length of BLD's and GEN's codes -/

variable {s : State}

/-- The internal weights of BLD's tree bound the weighted length of every code that R110 admits. -/
theorem FreqInv.internalWeight_le (hf : FreqInv s) (h2 : 2 ≤ s.nsym.toNat) {code : Nat → List Digit}
    (hcode : PrefixFreeCode (symbols s.freq) code) :
    ∑ j ∈ internalIndices s.nsym.toNat, (weightAt (buildNodes s.freq) j).toNat ≤
      weightedLength s.freq (fun k => (code k).length) := by
  have hloop := hf.buildNodes_loop h2
  have hle := hf.nsym_le
  have hbound := hloop.costAtLeast (by omega) (s.nsym.toNat - 1) (Nat.le_refl 256) (by omega)
  rw [hloop.activeSet_start] at hbound
  refine (hbound _ hcode.kraftSum_le_one).trans_eq ?_
  rw [weightedLength_eq_sum, codeCost]
  refine Finset.sum_congr rfl fun k hk => ?_
  obtain ⟨hk, hfk⟩ := (mem_symbols _ _).1 (List.mem_toFinset.1 hk)
  rw [weightAt, hloop.leaf k hk hfk]
  rfl

theorem weightedLength_of_oneSymbol {freq : List (Nat × Count)} {k : Nat} (h1 : symbols freq = [k])
    (length : Nat → Nat) : weightedLength freq length = (Table.read 0#32 freq k).toNat * length k := by
  rw [weightedLength_eq_sum, h1]
  exact Finset.sum_singleton _ _

section

variable (hf : FreqInv s) (ht : TreeInv s) (hc : CodeInv s)
include hf ht hc

/-- The code of a one-symbol alphabet is one digit long (R104, R121). -/
theorem len_of_oneSymbol {k : Nat} (h1 : symbols s.freq = [k]) : (s.codeAt k).len.toNat = 1 := by
  obtain ⟨hk, hfk⟩ := (mem_alphabet_of_oneSymbol h1 k).2 rfl
  obtain ⟨hr, -, -, -, hroot, hvalid⟩ := ht.oneSymbol k h1
  have hr256 : s.root.toNat = 256 := by rw [hr]; rfl
  have hint : isInternal s.node 256 := ⟨(hvalid 256).2 (.inr rfl), by
    show (s.nodeAt 256).leaf = false
    rw [hroot]
    rfl⟩
  have hchild : ((s.nodeAt 256).child false).toNat = k := by
    rw [hroot]
    exact toNat_ofNat_idx (by omega)
  have hdepth := depth_child hf ht hint false (by rw [hchild]; exact (hvalid k).2 (.inl rfl))
  rw [hchild, ← hr256, depth_root hf ht (by rw [hr256]; exact hint.1)] at hdepth
  rw [hc.len_eq_depth hf ht hk hfk, hdepth]

theorem weightedLength_eq_freqAt_of_oneSymbol {k : Nat} (h1 : symbols s.freq = [k]) :
    weightedLength s.freq (fun k => (s.codeAt k).len.toNat) = (s.freqAt k).toNat := by
  rw [weightedLength_of_oneSymbol h1, len_of_oneSymbol hf ht hc h1, Nat.mul_one]
  rfl

/-- The codes that are the paths in BLD's tree are optimal. -/
theorem weightedLength_minimal (hnode : s.node = buildNodes s.freq) {code : Nat → List Digit}
    (hcode : PrefixFreeCode (symbols s.freq) code) :
    weightedLength s.freq (fun k => (s.codeAt k).len.toNat) ≤ weightedLength s.freq (fun k => (code k).length) := by
  rcases h : symbols s.freq with - | ⟨k, - | ⟨l, rest⟩⟩
  · rw [weightedLength_eq_sum, h]
    exact Nat.zero_le _
  · rw [weightedLength_of_oneSymbol h, weightedLength_of_oneSymbol h, len_of_oneSymbol hf ht hc h]
    exact Nat.mul_le_mul_left _ (List.length_pos_iff.2 (hcode.1 k (by rw [h]; exact List.mem_singleton_self k)))
  · have h2 : 2 ≤ s.nsym.toNat := by rw [hf.nsym_eq, h]; simp
    rw [weightedLength_eq_internalWeight hf ht hc h2, hnode]
    exact hf.internalWeight_le h2 hcode

end

/-- Settles O31. BLD and GEN read neither flag, so the tree and the codes are those of the same session with EMPTY and
SINGLE at 0, which meets the invariants R30 and R31. -/
theorem codeHasMinimalWeightedLength : Obligations.CodeHasMinimalWeightedLength := by
  intro s t hf he hp h
  obtain ⟨u, hbld, h⟩ := execAll_cons_eq_next h
  obtain rfl := eq_of_exec_bld he hp hbld
  obtain ⟨v, hgen, h⟩ := execAll_cons_eq_next h
  obtain ⟨codes, hcodes, rfl⟩ := eq_of_exec_gen (s := s.buildTree.startDecoder) he rfl hgen
  cases h
  let fresh : State := { s with empty := false, single := false }
  let coded : State := { fresh.buildTree.startDecoder with code := codes, phase := .coded }.startEncoder
  have hfreq : FreqInv coded := { hf with }
  have htree : TreeInv coded := { treeInv_buildTree (s := fresh) { hf with } rfl rfl with }
  have hcoded : CodeInv coded := codeInv_of_deriveCodes hfreq htree hcodes rfl
  exact ⟨fun code hcode => weightedLength_minimal hfreq htree hcoded rfl hcode,
    fun h2 => (weightedLength_eq_internalWeight hfreq htree hcoded h2).trans (sum_internalWeight htree h2),
    fun k h1 => weightedLength_eq_freqAt_of_oneSymbol hfreq htree hcoded h1⟩

end Sys2Proof.Machine
end

section
/-! GEN (spec/43_code_table_generator.md): a packed path read as a number (R123), the path that becomes each symbol's code
(R120, R121), and that no such path begins another (R124). -/

namespace Sys2Proof.Machine

variable {s : State}

/-! ### Packing a path (R123) -/

theorem toNat_len_codeOfPath {path : List Digit} (h : path.length ≤ 255) : (codeOfPath path).len.toNat = path.length :=
  toNat_ofNat_idx (by omega)

/-- The powers of two at a path's digits '1', counted from position `n`, are `2 ^ n` times the number of the path. -/
theorem sum_digits_zipIdx (path : List Digit) (n : Nat) :
    ((path.zipIdx n).map (fun d => if d.1 then 2 ^ d.2 else 0)).sum = 2 ^ n * (BitVec.ofBoolListLE path).toNat := by
  induction path generalizing n with
  | nil => rfl
  | cons b path ih =>
    have hcons : (BitVec.ofBoolListLE (b :: path)).toNat = (BitVec.ofBoolListLE path).toNat * 2 + b.toNat :=
      BitVec.toNat_concat _ _
    rw [List.zipIdx_cons, List.map_cons, List.sum_cons, ih, hcons, pow_succ]
    cases b
    · simp only [Bool.false_eq_true, if_false, Bool.toNat_false]
      ring
    · simp only [if_true, Bool.toNat_true]
      ring

theorem toNat_pack {path : List Digit} (h : path.length ≤ 256) :
    (pack path).toNat = (path.zipIdx.map (fun d => if d.1 then 2 ^ d.2 else 0)).sum := by
  rw [sum_digits_zipIdx, pow_zero, one_mul, pack, BitVec.toNat_setWidth_of_le h]

theorem getLsbD_pack_eq_getD {path : List Digit} (h : path.length ≤ 256) (i : Nat) :
    (pack path).getLsbD i = path.getD i false := by
  rcases Nat.lt_or_ge i path.length with hi | hi
  · exact getLsbD_pack path i (by omega)
  · rw [getLsbD_pack_of_length_le hi, List.getD_eq_default _ _ hi]

/-- Settles O27: LEN and BITS tell the path because its digits are read back from them. -/
theorem packedPathIsLeastSignificantFirst : Obligations.PackedPathIsLeastSignificantFirst := by
  intro path h
  refine ⟨toNat_pack (by omega), toNat_len_codeOfPath h, getLsbD_pack_eq_getD (by omega), fun path' h' heq => ?_⟩
  rw [← digits_codeOfPath path' (by omega), heq, digits_codeOfPath path (by omega)]

/-! ### GEN (R120, R121) -/

theorem exec_gen_out_of_phase (he : s.err = .none) (hp : s.phase ≠ .built) :
    exec .gen s = .next (s.raise .sequence 0 0 (encode .gen)) :=
  gate_sequence _ _ _ he (by simp [legal_gen, hp])

theorem exec_gen (he : s.err = .none) (hp : s.phase = .built) {codes : List (Nat × Code)}
    (hc : deriveCodes s = some codes) :
    exec .gen s = .next { s with code := codes, phase := .coded }.startEncoder :=
  (gate_ready _ _ _ he (by simp [legal_gen, hp])).trans (by rw [hc])

/-- The one path from the root to a symbol's leaf. -/
theorem follow_eq_leaf_iff (hf : FreqInv s) (ht : TreeInv s) {k : Nat} (hk : k < 256) (hfk : s.freqAt k ≠ 0)
    {path : List Digit} (hpath : follow s.node s.root path = some (BitVec.ofNat 9 k)) (p : List Digit) :
    follow s.node s.root p = some (BitVec.ofNat 9 k) ↔ p = path := by
  have hv : (s.nodeAt (BitVec.ofNat 9 k).toNat).valid = true := by
    rw [toNat_ofNat_idx (by omega), ht.leaf k hk hfk]
    rfl
  exact ⟨fun hp => follow_unique hf ht hv hp hpath, fun hp => hp ▸ hpath⟩

/-- Settles O26: the walk ends, what it writes is the path to each leaf (`deriveCodes_spec`), and there is no other path
to that leaf (`follow_unique`). -/
theorem genGivesEveryLeafItsPath : Obligations.GenGivesEveryLeafItsPath := by
  refine ⟨by decide, fun s he => ⟨exec_gen_out_of_phase he, fun hp hs => ?_⟩⟩
  have ht := hs.tree (by simp [hp])
  obtain ⟨codes, hcodes⟩ := deriveCodes_isSome hs.freq ht
  refine ⟨_, exec_gen he hp hcodes, rfl, fun k => ?_⟩
  rcases deriveCodes_spec hs.freq ht hcodes k with ⟨path, h1, h255, hk, hfk, hpath, hread⟩ | ⟨hno, hread⟩
  · rw [if_pos ⟨hk, hfk⟩]
    exact ⟨path, h1, h255, follow_eq_leaf_iff hs.freq ht hk hfk hpath, hread⟩
  · rw [if_neg hno]
    exact hread

/-! ### No code begins another (R124) -/

/-- From a leaf no path leads on. -/
theorem eq_nil_of_follow_leaf {nodes : List (Nat × Node)} {i j : Idx} {p : List Digit}
    (hl : (Table.read Node.zero nodes i.toNat).leaf = true) (hp : follow nodes i p = some j) : p = [] := by
  cases p with
  | nil => rfl
  | cons b p =>
    have hnone : follow nodes i (b :: p) = none := if_neg fun ⟨_, _, hc⟩ => nomatch hl.symm.trans hc
    cases hnone.symm.trans hp

/-- Settles O28: the longer code would lead on from the leaf that the shorter one ends at. -/
theorem codesArePrefixFree : Obligations.CodesArePrefixFree := by
  rintro s a b hs hp ha hb hab ⟨rest, hrest⟩
  have hc := hs.codes hp
  obtain ⟨ha256, hfa⟩ := (hc.valid_iff a).1 ha
  obtain ⟨hb256, -⟩ := (hc.valid_iff b).1 hb
  have hidx : (BitVec.ofNat 9 a).toNat = a := toNat_ofNat_idx (by omega)
  have hleaf : (s.nodeAt (BitVec.ofNat 9 a).toNat).leaf = true := by
    rw [hidx, (hs.tree (by simp [hp])).leaf a ha256 hfa]
    rfl
  have hon : follow s.node (BitVec.ofNat 9 a) rest = some (BitVec.ofNat 9 b) := by
    have hpath := hc.path b hb
    rwa [← hrest, follow_append, hc.path a ha] at hpath
  obtain rfl := eq_nil_of_follow_leaf hleaf hon
  refine hab ?_
  rw [← hidx, Option.some.inj hon, toNat_ofNat_idx (by omega)]

end Sys2Proof.Machine
end

section
/-! The Kraft sum of the code (spec/43_code_table_generator.md R127): a node stands for the share `2 ^ -depth` of the
whole, and the two children of an internal node share out its part. -/

namespace Sys2Proof.Machine

variable {s : State}

/-! ### How deep an internal node can be -/

/-- Every step of a path leads to a smaller index (R30). -/
theorem length_add_toNat_le_of_follow (hf : FreqInv s) (h : TreeInv s) {p : List Digit} {i j : Idx}
    (hj : j ≠ Config.nil) (hp : follow s.node i p = some j) : p.length + j.toNat ≤ i.toNat := by
  induction p using List.reverseRecOn generalizing j with
  | nil =>
    obtain rfl := Option.some.inj hp
    exact Nat.le_of_eq (Nat.zero_add _)
  | append_singleton p b ih =>
    obtain ⟨q, hq, hqn, hint, rfl⟩ := follow_snoc.1 hp
    obtain ⟨-, hlt, -⟩ := (treeInv_child hf h q.toNat hint b).2.2.resolve_left fun hc => hj hc.1
    have := ih hqn hq
    rw [List.length_append, List.length_singleton]
    change ((Table.read Node.zero s.node q.toNat).child b).toNat < q.toNat at hlt
    omega

/-- An internal node is at most 254 steps from the root: the indices fall, from 510 at most to 256 at least (R109). -/
theorem depth_le_of_isInternal (hf : FreqInv s) (h : TreeInv s) {j : Nat} (hj : isInternal s.node j) :
    s.depth j ≤ 254 := by
  obtain ⟨hj256, hj510, -⟩ := treeInv_child hf h j hj true
  have hroot := root_ne_nil_of_valid hf h hj.1
  have hidx : (BitVec.ofNat 9 j).toNat = j := toNat_ofNat_idx (by omega)
  obtain ⟨p, hp⟩ := reach hf h 511 j (by omega) hj.1 (by omega) hroot
  have hdepth := depth_eq_length hf h (by rw [hidx]; exact hj.1) hp
  have hlen := length_add_toNat_le_of_follow hf h (ofNat_idx_ne_nil (by omega)) hp
  have hr := toNat_le_of_ne_nil hroot
  rw [hidx] at hdepth hlen
  omega

/-! ### The shares of the nodes -/

/-- The share of the node of index `j`, scaled as in `State.kraftScaled`. -/
noncomputable def State.share (s : State) (j : Nat) : Nat := 2 ^ (255 - s.depth j)

section

variable (hf : FreqInv s) (h : TreeInv s) (h2 : 2 ≤ s.nsym.toNat)
include hf h h2

/-- The children of an internal node share out its part. -/
theorem share_children {p : Nat} (hp : p ∈ internalIndices s.nsym.toNat) :
    s.share (s.nodeAt p).left.toNat + s.share (s.nodeAt p).right.toNat = s.share p := by
  obtain ⟨-, -, -, -, -, hkids⟩ := h.manySymbols h2
  have hint := (isInternal_iff_mem hf h h2 p).2 hp
  rw [internalIndices, Finset.mem_Ico] at hp
  obtain ⟨-, -, -, hlv, hrv⟩ := hkids p hp.1 (by omega)
  have hdl : s.depth (s.nodeAt p).left.toNat = s.depth p + 1 := depth_child hf h hint false hlv
  have hdr : s.depth (s.nodeAt p).right.toNat = s.depth p + 1 := depth_child hf h hint true hrv
  have hdepth := depth_le_of_isInternal hf h hint
  rw [State.share, State.share, State.share, hdl, hdr, ← mul_two, ← pow_succ]
  congr 1
  omega

/-- The shares of the alphabet make up the root's, which is the whole: both sides differ from the sum over all nodes but
the root by the sum over the internal nodes. -/
theorem sum_share_symbols : ∑ k ∈ (symbols s.freq).toFinset, s.share k = 2 ^ 255 := by
  obtain ⟨-, hroot, -⟩ := (treeInv_root hf h).resolve_left fun ⟨_, hc⟩ => by
    rw [hf.nsym_eq, hc] at h2
    exact absurd h2 (by decide)
  have hwhole : s.share s.root.toNat = 2 ^ 255 := by rw [State.share, depth_root hf h hroot.1]
  have hmem : s.root.toNat ∈ nodeIndices s.freq := (valid_iff_mem hf h h2 _).1 hroot.1
  have hbelow := sum_children hf h h2 s.share
  rw [Finset.sum_congr rfl fun p hp => share_children hf h h2 hp] at hbelow
  have hall := Finset.add_sum_erase _ s.share hmem
  rw [← hbelow, nodeIndices, Finset.sum_union (disjoint_symbols_internalIndices _), ← hf.nsym_eq, hwhole] at hall
  exact Nat.add_right_cancel hall.symm

end

/-! ### The Kraft sum -/

/-- The Kraft sum is a sum over the alphabet (R127). -/
theorem CodeInv.kraftScaled_eq_sum (hc : CodeInv s) :
    s.kraftScaled = ∑ k ∈ (symbols s.freq).toFinset, 2 ^ (255 - (s.codeAt k).len.toNat) := by
  rw [State.kraftScaled, sum_range_eq_sum_symbols s.freq _ fun k hk => if_neg fun hv => ((hc.valid_iff k).1 hv).2 hk,
    ← List.sum_toFinset _ (symbols_nodup _)]
  refine Finset.sum_congr rfl fun k hk => if_pos ?_
  exact (hc.valid_iff k).2 ((mem_symbols _ _).1 (List.mem_toFinset.1 hk))

/-- Settles O29: a code is as long as its leaf is deep, so for two or more symbols the sum is `sum_share_symbols`. -/
theorem kraftSumOfTheCode : Obligations.KraftSumOfTheCode := by
  intro s hs hp
  have hf := hs.freq
  have ht := hs.tree (by simp [hp])
  have hc := hs.codes hp
  have hsum := hc.kraftScaled_eq_sum
  refine ⟨fun h2 => ?_, fun h1 => ?_, fun h0 => ?_⟩
  · rw [hsum, ← sum_share_symbols hf ht h2]
    refine Finset.sum_congr rfl fun k hk => ?_
    obtain ⟨hk, hfk⟩ := (mem_symbols _ _).1 (List.mem_toFinset.1 hk)
    rw [hc.len_eq_depth hf ht hk hfk, State.share]
  · obtain ⟨k, hk⟩ := List.length_eq_one_iff.1 (hf.nsym_eq.symm.trans (congrArg BitVec.toNat h1))
    rw [hsum, hk, List.toFinset_cons, List.toFinset_nil, insert_empty_eq, Finset.sum_singleton,
      len_of_oneSymbol hf ht hc hk]
  · rw [hsum, List.length_eq_zero_iff.1 (hf.nsym_eq.symm.trans (congrArg BitVec.toNat h0))]
    rfl

end Sys2Proof.Machine
end

section
/-! LST (spec/43_code_table_generator.md R125): the records of the symbols that have a code. -/

namespace Sys2Proof.Machine

variable {s : State}

theorem legal_lst (s : State) : legal .lst s = decide (s.phase = .coded) := by
  simp [legal, phaseAdmits, ddoneAdmits]

theorem exec_lst_out_of_phase (he : s.err = .none) (hp : s.phase ≠ .coded) :
    exec .lst s = .next (s.raise .sequence 0 0 (encode .lst)) :=
  gate_sequence _ _ _ he (by simp [legal_lst, hp])

theorem exec_lst (he : s.err = .none) (hp : s.phase = .coded) :
    exec .lst s = .next { s with lout := listing s, ports := s.ports ++ (listing s).map .lst } :=
  (gate_ready _ _ _ he (by simp [legal_lst, hp])).trans (by rw [State.emitLsts_eq]; rfl)

/-! ### The listing -/

/-- The record of one symbol's code. -/
def State.listRecord (s : State) (k : Nat) : ListRecord := ⟨BitVec.ofNat 8 k, (s.codeAt k).len, (s.codeAt k).bits⟩

/-- The symbols that have a code, ascending. -/
def State.codedSymbols (s : State) : List Nat := (List.range Config.nSym).filter (fun k => (s.codeAt k).valid)

theorem listing_eq_map (s : State) : listing s = s.codedSymbols.map s.listRecord := by
  rw [State.codedSymbols, ← List.filterMap_eq_map, List.filterMap_filter]
  rfl

theorem mem_codedSymbols {k : Nat} : k ∈ s.codedSymbols ↔ k < 256 ∧ (s.codeAt k).valid = true := by
  simp [State.codedSymbols]

theorem toNat_sym_listRecord {k : Nat} (hk : k ∈ s.codedSymbols) : (s.listRecord k).sym.toNat = k :=
  (BitVec.toNat_ofNat _ _).trans (Nat.mod_eq_of_lt (mem_codedSymbols.1 hk).1)

/-- Symbols ascend in the listing. -/
theorem listing_sorted (s : State) : (listing s).Pairwise (fun a b => a.sym.toNat < b.sym.toNat) := by
  rw [listing_eq_map, List.pairwise_map]
  have hsorted : s.codedSymbols.Pairwise (· < ·) := List.pairwise_lt_range.filter _
  refine hsorted.imp_of_mem fun ha hb hab => ?_
  rwa [toNat_sym_listRecord ha, toNat_sym_listRecord hb]

/-- The listing holds the records of the codes, and no others. -/
theorem mem_listing {r : ListRecord} : r ∈ listing s ↔ s.codeAt r.sym.toNat = ⟨true, r.len, r.bits⟩ := by
  rw [listing_eq_map, List.mem_map]
  constructor
  · rintro ⟨k, hk, rfl⟩
    rw [toNat_sym_listRecord hk, ← (mem_codedSymbols.1 hk).2]
    rfl
  · intro hr
    refine ⟨r.sym.toNat, mem_codedSymbols.2 ⟨r.sym.isLt, by rw [hr]⟩, ?_⟩
    rw [State.listRecord, hr, BitVec.ofNat_toNat, BitVec.setWidth_eq]

/-- Where the codes are those of the tree, the symbols that have one are the alphabet (R31). -/
theorem CodeInv.codedSymbols_eq (hc : CodeInv s) : s.codedSymbols = symbols s.freq := by
  refine List.filter_congr fun k hk => ?_
  rw [Bool.eq_iff_iff, decide_eq_true_iff, hc.valid_iff k, and_iff_right (List.mem_range.1 hk)]
  rfl

/-- Settles O32: the records are those of the listing, and under the invariants one for each symbol of the alphabet,
whose number is NSYM (R29). -/
theorem lstListsTheCodesInOrder : Obligations.LstListsTheCodesInOrder := by
  refine ⟨by decide, fun s he => ⟨exec_lst_out_of_phase he, fun hp =>
    ⟨listing s, exec_lst he hp, listing_sorted s, fun _ => mem_listing, fun hs => ?_⟩⟩⟩
  rw [listing_eq_map, List.length_map, (hs.codes hp).codedSymbols_eq, hs.freq.nsym_eq]

end Sys2Proof.Machine
end

section
/-! The encoder (spec/44_encoder.md): what EBEG does (R136), that a code's digits leave in order (R137), and what a whole
encode pass leaves (R135). -/

namespace Sys2Proof.Machine

variable {s : State}

/-! ### EBEG (R136) -/

theorem legal_ebeg (s : State) : legal .ebeg s = decide (s.phase = .coded) := by
  simp [legal, phaseAdmits, ddoneAdmits]

theorem exec_ebeg (he : s.err = .none) (hp : s.phase = .coded) : exec .ebeg s = .next s.startEncoder :=
  gate_ready _ _ _ he (by simp [legal_ebeg, hp])

theorem exec_ebeg_out_of_phase (he : s.err = .none) (hp : s.phase ≠ .coded) :
    exec .ebeg s = .next (s.raise .sequence 0 0 (encode .ebeg)) :=
  gate_sequence _ _ _ he (by simp [legal_ebeg, hp])

/-- Settles O33: each clause is one way for the gate to end. -/
theorem ebegRestartsTheEncodedStream : Obligations.EbegRestartsTheEncodedStream :=
  ⟨by decide, fun _ he => ⟨exec_ebeg he, exec_ebeg_out_of_phase he⟩⟩

/-! ### ENC (R137, R138) -/

theorem toNat_wordS (op : BitVec 4) (sym : Sym) :
    (wordS op sym).toNat = (op ++ (0 : BitVec 4)).toNat <<< 8 ||| sym.toNat := BitVec.toNat_append _ _

/-- A format S word is the bitwise or of the word of operand 0 and its operand (R62). -/
theorem wordS_eq_or (op : BitVec 4) (sym : Sym) : wordS op sym = wordS op 0 ||| sym.setWidth 16 := by
  refine BitVec.eq_of_toNat_eq ?_
  have hlt : sym.toNat < 2 ^ 16 := Nat.lt_trans sym.isLt (by decide)
  rw [BitVec.toNat_or, toNat_wordS, toNat_wordS, BitVec.toNat_setWidth, Nat.mod_eq_of_lt hlt]
  exact congrArg (· ||| sym.toNat) (Nat.or_zero _).symm

theorem encode_enc (sym : Sym) : encode (.enc sym) = 0x6000 ||| sym.setWidth 16 := wordS_eq_or 6 sym

theorem length_codeOf (s : State) (k : Nat) : (s.codeOf k).length = (s.codeAt k).len.toNat := length_digits _

theorem getElem_codeOf {k j : Nat} (hj : j < (s.codeOf k).length) :
    (s.codeOf k)[j] = (s.codeAt k).bits.getLsbD j := by
  simp [State.codeOf, Code.digits]

/-- Settles O34: each clause is one way for the gate and ENC's own check to end, and a code in a CODED state has 1 to 255
digits by R31. -/
theorem encEmitsTheCodeOfTheByte : Obligations.EncEmitsTheCodeOfTheByte := fun sym =>
  ⟨encode_enc sym, fun s he => ⟨exec_enc_out_of_phase sym he, exec_enc_missing sym he, fun hp hv =>
    ⟨s.codeOf sym.toNat, exec_enc sym he hp hv, length_codeOf s _,
      fun hs => length_codeOf s _ ▸ (hs.codes hp).length _ hv, fun _ => getElem_codeOf⟩⟩⟩

/-! ### Saturating positions (R8) -/

theorem toNat_sat64 (v : Nat) : (sat64 v).toNat = min v (2 ^ 64 - 1) :=
  (BitVec.toNat_ofNat _ _).trans (Nat.mod_eq_of_lt (by omega))

@[simp] theorem sat64_toNat (p : Pos) : sat64 p.toNat = p := by
  refine BitVec.eq_of_toNat_eq ?_
  rw [toNat_sat64]
  omega

/-- A position that has saturated stays so. -/
theorem sat64_toNat_sat64_add (v n : Nat) : sat64 ((sat64 v).toNat + n) = sat64 (v + n) := by
  refine BitVec.eq_of_toNat_eq ?_
  rw [toNat_sat64, toNat_sat64, toNat_sat64]
  omega

/-! ### The encode pass (R135) -/

/-- Every byte of a sequence encoded, in order. -/
def State.encodeAll (s : State) (bytes : List Sym) : State :=
  { s with
    eout := s.eout ++ s.encodeBytes bytes
    ports := s.ports ++ (s.encodeBytes bytes).map .enc
    epos := sat64 (s.epos.toNat + bytes.length) }

theorem State.encodeAll_nil (s : State) : s.encodeAll [] = s := by
  simp [State.encodeAll, State.encodeBytes]

/-- ENC of a byte with a code, and the bytes after it. -/
theorem State.encodeAll_cons (s : State) (b : Sym) (bytes : List Sym) :
    s.encodeAll (b :: bytes) = { s with
      eout := s.eout ++ s.codeOf b.toNat
      ports := s.ports ++ (s.codeOf b.toNat).map .enc
      epos := sat64 (s.epos.toNat + 1) : State }.encodeAll bytes := by
  simp only [State.encodeAll, sat64_toNat_sat64_add]
  simp [State.encodeBytes, State.codeOf, State.codeAt, Nat.add_assoc, Nat.add_comm 1]

/-- A run of ENC commands for bytes that have codes encodes every byte. -/
theorem execAll_encs {bytes : List Sym} (he : s.err = .none) (hp : s.phase = .coded)
    (hv : ∀ b ∈ bytes, (s.codeAt b.toNat).valid = true) :
    execAll (bytes.map .enc) s = .next (s.encodeAll bytes) := by
  induction bytes generalizing s with
  | nil => rw [State.encodeAll_nil]; rfl
  | cons b bytes ih =>
    obtain ⟨hb, hrest⟩ := List.forall_mem_cons.1 hv
    rw [List.map_cons, execAll_cons (exec_enc b he hp hb), State.encodeAll_cons]
    exact ih he hp hrest

theorem execAll_append {t : State} {is : List Instr} (h : execAll is s = .next t) (js : List Instr) :
    execAll (is ++ js) s = execAll js t := by
  induction is generalizing s with
  | nil => cases h; rfl
  | cons i is ih =>
    obtain ⟨u, hu, h⟩ := execAll_cons_eq_next h
    rw [List.cons_append, execAll_cons hu, ih h]

theorem execAll_ebeg_encs {bytes : List Sym} (he : s.err = .none) (hp : s.phase = .coded)
    (hv : ∀ b ∈ bytes, (s.codeAt b.toNat).valid = true) :
    execAll (.ebeg :: bytes.map .enc) s = .next (s.startEncoder.encodeAll bytes) := by
  rw [execAll_cons (exec_ebeg he hp)]
  exact execAll_encs he hp hv

/-- From an encoder just started, the log is the stream and EPOS the saturated number of bytes. -/
theorem State.startEncoder_encodeAll (s : State) (bytes : List Sym) :
    s.startEncoder.encodeAll bytes = { s with
      eout := s.encodeBytes bytes
      epos := sat64 bytes.length
      ports := s.ports ++ (s.encodeBytes bytes).map .enc } := by
  have hpos : s.startEncoder.epos.toNat + bytes.length = bytes.length := Nat.zero_add _
  rw [State.encodeAll, hpos]
  rfl

/-- Settles O35: the pass ends in `encodeAll` of the started encoder, which is still CODED with the same codes, so that a
byte without one is reported there. -/
theorem encodePassConcatenatesTheCodes : Obligations.EncodePassConcatenatesTheCodes := by
  intro s bytes he hp hv t
  have hpass : execAll (.ebeg :: bytes.map .enc) s = .next t :=
    (execAll_ebeg_encs he hp hv).trans (congrArg _ (s.startEncoder_encodeAll bytes))
  refine ⟨hpass, fun sym hno => ?_⟩
  rw [execAll_append hpass, execAll_cons (exec_enc_missing (s := t) sym he hp hno)]
  rfl

end Sys2Proof.Machine
end

section
/-! The decoder (spec/45_decoder.md): what DBEG (R151), DEC (R152) and DEND (R153) do, in sequence and out of it, and when
a stream is malformed (R154). -/

namespace Sys2Proof.Machine

variable {s : State}

/-! ### DBEG (R151) -/

theorem legal_dbeg (s : State) : legal .dbeg s = decide (s.phase ≠ .count) := by
  simp [legal, phaseAdmits, ddoneAdmits]

theorem exec_dbeg (he : s.err = .none) (hp : s.phase ≠ .count) : exec .dbeg s = .next s.startDecoder :=
  gate_ready _ _ _ he (by simp [legal_dbeg, hp])

theorem exec_dbeg_out_of_phase (he : s.err = .none) (hp : s.phase = .count) :
    exec .dbeg s = .next (s.raise .sequence 0 0 (encode .dbeg)) :=
  gate_sequence _ _ _ he (by simp [legal_dbeg, hp])

/-- Settles O38: each clause is one way for the gate to end. -/
theorem dbegRestartsTheDecoder : Obligations.DbegRestartsTheDecoder :=
  ⟨by decide, fun _ he => ⟨exec_dbeg he, exec_dbeg_out_of_phase he⟩⟩

/-! ### When DEC and DEND run (R82) -/

/-- A stream is being decoded: DEC and DEND run, for there is a tree and the stream is not closed. -/
structure State.Decoding (s : State) : Prop where
  err : s.err = .none
  phase : s.phase ≠ .count
  ddone : s.ddone = false

theorem State.startDecoder_decoding (he : s.err = .none) (hp : s.phase ≠ .count) : s.startDecoder.Decoding :=
  ⟨he, hp, rfl⟩

theorem legal_dec (bit : Digit) (s : State) : legal (.dec bit) s = (decide (s.phase ≠ .count) && !s.ddone) := rfl

theorem legal_dend (s : State) : legal .dend s = (decide (s.phase ≠ .count) && !s.ddone) := rfl

theorem State.Decoding.admitted (h : s.Decoding) : (decide (s.phase ≠ .count) && !s.ddone) = true := by
  simp [h.phase, h.ddone]

theorem not_admitted (h : s.phase = .count ∨ s.ddone = true) :
    (decide (s.phase ≠ .count) && !s.ddone) = false := by
  rcases h with hp | hd
  · simp [hp]
  · simp [hd]

/-! ### DEND (R153) -/

theorem exec_dend_out_of_sequence (he : s.err = .none) (h : s.phase = .count ∨ s.ddone = true) :
    exec .dend s = .next (s.raise .sequence 0 0 (encode .dend)) :=
  gate_sequence _ _ _ he ((legal_dend s).trans (not_admitted h))

theorem exec_dend_at_root (h : s.Decoding) (hc : s.dcur = s.root) : exec .dend s = .next { s with ddone := true } :=
  (gate_ready _ _ _ h.err ((legal_dend s).trans h.admitted)).trans (if_pos hc)

theorem exec_dend_below_root (h : s.Decoding) (hc : s.dcur ≠ s.root) : exec .dend s = .next (s.malformed .dend) :=
  (gate_ready _ _ _ h.err ((legal_dend s).trans h.admitted)).trans (if_neg hc)

/-- Settles O40: each clause is one way for the gate and DEND's own check to end. -/
theorem dendChecksTheLeafBoundary : Obligations.DendChecksTheLeafBoundary :=
  ⟨by decide, fun _ he => ⟨exec_dend_out_of_sequence he, fun hp hd =>
    ⟨exec_dend_at_root ⟨he, hp, hd⟩, exec_dend_below_root ⟨he, hp, hd⟩⟩⟩⟩

/-! ### DEC (R152) -/

section

variable {bit : Digit}

theorem exec_dec_out_of_sequence (he : s.err = .none) (h : s.phase = .count ∨ s.ddone = true) :
    exec (.dec bit) s = .next (s.raise .sequence 0 0 (encode (.dec bit))) :=
  gate_sequence _ _ _ he ((legal_dec bit s).trans (not_admitted h))

theorem exec_dec_no_tree (h : s.Decoding) (hr : s.root = Config.nil) :
    exec (.dec bit) s = .next (s.malformed (.dec bit)) :=
  (gate_ready _ _ _ h.err ((legal_dec bit s).trans h.admitted)).trans (if_pos hr)

theorem nodeOf_eq_some {i : Idx} (hi : i ≠ Config.nil) : s.nodeOf i = some (s.nodeAt i.toNat) := if_neg hi

variable (h : s.Decoding) (hr : s.root ≠ Config.nil) (hc : s.dcur ≠ Config.nil)
include h hr hc

theorem exec_dec_no_child (hn : (s.nodeAt s.dcur.toNat).child bit = Config.nil) :
    exec (.dec bit) s = .next (s.malformed (.dec bit)) := by
  refine (gate_ready _ _ _ h.err ((legal_dec bit s).trans h.admitted)).trans ((if_neg hr).trans ?_)
  rw [nodeOf_eq_some hc]
  dsimp only
  rw [hn]
  rfl

variable {c : Idx} (hchild : (s.nodeAt s.dcur.toNat).child bit = c) (hn : c ≠ Config.nil)
include hchild hn

theorem exec_dec_child : exec (.dec bit) s = .next (s.walkTo c (s.nodeAt c.toNat)) := by
  refine (gate_ready _ _ _ h.err ((legal_dec bit s).trans h.admitted)).trans ((if_neg hr).trans ?_)
  rw [nodeOf_eq_some hc]
  dsimp only
  rw [hchild, nodeOf_eq_some hn]

theorem exec_dec_leaf (hl : (s.nodeAt c.toNat).leaf = true) : exec (.dec bit) s = .next { s with
    dpos := sat64 (s.dpos.toNat + 1)
    dout := s.dout ++ [(s.nodeAt c.toNat).sym]
    ports := s.ports ++ [.dec (s.nodeAt c.toNat).sym]
    dcur := s.root } := by
  rw [exec_dec_child h hr hc hchild hn, State.walkTo, if_pos hl, State.emitDec]

theorem exec_dec_inner (hl : (s.nodeAt c.toNat).leaf = false) :
    exec (.dec bit) s = .next { s with dpos := sat64 (s.dpos.toNat + 1), dcur := c } := by
  rw [exec_dec_child h hr hc hchild hn, State.walkTo, if_neg (by simp [hl])]

end

theorem encode_dec (bit : Digit) : encode (.dec bit) = 0x8000 ||| (BitVec.ofBool bit).setWidth 16 := by
  cases bit <;> decide

/-- Settles O39: each clause is one way for the gate and DEC's own checks to end, and the walk stops at a leaf. -/
theorem decConsumesOneBit : Obligations.DecConsumesOneBit := fun bit =>
  ⟨encode_dec bit, fun _ he => ⟨exec_dec_out_of_sequence he, fun hp hd =>
    have h : State.Decoding _ := ⟨he, hp, hd⟩
    ⟨exec_dec_no_tree h, fun hr hc =>
      ⟨exec_dec_no_child h hr hc, exec_dec_leaf h hr hc rfl, exec_dec_inner h hr hc rfl⟩⟩⟩⟩

/-! ### What the other commands do to the recovered output (R155, R159) -/

theorem count_dec_append {ports new : List PortEvent} {sym : Sym} (h : .dec sym ∉ new) :
    (ports ++ new).count (.dec sym) = ports.count (.dec sym) := by
  rw [List.count_append, List.count_eq_zero_of_not_mem h, Nat.add_zero]

/-- Settles O41, by the effects of a command: DEC at a leaf alone writes the `dec` port, and it adds that leaf's symbol. -/
theorem onlyDecAppendsALeafSymbol : Obligations.OnlyDecAppendsALeafSymbol := by
  intro i s t h
  refine ⟨fun hi => ?_, ?_⟩
  · cases exec_effect h with
    | emitted _ bit => exact absurd rfl (hi bit)
    | cleared => exact ⟨.inr rfl, fun _ => rfl⟩
    | built => exact ⟨.inr rfl, fun _ => rfl⟩
    | decoderStarted => exact ⟨.inr rfl, fun _ => rfl⟩
    | answered => exact ⟨.inl rfl, fun _ => count_dec_append (by simp)⟩
    | encoded => exact ⟨.inl rfl, fun _ => count_dec_append (by simp)⟩
    | listed => exact ⟨.inl rfl, fun _ => count_dec_append (by simp)⟩
    | _ => exact ⟨.inl rfl, fun _ => rfl⟩
  · rintro bit rfl
    cases exec_effect h with
    | answered _ _ _ hi => exact nomatch hi
    | emitted _ _ c _ _ _ _ _ hl => exact .inr ⟨c.toNat, hl, rfl, rfl⟩
    | _ => exact .inl ⟨rfl, rfl⟩

/-- Settles O42, by the effects of a command: those that would write DDONE or DOUT belong to DBEG and CLR, to COUNT, or to
a stream that is not closed. -/
theorem closedStreamStaysUntilDbegOrClr : Obligations.ClosedStreamStaysUntilDbegOrClr := by
  intro s hd hp
  refine ⟨fun he i hi => ?_, fun i t h hdbeg hclr => ?_, ?_⟩
  · rcases hi with rfl | ⟨bit, rfl⟩
    · exact exec_dend_out_of_sequence he (.inr hd)
    · exact exec_dec_out_of_sequence he (.inr hd)
  · cases exec_effect h with
    | cleared => exact absurd rfl hclr
    | decoderStarted => exact absurd rfl hdbeg
    | built _ hcount => exact absurd hcount hp
    | emitted _ _ _ _ hopen => exact nomatch hopen.symm.trans hd
    | ended => exact ⟨rfl, rfl⟩
    | _ => exact ⟨hd, rfl⟩
  · rintro t (⟨h, he⟩ | h | ⟨⟨rest, hin⟩, h⟩)
    · cases (exec_dbeg he hp).symm.trans h
      rfl
    · cases (exec_clr s).symm.trans h
      rfl
    · cases (step_of_rst hin).symm.trans h
      rfl

end Sys2Proof.Machine
end

section
/-! Whole streams (spec/45_decoder.md): decoding recovers what was encoded (R156), and a stream cut inside a code word is
malformed (R154 case (c)). The decoder's walk along a path of digits is the path of `follow`. -/

namespace Sys2Proof.Machine

variable {s : State}

/-! ### DEC along a path (R152) -/

/-- The digits of a path to an internal node take the cursor there. -/
theorem execAll_decs_follow (h : s.Decoding) (hr : s.root ≠ Config.nil) {p : List Digit} {j : Idx}
    (hj : j ≠ Config.nil) (hl : (s.nodeAt j.toNat).leaf = false) (hp : follow s.node s.dcur p = some j) :
    execAll (p.map .dec) s = .next { s with dpos := sat64 (s.dpos.toNat + p.length), dcur := j } := by
  induction p using List.reverseRecOn generalizing j with
  | nil =>
    cases hp
    simp [execAll]
  | append_singleton p b ih =>
    obtain ⟨q, hq, hqn, hint, hb⟩ := follow_snoc.1 hp
    have hstep := exec_dec_inner (s := { s with dpos := sat64 (s.dpos.toNat + p.length), dcur := q }) { h with } hr hqn hb
      hj hl
    rw [List.map_append, execAll_append (ih hqn hint.2 hq), List.map_singleton, execAll_cons hstep,
      sat64_toNat_sat64_add, List.length_append, List.length_singleton, Nat.add_assoc]
    rfl

/-- The digits of a path to a leaf emit its symbol and take the cursor back to the root. -/
theorem execAll_decs_leaf (h : s.Decoding) (hr : s.root ≠ Config.nil) {p : List Digit} {j : Idx} (hne : p ≠ [])
    (hj : j ≠ Config.nil) (hl : (s.nodeAt j.toNat).leaf = true) (hp : follow s.node s.dcur p = some j) :
    execAll (p.map .dec) s = .next { s with
      dpos := sat64 (s.dpos.toNat + p.length)
      dout := s.dout ++ [(s.nodeAt j.toNat).sym]
      ports := s.ports ++ [.dec (s.nodeAt j.toNat).sym]
      dcur := s.root } := by
  obtain ⟨p, b, rfl⟩ := (List.eq_nil_or_concat' p).resolve_left hne
  obtain ⟨q, hq, hqn, hint, hb⟩ := follow_snoc.1 hp
  have hstep := exec_dec_leaf (s := { s with dpos := sat64 (s.dpos.toNat + p.length), dcur := q }) { h with } hr hqn hb
    hj hl
  rw [List.map_append, execAll_append (execAll_decs_follow h hr hqn hint.2 hq), List.map_singleton, execAll_cons hstep,
    sat64_toNat_sat64_add, List.length_append, List.length_singleton, Nat.add_assoc]
  rfl

/-! ### Whole codes -/

/-- Every byte of a sequence decoded, in order, from its code. -/
def State.decodeAll (s : State) (bytes : List Sym) : State :=
  { s with
    dpos := sat64 (s.dpos.toNat + (s.encodeBytes bytes).length)
    dout := s.dout ++ bytes
    ports := s.ports ++ bytes.map .dec
    dcur := s.root }

theorem State.decodeAll_nil (hc : s.dcur = s.root) : s.decodeAll [] = s := by
  cases s
  cases hc
  simp [State.decodeAll, State.encodeBytes]

/-- The code of one byte, and the bytes after it. -/
theorem State.decodeAll_cons (s : State) (b : Sym) (bytes : List Sym) :
    s.decodeAll (b :: bytes) = (s.decodeAll [b]).decodeAll bytes := by
  have hcodes : (s.decodeAll [b]).encodeBytes bytes = s.encodeBytes bytes := rfl
  simp only [State.decodeAll] at hcodes ⊢
  rw [hcodes, sat64_toNat_sat64_add]
  simp [State.encodeBytes, Nat.add_assoc]

theorem Inv.decodeAll (hs : Inv s) (hc : s.dcur = s.root) (bytes : List Sym) : Inv (s.decodeAll bytes) := by
  refine hs.of_sameTree ?_
  simp [State.decodeAll, hc]

theorem root_ne_nil_of_code (hs : Inv s) (hp : s.phase = .coded) {k : Nat} (hv : (s.codeAt k).valid = true) :
    s.root ≠ Config.nil := by
  have ht := hs.tree (by simp [hp])
  obtain ⟨hk, hfk⟩ := ((hs.codes hp).valid_iff k).1 hv
  refine root_ne_nil_of_valid hs.freq ht (j := k) ?_
  rw [ht.leaf k hk hfk]
  rfl

theorem codeOf_ne_nil (hc : CodeInv s) {k : Nat} (hv : (s.codeAt k).valid = true) : s.codeOf k ≠ [] := by
  have hlen := (hc.length k hv).1
  rw [← length_codeOf] at hlen
  exact List.ne_nil_of_length_pos hlen

/-- The digits of a byte's code, from the root, emit the byte. -/
theorem execAll_decs_code (hs : Inv s) (h : s.Decoding) (hp : s.phase = .coded) (hc : s.dcur = s.root) {b : Sym}
    (hv : (s.codeAt b.toNat).valid = true) :
    execAll ((s.codeOf b.toNat).map .dec) s = .next (s.decodeAll [b]) := by
  have hcodes := hs.codes hp
  obtain ⟨hb, hfb⟩ := (hcodes.valid_iff b.toNat).1 hv
  have hidx : (BitVec.ofNat 9 b.toNat).toNat = b.toNat := toNat_ofNat_idx (by omega)
  have hleaf : s.nodeAt (BitVec.ofNat 9 b.toNat).toNat = leafNode b.toNat (s.freqAt b.toNat) := by
    rw [hidx, (hs.tree h.phase).leaf _ hb hfb]
  have hsym : (s.nodeAt (BitVec.ofNat 9 b.toNat).toNat).sym = b := by
    rw [hleaf]
    exact BitVec.ofNat_toNat _ _
  have hrun := execAll_decs_leaf h (root_ne_nil_of_code hs hp hv) (codeOf_ne_nil hcodes hv)
    (ofNat_idx_ne_nil (by omega)) (by rw [hleaf]; rfl) (hc ▸ hcodes.path _ hv)
  rw [hrun, hsym]
  simp [State.decodeAll, State.encodeBytes]

/-- The digits of whole codes, from the root, emit the bytes. -/
theorem execAll_decs_encodeBytes (hs : Inv s) (h : s.Decoding) (hp : s.phase = .coded) (hc : s.dcur = s.root)
    {bytes : List Sym} (hv : ∀ b ∈ bytes, (s.codeAt b.toNat).valid = true) :
    execAll ((s.encodeBytes bytes).map .dec) s = .next (s.decodeAll bytes) := by
  induction bytes generalizing s with
  | nil => rw [State.decodeAll_nil hc]; rfl
  | cons b bytes ih =>
    obtain ⟨hb, hrest⟩ := List.forall_mem_cons.1 hv
    have hcons : s.encodeBytes (b :: bytes) = s.codeOf b.toNat ++ s.encodeBytes bytes := List.flatMap_cons
    rw [hcons, List.map_append, execAll_append (execAll_decs_code hs h hp hc hb), State.decodeAll_cons s b bytes]
    exact ih (hs.decodeAll hc [b]) { h with } hp rfl hrest

/-! ### A decode pass (R156) -/

theorem State.startDecoder_decodeAll_decoding (s : State) (bytes : List Sym) (he : s.err = .none) (hp : s.phase ≠ .count) :
    (s.startDecoder.decodeAll bytes).Decoding := ⟨he, hp, rfl⟩

theorem State.startDecoder_decodeAll_dpos (s : State) (bytes : List Sym) :
    (s.startDecoder.decodeAll bytes).dpos = sat64 (s.encodeBytes bytes).length := congrArg sat64 (Nat.zero_add _)

section

variable (hs : Inv s) (he : s.err = .none) (hp : s.phase = .coded) {bytes : List Sym}
  (hv : ∀ b ∈ bytes, (s.codeAt b.toNat).valid = true)
include hs he hp hv

/-- DBEG, and DEC of each digit of whole codes. -/
theorem execAll_dbeg_decs : execAll (.dbeg :: (s.encodeBytes bytes).map .dec) s =
    .next (s.startDecoder.decodeAll bytes) := by
  have hphase : s.phase ≠ .count := by simp [hp]
  have hstart := exec_dbeg he hphase
  rw [execAll_cons hstart]
  exact execAll_decs_encodeBytes (exec_keeps_inv hs hstart) (s.startDecoder_decoding he hphase) hp rfl hv

/-- Whole codes end at a leaf boundary. -/
theorem execAll_decode_pass : execAll (.dbeg :: (s.encodeBytes bytes).map .dec ++ [.dend]) s =
    .next { s.startDecoder.decodeAll bytes with ddone := true } := by
  have hopen := s.startDecoder_decodeAll_decoding bytes he (by simp [hp])
  rw [execAll_append (execAll_dbeg_decs hs he hp hv), execAll_cons (exec_dend_at_root hopen rfl), execAll]

/-- What an encoder just started has encoded is decoded back. -/
theorem execAll_decode_eout (heout : s.eout = []) :
    execAll (.dbeg :: (s.encodeAll bytes).eout.map .dec ++ [.dend]) (s.encodeAll bytes) =
      .next { (s.encodeAll bytes).startDecoder.decodeAll bytes with ddone := true } := by
  have hstream : (s.encodeAll bytes).eout = (s.encodeAll bytes).encodeBytes bytes := by
    rw [State.encodeAll, heout]
    rfl
  rw [hstream]
  exact execAll_decode_pass (s := s.encodeAll bytes) (hs.of_sameTree rfl) he hp hv

end

/-- Settles O43: EBEG's state is CODED with the same codes, its stream is the concatenation of the bytes' codes, and each
code takes the decoder from the root to the byte's leaf and back. -/
theorem decodingRecoversWhatWasEncoded : Obligations.DecodingRecoversWhatWasEncoded := by
  intro s bytes hs he hp hv
  exact ⟨_, _, execAll_ebeg_encs he hp hv, execAll_decode_eout (s := s.startEncoder) (hs.of_sameTree rfl) he hp hv rfl,
    he, rfl, rfl⟩

/-! ### A stream that ends inside a code word (R154 case (c)) -/

/-- The proper, non-empty parts of a code lead to internal nodes below the root. -/
theorem follow_code_part (hs : Inv s) (hp : s.phase = .coded) {k : Nat} (hv : (s.codeAt k).valid = true)
    {part rest : List Digit} (hk : s.codeOf k = part ++ rest) (hpart : part ≠ []) (hrest : rest ≠ []) :
    ∃ j, follow s.node s.root part = some j ∧ j ≠ Config.nil ∧ isInternal s.node j.toNat ∧ j ≠ s.root := by
  have ht := hs.tree (by simp [hp])
  have hpath := (hs.codes hp).path k hv
  rw [hk, follow_append] at hpath
  obtain ⟨j, hj, hon⟩ := Option.bind_eq_some_iff.1 hpath
  obtain ⟨hjn, hint⟩ : j ≠ Config.nil ∧ isInternal s.node j.toNat := by
    obtain ⟨b, rest, rfl⟩ := List.exists_cons_of_ne_nil hrest
    by_contra hc
    cases (if_neg hc : follow s.node j (b :: rest) = none).symm.trans hon
  refine ⟨j, hj, hjn, hint, ?_⟩
  obtain ⟨part, b, rfl⟩ := (List.eq_nil_or_concat' part).resolve_left hpart
  exact ne_root_of_follow_snoc ht (root_ne_nil_of_code hs hp hv) hj

/-- Settles O45: after the whole codes the cursor is at the root, the part leads below it, and there DEND finds the walk
unfinished at the number of bits consumed. -/
theorem truncatedStreamIsMalformed : Obligations.TruncatedStreamIsMalformed := by
  intro s bytes k part rest hs he hp hv hk hcode hpart hrest stream
  obtain ⟨j, hj, hjn, hint, hjr⟩ := follow_code_part hs hp hk hcode hpart hrest
  have hroot := root_ne_nil_of_code hs hp hk
  have hopen := s.startDecoder_decodeAll_decoding bytes he (by simp [hp])
  have hdecs := execAll_decs_follow hopen hroot hjn hint.2 hj
  rw [State.startDecoder_decodeAll_dpos, sat64_toNat_sat64_add, ← List.length_append] at hdecs
  have hend := exec_dend_below_root (s := { s.startDecoder.decodeAll bytes with dpos := sat64 stream.length, dcur := j })
    { hopen with } hjr
  have hstream := (execAll_append (execAll_dbeg_decs hs he hp hv) _).trans hdecs
  rw [List.cons_append, ← List.map_append] at hstream
  exact ⟨_, (execAll_append hstream _).trans (execAll_cons hend []), rfl, rfl, rfl, rfl, rfl, if_neg nofun⟩

/-! ### A session from CLR to GEN -/

/-- What CLR, CNT of each byte, BLD and GEN leave: the codes of the counted bytes, with the encoder ready. -/
structure CodedSession (counted : List Sym) (t : State) : Prop where
  inv : Inv t
  err : t.err = .none
  phase : t.phase = .coded
  eout : t.eout = []
  epos : t.epos = 0
  count : ∀ b : Sym, (t.freqAt b.toNat).toNat = counted.count b

theorem exists_codedSession (s : State) {counted : List Sym} (hlen : counted.length ≤ 2 ^ 32 - 1) :
    ∃ t, execAll (.clr :: counted.map .cnt ++ [.bld, .gen]) s = .next t ∧ CodedSession counted t := by
  have hcnt := execAll_clr_cnts s hlen
  have hu : Inv (s.clear.countAll counted) := execAll_keeps (fun _ _ _ => exec_keeps_inv) (Inv.clear s) hcnt
  have hbld := exec_bld (by simp) (by simp) hu.freq
  have hbuilt := exec_keeps_inv hu hbld
  obtain ⟨codes, hcodes⟩ := deriveCodes_isSome hbuilt.freq (hbuilt.tree nofun)
  have hgen := exec_gen (by simp) rfl hcodes
  refine ⟨_, ?_, exec_keeps_inv hbuilt hgen, by simp, rfl, rfl, rfl, toNat_freqAt_clear_countAll s hlen⟩
  rw [execAll_append hcnt, execAll_cons hbld, execAll_cons hgen, execAll]

section

variable {counted : List Sym} {t : State} (h : CodedSession counted t)
include h

/-- The bytes that have codes are the counted ones (R120). -/
theorem CodedSession.valid_iff (b : Sym) : (t.codeAt b.toNat).valid = true ↔ b ∈ counted := by
  rw [(h.inv.codes h.phase).valid_iff, and_iff_right b.isLt, ← List.count_pos_iff, ← h.count b, Nat.pos_iff_ne_zero]
  exact not_congr BitVec.toNat_inj.symm

theorem CodedSession.length_symbols : (symbols t.freq).length = counted.dedup.length := length_symbols_of_count h.count

/-- Bytes over the counted ones are encoded. -/
theorem CodedSession.execAll_encs {bytes : List Sym} (hb : ∀ b ∈ bytes, b ∈ counted) :
    execAll (bytes.map .enc) t = .next (t.encodeAll bytes) :=
  Machine.execAll_encs h.err h.phase fun b hmem => (h.valid_iff b).2 (hb b hmem)

/-- Bytes over the counted ones are decoded back from their encoding. -/
theorem CodedSession.execAll_decs {bytes : List Sym} (hb : ∀ b ∈ bytes, b ∈ counted) :
    execAll (.dbeg :: (t.encodeAll bytes).eout.map .dec ++ [.dend]) (t.encodeAll bytes) =
      .next { (t.encodeAll bytes).startDecoder.decodeAll bytes with ddone := true } :=
  execAll_decode_eout h.inv h.err h.phase (fun b hmem => (h.valid_iff b).2 (hb b hmem)) h.eout

end

/-- Settles O44: the session has the codes of all counted bytes, so that its encode pass and its decode pass of them run to
their ends. -/
theorem pipelineRoundTrip : Obligations.PipelineRoundTrip := by
  intro s counted bytes hlen hb
  obtain ⟨t, hrun, ht⟩ := exists_codedSession s hlen
  refine ⟨_, _, (execAll_append hrun _).trans (ht.execAll_encs hb), ht.err, ?_, ht.execAll_decs hb, ht.err, rfl, rfl⟩
  rw [State.encodeAll, ht.epos, toNat_sat64]
  exact congrArg (min · _) (Nat.zero_add _)

/-! ### The degenerate alphabets (R157, R158) -/

/-- Settles O36: a session that counted nothing has no symbol, hence no code, and its decode pass of no digit ends where
it starts. -/
theorem emptyInputGivesEmptyStreams : Obligations.EmptyInputGivesEmptyStreams := by
  intro s
  obtain ⟨t, hrun, ht⟩ := exists_codedSession s (counted := []) (Nat.zero_le _)
  have hcodes := ht.inv.codes ht.phase
  have hnone : symbols t.freq = [] := List.length_eq_zero_iff.1 ht.length_symbols
  obtain ⟨-, -, hempty, -⟩ := (ht.inv.tree (by simp [ht.phase])).noSymbol (by rw [ht.inv.freq.nsym_eq, hnone]; rfl)
  have hno (k : Nat) : (t.codeAt k).valid = false := by
    refine Bool.eq_false_iff.2 fun hv => ?_
    have hmem := (mem_symbols t.freq k).2 ((hcodes.valid_iff k).1 hv)
    rw [hnone] at hmem
    cases hmem
  have hdec := execAll_decode_pass ht.inv ht.err ht.phase (bytes := []) nofun
  refine ⟨t, _, hrun, (if_pos ⟨ht.err, ht.phase⟩).trans (congrArg some ht.eout), hempty,
    fun k => hcodes.invalid k (hno k), hdec, if_pos ⟨ht.err, rfl⟩, rfl, fun sym => ?_⟩
  have hmissing := exec_enc_missing sym ht.err ht.phase (hno _)
  rw [ht.epos] at hmissing
  exact hmissing

/-- The code of a one-symbol alphabet is the digit 0: the symbol's leaf is the synthetic root's left child (R104). -/
theorem codeOf_of_oneSymbol (hs : Inv s) (hp : s.phase = .coded) {k : Nat} (h1 : symbols s.freq = [k]) :
    s.codeOf k = [false] := by
  have ht := hs.tree (by simp [hp])
  obtain ⟨hk, hfk⟩ := (mem_alphabet_of_oneSymbol h1 k).2 rfl
  obtain ⟨hr, -, -, -, hroot, hvalid⟩ := ht.oneSymbol k h1
  have hpath := (hs.codes hp).path k (((hs.codes hp).valid_iff k).2 ⟨hk, hfk⟩)
  obtain ⟨hrn, hint, -⟩ := (treeInv_root hs.freq ht).resolve_left fun hc => by simp [hc.2] at h1
  have hchild : (s.nodeAt s.root.toNat).child false = BitVec.ofNat 9 k := by
    rw [hr]
    exact congrArg (Node.child · false) hroot
  have hzero : follow s.node s.root [false] = some (BitVec.ofNat 9 k) :=
    follow_snoc (p := []).2 ⟨s.root, rfl, hrn, hint, hchild⟩
  exact ((follow_eq_leaf_iff hs.freq ht hk hfk hpath [false]).1 hzero).symm

theorem encodeBytes_replicate {x : Sym} {bit : Digit} (h : s.codeOf x.toNat = [bit]) (n : Nat) :
    s.encodeBytes (List.replicate n x) = List.replicate n bit := by
  rw [State.encodeBytes, List.flatMap_replicate, h, List.flatten_replicate_singleton]

/-- Settles O37: the session has the one symbol, its code is the digit 0, and the passes of any bytes over the counted
ones run to their ends. -/
theorem oneSymbolInputGetsTheCodeZero : Obligations.OneSymbolInputGetsTheCodeZero := by
  intro s x n hn hlen
  obtain ⟨t, hrun, ht⟩ := exists_codedSession s (counted := List.replicate n x) (by simpa using hlen)
  have hx : t.freqAt x.toNat ≠ 0 :=
    (((ht.inv.codes ht.phase).valid_iff _).1 ((ht.valid_iff x).2 (List.mem_replicate.2 ⟨by omega, rfl⟩))).2
  have hn1 : t.nsym = 1 := by
    refine BitVec.eq_of_toNat_eq ?_
    rw [ht.inv.freq.nsym_eq, ht.length_symbols, List.replicate_dedup (by omega)]
    rfl
  have h1 := ht.inv.freq.symbols_eq_singleton hn1 x.isLt hx
  obtain ⟨-, -, hsingle, -⟩ := (ht.inv.tree (by simp [ht.phase])).oneSymbol _ h1
  have hcode := codeOf_of_oneSymbol ht.inv ht.phase h1
  have heout : (t.encodeAll (List.replicate n x)).eout = List.replicate n false := by
    rw [State.encodeAll, ht.eout, encodeBytes_replicate hcode]
    rfl
  have hdec := ht.execAll_decs (bytes := List.replicate n x) fun _ => id
  have henc := (execAll_append hrun _).trans (ht.execAll_encs (bytes := List.replicate n x) fun _ => id)
  rw [heout, List.map_replicate] at hdec
  rw [List.map_replicate, List.map_replicate] at henc
  exact ⟨_, _, henc, hcode, hsingle, (if_pos ⟨ht.err, ht.phase⟩).trans (congrArg some heout), hdec, if_pos ⟨ht.err, rfl⟩⟩

end Sys2Proof.Machine
end

section
/-! The read-back commands (spec/46_readback.md): their words (R171 to R174), the values they respond (R73 to R75), and
that one response is all they change (R170), in every phase and while faulted (R175). -/

namespace Sys2Proof.Machine

variable {s : State}

/-! ### Words -/

/-- A concatenation is the bitwise or of its two parts at their places. -/
theorem append_eq_or {n k : Nat} (hi : BitVec n) (lo : BitVec k) :
    hi ++ lo = (hi ++ (0 : BitVec k)) ||| lo.setWidth (n + k) := by
  refine BitVec.eq_of_getLsbD_eq fun i _ => ?_
  rw [BitVec.getLsbD_or, BitVec.getLsbD_append, BitVec.getLsbD_append, BitVec.getLsbD_setWidth]
  by_cases hk : i < k
  · simp [hk, Nat.lt_add_left n hk]
  · simp [hk, BitVec.getLsbD_of_ge lo i (Nat.le_of_not_lt hk)]

theorem encode_rdr (reg : BitVec 4) : encode (.rdr reg) = 0xA000 ||| reg.setWidth 16 := append_eq_or _ reg

theorem encode_rdf (sym : Sym) : encode (.rdf sym) = 0xB000 ||| sym.setWidth 16 := wordS_eq_or 0xB sym

theorem encode_rdc (sym : Sym) : encode (.rdc sym) = 0xC000 ||| sym.setWidth 16 := wordS_eq_or 0xC sym

theorem encode_rdn (idx : Idx) : encode (.rdn idx) = 0xD000 ||| idx.setWidth 16 := append_eq_or _ idx

/-! ### Scalar responses (R73) -/

/-- A scalar response is the value as a number: no register or count is wider than 64 bits. -/
theorem scalarResponse_setWidth {n : Nat} (x : BitVec n) (hn : n ≤ 64) :
    scalarResponse (x.setWidth 64) = BitVec.ofNat 272 x.toNat := by
  rw [scalarResponse, ← BitVec.ofNat_toNat, BitVec.toNat_setWidth_of_le hn]

/-! ### RDR (R171) -/

theorem exec_rdr {reg : BitVec 4} {v : BitVec 64} (h : s.register reg = some v) :
    exec (.rdr reg) s = .next (s.emitRsp (scalarResponse v)) := by
  rw [exec, execRdr, h]

/-- A register's own value, whatever its width, is the response. -/
theorem exec_rdr_value {reg : BitVec 4} {n v : Nat} (x : BitVec n) (h : s.register reg = some (x.setWidth 64))
    (hn : n ≤ 64) (hv : x.toNat = v) : exec (.rdr reg) s = .next (s.emitRsp (BitVec.ofNat 272 v)) := by
  rw [exec_rdr h, scalarResponse_setWidth x hn, hv]

theorem exec_rdr_reserved {reg : BitVec 4} (h : 12 ≤ reg.toNat) :
    exec (.rdr reg) s = illegalWord (encode (.rdr reg)) s := by
  have hreg : s.register reg = none := (State.register_eq_none s reg).2 (decide_eq_false (Nat.not_le_of_lt h))
  rw [exec, execRdr, hreg]

/-- The five fields of STATUS at their places (R21): a finite table. -/
theorem toNat_flags : ∀ (fault ddone single empty : Bool) (phase : BitVec 2),
    ((((BitVec.ofBool fault ++ BitVec.ofBool ddone) ++ BitVec.ofBool single) ++ BitVec.ofBool empty) ++ phase).toNat =
      phase.toNat + (if empty then 4 else 0) + (if single then 8 else 0) + (if ddone then 16 else 0) +
        (if fault then 32 else 0) := by decide

theorem toNat_status (s : State) : s.status.toNat = s.phase.bits.toNat +
    (if s.empty then 4 else 0) + (if s.single then 8 else 0) + (if s.ddone then 16 else 0) +
    (if s.err = .none then 0 else 32) := by
  rw [State.status, toNat_flags]
  by_cases he : s.err = .none
  · simp [he, (State.faulted_eq_false s).2 he]
  · simp [he, (State.faulted_eq_true s).2 he]

/-- Settles O46: each register holds its value (R21), STATUS by its fields and ERR by its codes; the numbers 12 to 15
name no register, and the word is then an illegal one. -/
theorem rdrReadsEveryRegister : Obligations.RdrReadsEveryRegister := by
  refine ⟨encode_rdr, fun s => ⟨?_, ?_, ?_⟩⟩
  · refine exec_rdr_value s.status rfl (by decide) ((toNat_status s).trans ?_)
    cases s.phase <;> rfl
  · refine exec_rdr_value s.err.bits rfl (by decide) ?_
    cases s.err <;> rfl
  · have hwide (p : Pos) : some p = some (p.setWidth 64) := congrArg some p.setWidth_eq.symm
    exact ⟨exec_rdr_value s.errSym rfl (by decide) rfl, exec_rdr_value s.errPos (hwide _) (by decide) rfl,
      exec_rdr_value s.errCmd rfl (by decide) rfl, exec_rdr_value s.total rfl (by decide) rfl,
      exec_rdr_value s.nsym rfl (by decide) rfl, exec_rdr_value s.root rfl (by decide) rfl,
      exec_rdr_value s.nint rfl (by decide) rfl, exec_rdr_value s.epos (hwide _) (by decide) rfl,
      exec_rdr_value s.dpos (hwide _) (by decide) rfl, exec_rdr_value s.dcur rfl (by decide) rfl,
      fun reg hreg => ⟨fun he => (exec_rdr_reserved hreg).trans (illegalWord_raises _ he),
        fun he => (exec_rdr_reserved hreg).trans (illegalWord_refused _ he)⟩⟩

/-! ### RDF (R172) -/

theorem exec_rdf (sym : Sym) (s : State) :
    exec (.rdf sym) s = .next (s.emitRsp (BitVec.ofNat 272 (s.freqAt sym.toNat).toNat)) := by
  rw [exec, execRdf, scalarResponse_setWidth _ (by decide)]

/-- Settles O47: no check stands before RDF, and its response is the scalar one. -/
theorem rdfReadsAFrequency : Obligations.RdfReadsAFrequency := fun s sym => ⟨encode_rdf sym, exec_rdf sym s⟩

/-! ### RDC (R173) -/

theorem exec_rdc (sym : Sym) (s : State) :
    exec (.rdc sym) s = .next (s.emitRsp (codeResponse (s.codeAt sym.toNat))) := rfl

/-- Every bit of a code response (R75): the fields are the parts of the concatenation, the lowest one last. -/
theorem codeResponse_layout (c : Code) :
    (codeResponse c).getLsbD 0 = c.valid ∧ (codeResponse c).extractLsb' 1 9 = c.len ∧
      (codeResponse c).extractLsb' 10 6 = 0 ∧
      ∀ i, i < 256 → (codeResponse c).getLsbD (16 + i) = c.bits.getLsbD i := by
  unfold codeResponse
  refine ⟨?_, ?_, ?_, fun i hi => ?_⟩
  · simp [-Nat.reduceAdd, -BitVec.getLsbD_eq_getElem, BitVec.getLsbD_append]
  · simp (disch := decide) only [BitVec.extractLsb'_append_eq_of_add_le, BitVec.extractLsb'_append_eq_left]
  · simp (disch := decide) only [BitVec.extractLsb'_append_eq_of_add_le, BitVec.extractLsb'_append_eq_left]
  · have hlo : ¬ 16 + i < 6 + (9 + 1) := by omega
    rw [BitVec.getLsbD_append, if_neg hlo, Nat.add_sub_cancel_left]

/-- Settles O48, by the layout of the code response. -/
theorem rdcReadsACode : Obligations.RdcReadsACode := fun s sym =>
  ⟨encode_rdc sym, _, exec_rdc sym s, codeResponse_layout _⟩

/-! ### RDN (R174) -/

theorem exec_rdn {idx : Idx} (h : idx ≠ Config.nil) :
    exec (.rdn idx) s = .next (s.emitRsp (nodeResponse (s.nodeAt idx.toNat))) := by
  rw [exec, execRdn, nodeOf_eq_some h]

theorem exec_rdn_nil (s : State) : exec (.rdn Config.nil) s = .next (s.emitRsp 0) := rfl

/-- Every bit of a node response (R74), read off in the same way. -/
theorem nodeResponse_layout (n : Node) :
    (nodeResponse n).getLsbD 0 = n.valid ∧ (nodeResponse n).getLsbD 1 = n.leaf ∧
      (nodeResponse n).extractLsb' 2 8 = n.sym ∧ (nodeResponse n).extractLsb' 10 9 = n.left ∧
      (nodeResponse n).extractLsb' 19 9 = n.right ∧ (nodeResponse n).extractLsb' 28 4 = 0 ∧
      (nodeResponse n).extractLsb' 32 32 = n.weight ∧ (nodeResponse n).extractLsb' 64 208 = 0 := by
  unfold nodeResponse
  refine ⟨?_, ?_, ?_⟩
  · simp [-Nat.reduceAdd, -BitVec.getLsbD_eq_getElem, BitVec.getLsbD_append]
  · simp [-Nat.reduceAdd, -BitVec.getLsbD_eq_getElem, BitVec.getLsbD_append]
  · simp (disch := decide) only [BitVec.extractLsb'_append_eq_of_add_le, BitVec.extractLsb'_append_eq_left, and_self]

/-- Settles O49: index 511 is no entry and answers 0, and any other by the layout of the node response. -/
theorem rdnReadsANode : Obligations.RdnReadsANode := by
  refine fun s idx => ⟨encode_rdn idx, ?_⟩
  by_cases h : idx = Config.nil
  · subst h
    exact ⟨0, exec_rdn_nil s, fun _ => rfl, fun hne => absurd rfl hne⟩
  · exact ⟨_, exec_rdn h, fun hc => absurd hc h, fun _ => nodeResponse_layout _⟩

/-! ### What all four have in common (R170) -/

/-- A read-back emits one response, the same one after any other response: it is read off neither RSP nor the ports. -/
theorem exists_response {i : Instr} (hi : isReadBack i = true) (hw : i.wellFormed = true) (s : State) :
    ∃ w : Response, exec i s = .next (s.emitRsp w) ∧
      ∀ v, exec i (s.emitRsp v) = .next ((s.emitRsp v).emitRsp w) := by
  cases i with
  | rdr reg =>
    have hreg : s.register reg ≠ none := by
      rw [Ne, State.register_eq_none, Bool.not_eq_false]
      exact hw
    obtain ⟨v, hv⟩ := Option.ne_none_iff_exists'.1 hreg
    exact ⟨_, exec_rdr hv, fun _ => exec_rdr hv⟩
  | rdf sym => exact ⟨_, exec_rdf sym s, fun _ => exec_rdf sym _⟩
  | rdc sym => exact ⟨_, exec_rdc sym s, fun _ => exec_rdc sym _⟩
  | rdn idx =>
    by_cases h : idx = Config.nil
    · subst h
      exact ⟨_, exec_rdn_nil s, fun _ => exec_rdn_nil _⟩
    · exact ⟨_, exec_rdn h, fun _ => exec_rdn h⟩
  | _ => cases hi

/-- Settles O50: the other read-back, too, only emits a response. -/
theorem readBackChangesOnlyTheResponse : Obligations.ReadBackChangesOnlyTheResponse := by
  intro i s hi hw
  obtain ⟨w, hexec, hagain⟩ := exists_response hi hw s
  refine ⟨w, hexec, fun j t hj hwj h => ?_⟩
  obtain ⟨v, hexecj, -⟩ := exists_response hj hwj s
  cases hexecj.symm.trans h
  exact hagain v

end Sys2Proof.Machine
end

section
/-! Reset and hazards (spec/70_reset_and_hazards.md): what `rst` does, and that an idle block holds its state. -/

namespace Sys2Proof.Machine

/-- Settles O7, by two of the cases of a step: the reset pin clears the block as CLR does (R215), and nothing is presented
to an idle one. -/
theorem stepOnResetAndOnNothing : Obligations.StepOnResetAndOnNothing :=
  ⟨fun _ _ hin => step_of_rst hin, fun _ hin => step_of_idle hin⟩

end Sys2Proof.Machine
end

section
/-! Exceptions (spec/60_exceptions.md): what a faulted block refuses (R192) and keeps (R198, R199), and which command
raises which error (R186), with what effect (R188, R190). -/

namespace Sys2Proof.Machine

variable {i : Instr} {s t : State}

/-! ### A faulted block (R192, R198, R199) -/

/-- The nine commands that a faulted block does not execute all stand behind the gate. -/
theorem exec_refused (he : s.err ≠ .none) (hi : runsWhileFaulted i = false) : exec i s = .next s := by
  cases i with
  | clr | rdr | rdf | rdc | rdn => cases hi
  | _ => exact gate_refused _ _ _ he

/-- Settles O10: a legal word's command is refused by the gate, and an illegal word by its own check. -/
theorem faultedBlockRefuses : Obligations.FaultedBlockRefuses := by
  intro s w he hw
  cases hd : decode w with
  | ok i => exact (step_of_legal rfl hd).trans (exec_refused he (hw i hd))
  | error r => exact (step_of_illegal rfl hd).trans (illegalWord_refused w he)

/-- Settles O15, by the cases of a command: all that a faulted block does but for CLR is to refuse, or to respond. -/
theorem firstErrorStaysUntilClr : Obligations.FirstErrorStaysUntilClr := by
  intro i s t h he hi
  rcases exec_cases h with (⟨-, rfl⟩ | ⟨hc, -⟩) | ⟨hc, -⟩ | ⟨-, w, rfl⟩ | ⟨hc, -⟩
  · exact ⟨rfl, rfl, rfl, rfl⟩
  · exact absurd hc he
  · exact absurd hc hi
  · exact ⟨rfl, rfl, rfl, rfl⟩
  · exact absurd hc he

/-! ### E_SEQUENCE (R188) -/

/-- Settles O11, by what each command does out of phase; DEC and DEND are out of sequence also when DDONE = 1. -/
theorem outOfSequenceCommandsOnlyLatch : Obligations.OutOfSequenceCommandsOnlyLatch := fun _ he =>
  ⟨fun hp => ⟨fun _ => exec_cnt_out_of_phase he hp, exec_bld_out_of_phase he hp⟩,
    exec_gen_out_of_phase he,
    fun hp => ⟨exec_ebeg_out_of_phase he hp, fun sym => exec_enc_out_of_phase sym he hp, exec_lst_out_of_phase he hp⟩,
    exec_dbeg_out_of_phase he,
    fun hd => ⟨fun _ => exec_dec_out_of_sequence he hd, exec_dend_out_of_sequence he hd⟩⟩

/-! ### The error latch (R190, R200) -/

/-- The `err` line and STATUS's FAULT are one condition: the register value of ERR is 0 only for no error (R13). -/
theorem State.errLine_eq_faulted (s : State) : s.errLine = s.faulted := by
  unfold State.errLine State.faulted
  cases s.err <;> rfl

/-- Settles O13, by the effects of a command: CLR clears ERR, and of the others only a raised error writes it. -/
theorem errorLatchChangesNothingElse : Obligations.ErrorLatchChangesNothingElse := by
  intro i s t h he ht
  refine ⟨?_, s.errLine_eq_faulted.trans ((State.faulted_eq_false s).2 he),
    t.errLine_eq_faulted.trans ((State.faulted_eq_true t).2 ht)⟩
  cases exec_effect h with
  | raised => rfl
  | cleared => exact absurd rfl ht
  | _ => exact absurd he ht

/-! ### The causes of an error (R186) -/

@[simp] theorem State.walkTo_err (s : State) (c : Idx) (n : Node) : (s.walkTo c n).err = s.err := by
  unfold State.walkTo
  split <;> rfl

/-- Settles O14, by the cases of a command: a check that fails latches its own error, and what comes after the checks
leaves ERR at 0. -/
theorem errorCausesAndContext : Obligations.ErrorCausesAndContext := by
  intro i s t h he
  rcases exec_cases h with (⟨hc, -⟩ | ⟨-, hl, rfl⟩) | ⟨rfl, rfl⟩ | ⟨-, w, rfl⟩ | ⟨-, h⟩
  · exact absurd he hc
  · exact .inr (.inr (.inl ⟨rfl, hl, rfl, rfl⟩))
  · exact .inl rfl
  · exact .inl he
  · rcases h with ⟨hi, rfl⟩ | ⟨sym, rfl, -, h⟩ | ⟨rfl, -, -, rfl⟩ | ⟨rfl, -, codes, -, rfl⟩ | ⟨rfl, -, rfl⟩ |
      ⟨sym, rfl, -, h⟩ | ⟨rfl, -, rfl⟩ | ⟨bit, rfl, -, -, h⟩ | ⟨rfl, -, -, h⟩ | ⟨rfl, -, rfl⟩
    · exact .inr (.inl ⟨rfl, hi, rfl, rfl⟩)
    · rcases h with ⟨hm, rfl⟩ | ⟨-, rfl⟩
      · exact .inr (.inr (.inr (.inl ⟨rfl, ⟨sym, rfl⟩, hm, rfl, rfl⟩)))
      · exact .inl he
    · exact .inl he
    · exact .inl he
    · exact .inl he
    · rcases h with ⟨-, rfl⟩ | ⟨hv, rfl⟩
      · rw [State.emitEncs_eq]
        exact .inl he
      · exact .inr (.inr (.inr (.inr (.inl ⟨rfl, sym, rfl, hv, rfl, rfl⟩))))
    · exact .inl he
    · rcases h with ⟨rfl, hm⟩ | ⟨-, -, -, rfl⟩
      · exact .inr (.inr (.inr (.inr (.inr ⟨rfl, .inl ⟨bit, rfl, hm⟩, rfl, rfl⟩))))
      · exact .inl ((s.walkTo_err _ _).trans he)
    · rcases h with ⟨-, rfl⟩ | ⟨hc, rfl⟩
      · exact .inl he
      · exact .inr (.inr (.inr (.inr (.inr ⟨rfl, .inr ⟨rfl, hc⟩, rfl, rfl⟩))))
    · exact .inl he

end Sys2Proof.Machine
end
